-- ==== Sys2Proof/Word.lean ====
section
/-! DEFINITION. The word types of the block: a stream word, a byte of a word (R71), and the twelve-bit index of a
large bin (R122). Everything a later repair could have to mend stands elsewhere. -/

namespace Sys2Proof

/-- A 64-bit word: a stream word (R90), a binary64 pattern (R16), a chunk, an Inf or NaN field (R31). -/
abbrev Word := BitVec 64

/-- A byte of a word's serialization (R71). -/
abbrev Byte := BitVec 8

/-- The index of a large bin: the sign and the biased exponent of a binary64 pattern (R10, R122). -/
abbrev BinIndex := BitVec 12

end Sys2Proof
end

