-- ==== Sys2Proof/Config.lean ====
section
/-! DEFINITION. What an implementation fixes and the spec leaves open: the parameters of R11. Each is an opaque
constant, so no proof can see its value; the limit the spec sets ("must be a NaN pattern") is put on by the operation
that reads it (Machine/Flags.lean, Machine/Products.lean). -/

namespace Sys2Proof

/-- P_INF_CANCEL_NAN(x) (R127, D19): the free sign (bit 52) and payload (bits 51 to 0) of the NaN that it is, for an
infinity x (entry 5) and for any other word the Inf path is given (entry 6). -/
opaque Config.infCancelBits : Word → BitVec 53

/-- P_MUL_NAN(a, b) (R131, D20): the free sign (bit 52) and payload (bits 51 to 0) of the NaN that the product of the
patterns a and b is. Entry 7. -/
opaque Config.mulNaNBits : Word → Word → BitVec 53

/-- NINST less one (R11, R290): a system has at least one instance. Entry 14. -/
opaque Config.furtherInstances : Nat

/-- NINST, the number of block instances of a system (R11, R290). -/
def Config.ninst : Nat := Config.furtherInstances + 1

end Sys2Proof
end

