-- ==== Sys2Proof/Syntax.lean ====
section
/-! DEFINITION. The commands of the block, one constructor per row of spec/opcode_table.json, and the image operand.
The length operand n of a vector command is the length of its list (R93, R101; entry 15). -/

namespace Sys2Proof

/-- An image operand as its 70 words carry it (R72): the fields of a small accumulator and the pad half of word 69,
which no command reads (R74) and which is kept here so that no bit of the operand is lost. -/
structure Image where
  /-- words 0 to 66: the chunks, signed -/
  chunk : Vector Word 67
  /-- word 67: the Inf field -/
  inf   : Word
  /-- word 68: the NaN field -/
  nan   : Word
  /-- bits [31:0] of word 69: the adds field, signed -/
  adds  : BitVec 32
  /-- bits [63:32] of word 69: ignored when received -/
  pad   : BitVec 32
  deriving DecidableEq, Repr

/-- The commands of R92 with their operands (R93). -/
inductive Instr where
  /-- S_INIT (R163) -/
  | sInit
  /-- S_ADD1 x (R164) -/
  | sAdd1 (x : Word)
  /-- S_ADDV [v] (R165) -/
  | sAddv (v : List Word)
  /-- S_SQNORM [v] (R168) -/
  | sSqnorm (v : List Word)
  /-- S_DOT [a], [b], as the interleaved pairs (R102, R169) -/
  | sDot (ab : List (Word × Word))
  /-- S_ADDACC with an image (R167) -/
  | sAddacc (x : Image)
  /-- S_ROUND (R213) -/
  | sRound
  /-- S_PROPAGATE (R170) -/
  | sPropagate
  /-- S_CHUNKS (R171) -/
  | sChunks
  /-- S_STORE (R172) -/
  | sStore
  /-- S_LOAD with an image (R173) -/
  | sLoad (x : Image)
  /-- L_INIT (R245) -/
  | lInit
  /-- L_ADD1 x (R246) -/
  | lAdd1 (x : Word)
  /-- L_ADDV [v] (R247) -/
  | lAddv (v : List Word)
  /-- L_SQNORM [v] (R249) -/
  | lSqnorm (v : List Word)
  /-- L_DOT [a], [b], as the interleaved pairs (R102, R250) -/
  | lDot (ab : List (Word × Word))
  /-- L_ADDSMALL with an image (R251) -/
  | lAddsmall (x : Image)
  /-- L_ROUND (R252) -/
  | lRound
  /-- L_ROUND_TO_SMALL (R253) -/
  | lRoundToSmall
  /-- L_CHUNKS (R254) -/
  | lChunks
  deriving DecidableEq, Repr

end Sys2Proof
end

