-- ==== Sys2Proof/WellFormed.lean ====
section
/-! DEFINITION. Which commands a command stream can hold: every operand value is legal (R99), and the only bound is
that the length operand of a vector command is a 64-bit count (R101). -/

namespace Sys2Proof

/-- The command can be written on the command stream: its length operand, if it has one, is a u64 (R101). -/
def Instr.wellFormed : Instr → Bool
  | .sInit => true
  | .sAdd1 _ => true
  | .sAddv v => decide (v.length < 2 ^ 64)
  | .sSqnorm v => decide (v.length < 2 ^ 64)
  | .sDot ab => decide (ab.length < 2 ^ 64)
  | .sAddacc _ => true
  | .sRound => true
  | .sPropagate => true
  | .sChunks => true
  | .sStore => true
  | .sLoad _ => true
  | .lInit => true
  | .lAdd1 _ => true
  | .lAddv v => decide (v.length < 2 ^ 64)
  | .lSqnorm v => decide (v.length < 2 ^ 64)
  | .lDot ab => decide (ab.length < 2 ^ 64)
  | .lAddsmall _ => true
  | .lRound => true
  | .lRoundToSmall => true
  | .lChunks => true

end Sys2Proof
end

