-- ==== Sys2Proof/Decode.lean ====
section
/-! DEFINITION. The command encoding of 30_encoding.md: the decoder of R106, total on any word sequence, and after it
the encoder. A decoder that lacks operand words answers `held` (R96); an illegal word is rejected by name (R97). -/

namespace Sys2Proof

/-- The shapes of the operand words of R93, each with the command its operands make. -/
inductive OperandShape where
  /-- no operand word -/
  | none (i : Instr)
  /-- one binary64 pattern -/
  | pattern (f : Word → Instr)
  /-- n, then n patterns -/
  | vector (f : List Word → Instr)
  /-- n, then n pairs of patterns -/
  | pairs (f : List (Word × Word) → Instr)
  /-- the 70 words of an image -/
  | image (f : Image → Instr)

/-- The opcode map of R92 with the operand words of R93, keyed by the whole command word, which the decoder compares
(R91). -/
def opcodeMap : List (Word × OperandShape) :=
  [ (0x01#64, .none .sInit),
    (0x02#64, .pattern .sAdd1),
    (0x03#64, .vector .sAddv),
    (0x04#64, .vector .sSqnorm),
    (0x05#64, .pairs .sDot),
    (0x06#64, .image .sAddacc),
    (0x07#64, .none .sRound),
    (0x08#64, .none .sPropagate),
    (0x09#64, .none .sChunks),
    (0x0A#64, .none .sStore),
    (0x0B#64, .image .sLoad),
    (0x11#64, .none .lInit),
    (0x12#64, .pattern .lAdd1),
    (0x13#64, .vector .lAddv),
    (0x14#64, .vector .lSqnorm),
    (0x15#64, .pairs .lDot),
    (0x16#64, .image .lAddsmall),
    (0x17#64, .none .lRound),
    (0x18#64, .none .lRoundToSmall),
    (0x19#64, .none .lChunks) ]

/-- What the decoder finds at the front of a word sequence. -/
inductive Decoded where
  /-- a whole command, and the words after it -/
  | command (i : Instr) (rest : List Word)
  /-- an illegal command word, which takes no operand words (R97, R98), and the words after it -/
  | illegal (w : Word) (rest : List Word)
  /-- no command word, or a command whose operand words have not all arrived (R96) -/
  | held
  deriving DecidableEq, Repr

/-- The first k words and the words after them, if there are k. -/
def takeWords (k : Nat) (ws : List Word) : Option (List Word × List Word) :=
  if k ≤ ws.length then some (ws.take k, ws.drop k) else none

/-- Interleaved words as pairs (R93, R102). -/
def pairUp : List Word → List (Word × Word)
  | a :: b :: r => (a, b) :: pairUp r
  | _ => []

/-- Pairs as interleaved words (R93, R102). -/
def interleave : List (Word × Word) → List Word
  | [] => []
  | (a, b) :: r => a :: b :: interleave r

/-- The image that 70 words carry (R72, R74). -/
def imageOfWords (ws : List Word) : Image where
  chunk := Vector.ofFn fun i => ws.getD i.val 0#64
  inf := ws.getD 67 0#64
  nan := ws.getD 68 0#64
  adds := (ws.getD 69 0#64).extractLsb' 0 32
  pad := (ws.getD 69 0#64).extractLsb' 32 32

/-- The 70 words of an image (R72). -/
def Image.toWords (x : Image) : List Word :=
  x.chunk.toList ++ [x.inf, x.nan, x.pad ++ x.adds]

/-- The operand words after a legal command word: the command they complete, or `held` (R93, R96). -/
def decodeOperands : OperandShape → List Word → Decoded
  | .none i, ws => .command i ws
  | .pattern _, [] => .held
  | .pattern f, x :: ws => .command (f x) ws
  | .vector _, [] => .held
  | .vector f, n :: ws =>
    match takeWords n.toNat ws with
    | none => .held
    | some (v, rest) => .command (f v) rest
  | .pairs _, [] => .held
  | .pairs f, n :: ws =>
    match takeWords (2 * n.toNat) ws with
    | none => .held
    | some (v, rest) => .command (f (pairUp v)) rest
  | .image f, ws =>
    match takeWords 70 ws with
    | none => .held
    | some (v, rest) => .command (f (imageOfWords v)) rest

/-- The decoder of R106: one command, one illegal word, or held. -/
def decode : List Word → Decoded
  | [] => .held
  | w :: ws =>
    match opcodeMap.lookup w with
    | none => .illegal w ws
    | some shape => decodeOperands shape ws

/-- The words of a command (R92, R93): its command word, then its operand words. -/
def encode : Instr → List Word
  | .sInit => [0x01#64]
  | .sAdd1 x => [0x02#64, x]
  | .sAddv v => 0x03#64 :: BitVec.ofNat 64 v.length :: v
  | .sSqnorm v => 0x04#64 :: BitVec.ofNat 64 v.length :: v
  | .sDot ab => 0x05#64 :: BitVec.ofNat 64 ab.length :: interleave ab
  | .sAddacc x => 0x06#64 :: x.toWords
  | .sRound => [0x07#64]
  | .sPropagate => [0x08#64]
  | .sChunks => [0x09#64]
  | .sStore => [0x0A#64]
  | .sLoad x => 0x0B#64 :: x.toWords
  | .lInit => [0x11#64]
  | .lAdd1 x => [0x12#64, x]
  | .lAddv v => 0x13#64 :: BitVec.ofNat 64 v.length :: v
  | .lSqnorm v => 0x14#64 :: BitVec.ofNat 64 v.length :: v
  | .lDot ab => 0x15#64 :: BitVec.ofNat 64 ab.length :: interleave ab
  | .lAddsmall x => 0x16#64 :: x.toWords
  | .lRound => [0x17#64]
  | .lRoundToSmall => [0x18#64]
  | .lChunks => [0x19#64]

/-- How many stream words the longest command has whose words after the first are zeros: an image command (R93). -/
def longestZeroCommand : Nat := 71

/-- The low k 64-bit words of a number, least significant first. -/
def wordsOfNat : Nat → Nat → List Word
  | 0, _ => []
  | k + 1, w => BitVec.ofNat 64 w :: wordsOfNat k (w / 2 ^ 64)

/-- The stream words of an instruction given as opcode_table.json numbers its bits: the first word is the low 64 bits
of w, and every bit from nbits up is 0, as far as the longest command goes (entry 21). -/
def tableWords (nbits w : Nat) : List Word := wordsOfNat longestZeroCommand (w % 2 ^ nbits)

/-- The command the decoder reads from an instruction whose bits are w, numbered as spec/opcode_table.json numbers
them; none where the decoder rejects it. -/
def decodeTableWord (nbits w : Nat) : Option Instr :=
  match decode (tableWords nbits w) with
  | .command i _ => some i
  | .illegal _ _ => none
  | .held => none

end Sys2Proof
end

