-- ==== Sys2Proof/Machine/State.lean ====
section
/-! DEFINITION. The state of one block instance (10_state.md), all of it and nothing else (R30), its value after reset
(R301), and the two reasons a step could stop, neither of which any command ever gives. -/

namespace Sys2Proof.Machine

/-- A small accumulator: the unit S, and the accumulator L.sacc inside L (R31). -/
structure Small where
  /-- the chunk register file, 67 signed chunks; chunk i has weight 2^(32 i - 1075) (R32) -/
  chunk : Vector Word 67
  /-- the sticky infinity state: 0, an infinity, or the NaN of both signs (R33) -/
  inf   : Word
  /-- the sticky NaN of largest payload, or 0 (R34) -/
  nan   : Word
  /-- adds_until_propagate, signed (R35) -/
  adds  : BitVec 32
  deriving DecidableEq, Repr

/-- The additive identity (R31, R50). -/
def Small.reset : Small := { chunk := Vector.replicate 67 0#64, inf := 0#64, nan := 0#64, adds := 2047#32 }

/-- One bin of the large accumulator: its chunk (R40) and its counter (R41). -/
structure Bin where
  /-- the wrapping sum of the patterns added since the bin's last reset (R40) -/
  chunk : Word
  /-- signed: -1 when not in use or special, else 4096 less the number of values held (R41) -/
  count : BitVec 16
  deriving DecidableEq, Repr

/-- A bin at its reset value: chunk 0, count -1 (R39). -/
def Bin.unused : Bin := { chunk := 0#64, count := 0xFFFF#16 }

/-- The 4096 bins: the pairs of an index and a bin that is not at its reset value, indices strictly rising; a bin not
listed is `Bin.unused` (entry 9). -/
abbrev Bins := List (BinIndex × Bin)

/-- The large accumulator (R39). -/
structure Large where
  /-- L.chunk and L.count -/
  bins     : Bins
  /-- the chunks_used bit-set: bit b of word k stands for bin 64 k + b (R42) -/
  used     : Vector Word 64
  /-- bit k tells whether word k of the bit-set is nonzero (R42) -/
  usedUsed : Word
  /-- the embedded small accumulator L.sacc (R44) -/
  sacc     : Small
  deriving DecidableEq, Repr

/-- The additive identity of L (R39, R50). -/
def Large.reset : Large :=
  { bins := [], used := Vector.replicate 64 0#64, usedUsed := 0#64, sacc := Small.reset }

/-- One instance of the block (R30): its two accumulators and its command-stream state. -/
structure State where
  /-- the unit S -/
  small   : Small
  /-- the unit L -/
  large   : Large
  /-- the words of a command that is not yet whole, its command word first; empty when there is none (R46) -/
  pending : List Word
  /-- the command stream: words sent by the host and not yet received (R90) -/
  input   : List Word
  /-- the response stream: every word sent since reset, oldest first (R90) -/
  output  : List Word
  deriving DecidableEq, Repr

/-- The block right after reset (R300, R301). -/
def State.reset : State :=
  { small := Small.reset, large := Large.reset, pending := [], input := [], output := [] }

/-- Why a machine stops with a fault. The block never traps and never fails (R286, R288): there is no reason, so a
step cannot answer a fault. -/
inductive Fault where
  deriving DecidableEq, Repr

/-- Why a step has no meaning for its instruction. -/
inductive Refusal where
  /-- Raised by an arm of `exec` that has no meaning yet, of which there is none; safe. -/
  | notModelled (mnemonic : String)
  deriving DecidableEq, Repr

end Sys2Proof.Machine
end

