-- ==== Sys2Proof/Machine/Operands.lean ====
section
/-! DEFINITION. The fields of a binary64 pattern (R22), its decomposition (R120), the exponent split (R121) and the bin
index (R122): how every command reads a binary64 operand. -/

namespace Sys2Proof.Machine

/-- sign(u) = u[63] (R22). -/
def signBit (u : Word) : Bool := u.getLsbD 63

/-- bexp(u) = u[62:52], the biased exponent (R22). -/
def bexp (u : Word) : BitVec 11 := u.extractLsb' 52 11

/-- frac(u) = u[51:0] (R22). -/
def frac (u : Word) : BitVec 52 := u.extractLsb' 0 52

/-- MANT_MASK (R8). -/
def mantMask : Word := 0x000FFFFFFFFFFFFF#64

/-- SIGN_MASK (R8). -/
def signMask : Word := 0x8000000000000000#64

/-- LOW_MASK (R9). -/
def lowMask : Word := 0xFFFFFFFF#64

/-- The pattern of positive infinity (R22). -/
def posInf : Word := 0x7FF0000000000000#64

/-- The pattern of negative infinity (R22). -/
def negInf : Word := 0xFFF0000000000000#64

/-- The pattern is an infinity (R22). -/
def isInf (u : Word) : Bool := bexp u == 0x7FF#11 && frac u == 0#52

/-- The pattern is a NaN (R22). -/
def isNaN (u : Word) : Bool := bexp u == 0x7FF#11 && frac u != 0#52

/-- The pattern is a zero (R22). -/
def isZero (u : Word) : Bool := bexp u == 0#11 && frac u == 0#52

/-- The NaN pattern with these free bits: bit 52 its sign, bits 51 to 0 its payload, with 2^51 in place of the payload
0 so that every value is a NaN; every NaN pattern is the value at its own bits (R22). -/
def nanOfBits (f : BitVec 53) : Word :=
  let payload : BitVec 52 := f.extractLsb' 0 52
  let payload := if payload = 0#52 then 0x8000000000000#52 else payload
  f.extractLsb' 52 1 ++ 0x7FF#11 ++ payload

/-- The classes of R120. -/
inductive Kind where
  | zero
  | subnormal
  | normal
  | infNaN
  deriving DecidableEq, Repr

/-- What R120 returns: the class, the sign, the mantissa with its implicit bit, and the exponent. -/
structure Decomposed where
  kind : Kind
  neg  : Bool
  mant : Nat
  exp  : Nat
  deriving DecidableEq, Repr

/-- decompose(u) (R120). -/
def decompose (u : Word) : Decomposed :=
  let m := (frac u).toNat
  let e := (bexp u).toNat
  if 0 < e ∧ e < 0x7FF then { kind := .normal, neg := signBit u, mant := m + 2 ^ 52, exp := e }
  else if e = 0 ∧ m = 0 then { kind := .zero, neg := signBit u, mant := m, exp := e }
  else if e = 0 then { kind := .subnormal, neg := signBit u, mant := m, exp := 1 }
  else { kind := .infNaN, neg := signBit u, mant := m, exp := e }

/-- low_exp of split_exp(exp): exp & 0x1F (R121). -/
def lowExp (e : Nat) : Nat := e % 32

/-- high_exp of split_exp(exp): exp shifted right by 5 (R121). -/
def highExp (e : Nat) : Nat := e / 32

/-- bin_index(u): the top 12 bits, sign and biased exponent (R122, R230). -/
def binIndex (u : Word) : BinIndex := u.extractLsb' 52 12

/-- ix & 0x7FF: the biased exponent of a bin (R122, R236). -/
def binExp (ix : BinIndex) : Nat := ix.toNat % 2048

/-- The bin holds infinities and NaNs: the low 11 bits of its index are all ones (R43). -/
def binSpecial (ix : BinIndex) : Bool := binExp ix == 0x7FF

/-- ix[11]: the sign of a bin's values (R241). -/
def binNeg (ix : BinIndex) : Bool := ix.getLsbD 11

end Sys2Proof.Machine
end

