-- ==== Sys2Proof/Machine/Ops.lean ====
section
/-! DEFINITION. The named operations every command is built from: reading and writing a chunk (R17), the sparse bins,
the used bit-sets (R42), the image transfers (R73, R74), the byte view of words (R71), the responses (R94, R95), the
rejection of a command (R280, R284), which is this block's one exceptional exit, and the moves of the command stream
(R96, R106) and of the host (R300, R310). -/

namespace Sys2Proof.Machine

/-! ### Small accumulators -/

/-- A.chunk[i] (R17). No rule reads an index above 66; there the answer is 0 (entry 18). -/
def Small.get (a : Small) (i : Nat) : Word := a.chunk[i]?.getD 0#64

/-- A.chunk[i] <- v (R17). No rule writes an index above 66; there nothing is written (entry 18). -/
def Small.set (a : Small) (i : Nat) (v : Word) : Small := { a with chunk := a.chunk.setIfInBounds i v }

/-- A.chunk[i] <- A.chunk[i] +w d (R14). -/
def Small.addAt (a : Small) (i : Nat) (d : Word) : Small := a.set i (a.get i + d)

/-- A.chunk[i] <- A.chunk[i] -w d (R14). -/
def Small.subAt (a : Small) (i : Nat) (d : Word) : Small := a.set i (a.get i - d)

/-- Add d to chunk i, or subtract it where the value is negative (R150, R241). -/
def Small.accumulate (a : Small) (neg : Bool) (i : Nat) (d : Word) : Small :=
  if neg then a.subAt i d else a.addAt i d

/-- A.adds <- A.adds - 1 (R152, R166, R242). -/
def Small.countDown (a : Small) : Small := { a with adds := a.adds - 1#32 }

/-- The number of nonzero chunks (R171). -/
def Small.chunksUsed (a : Small) : Nat := a.chunk.toList.countP fun c => c != 0#64

/-- val(A) in units of 2^-1075: the sum of A.chunk[i] 2^(32 i), each chunk read as a signed integer (R19, R205). -/
def Small.value (a : Small) : Int := a.chunk.toList.foldr (fun c acc => c.toInt + 2 ^ 32 * acc) 0

/-! ### Images -/

/-- The record ImageRecv returns; the pad is ignored (R74). -/
def imageRecv (x : Image) : Small := { chunk := x.chunk, inf := x.inf, nan := x.nan, adds := x.adds }

/-- The image of a small accumulator, its pad zero (R72, R73). -/
def Small.image (a : Small) : Image := { chunk := a.chunk, inf := a.inf, nan := a.nan, adds := a.adds, pad := 0#32 }

/-- The 70 words that ImageSend sends (R73). -/
def imageSend (a : Small) : List Word := a.image.toWords

/-- The image's adds field is one that S_LOAD accepts: in [0, 2047], read as a signed integer (R173, R283). -/
def addsInRange (n : BitVec 32) : Bool := decide (0 ≤ n.toInt ∧ n.toInt ≤ 2047)

/-! ### Bytes -/

/-- The 8 bytes of a word: byte j is w[8 j + 7 : 8 j] (R71). -/
def wordBytes (w : Word) : List Byte := (List.range 8).map fun j => w.extractLsb' (8 * j) 8

/-- The word of 8 bytes, the first the least significant (R71). -/
def wordOfBytes (bs : List Byte) : Word :=
  bs.foldr (fun b acc => (acc <<< 8) ||| b.setWidth 64) 0#64

/-- Stream words as bytes (R71): the image of R72 is the bytes of its 70 words. -/
def bytesOfWords (ws : List Word) : List Byte := ws.flatMap wordBytes

/-! ### Large accumulators -/

/-- The bin at an index (R17; entry 9). -/
def binsGet : Bins → BinIndex → Bin
  | [], _ => Bin.unused
  | (k, b) :: r, ix => if k = ix then b else binsGet r ix

/-- The bins with the bin at an index replaced, in canonical form (entry 9). -/
def binsSet : Bins → BinIndex → Bin → Bins
  | [], ix, b => if b = Bin.unused then [] else [(ix, b)]
  | (k, c) :: r, ix, b =>
    if k = ix then (if b = Bin.unused then r else (ix, b) :: r)
    else if ix.toNat < k.toNat then (if b = Bin.unused then (k, c) :: r else (ix, b) :: (k, c) :: r)
    else (k, c) :: binsSet r ix b

/-- The canonical form of the bins: indices strictly rising, and no bin at its reset value listed (entry 9). -/
def binsWf : Bins → Bool
  | [] => true
  | (k, b) :: r => decide (b ≠ Bin.unused) && r.all (fun e => decide (k.toNat < e.1.toNat)) && binsWf r

/-- L.chunk[ix] and L.count[ix] (R17). -/
def Large.bin (l : Large) (ix : BinIndex) : Bin := binsGet l.bins ix

/-- Write L.chunk[ix] and L.count[ix] (R17). -/
def Large.setBin (l : Large) (ix : BinIndex) (b : Bin) : Large := { l with bins := binsSet l.bins ix b }

/-- A bin is live when its count is not negative: the sign bit of the i16 is clear (R21, R41). -/
def Bin.live (b : Bin) : Bool := !b.count.msb

/-- The used bit of a bin: bit ix & 63 of L.used[ix >> 6] (R42). -/
def Large.usedBit (l : Large) (ix : BinIndex) : Bool :=
  (l.used[ix.toNat / 64]?.getD 0#64).getLsbD (ix.toNat % 64)

/-- Set the used bit of a bin, and the bit of its word in L.used_used (R243). -/
def Large.setUsed (l : Large) (ix : BinIndex) : Large :=
  let k := ix.toNat / 64
  { l with
    used := l.used.setIfInBounds k (l.used[k]?.getD 0#64 ||| (1#64 <<< (ix.toNat % 64)))
    usedUsed := l.usedUsed ||| (1#64 <<< k) }

/-- The number of live bins (R254). -/
def Large.binsLive (l : Large) : Nat := (List.range 4096).countP fun n => (l.bin (BitVec.ofNat 12 n)).live

/-! ### Responses -/

/-- The error codes of R281. -/
inductive ErrorCode where
  | ok
  | illegal
  | badImage
  deriving DecidableEq, Repr

/-- The ERR field of an error code (R281). -/
def ErrorCode.code : ErrorCode → BitVec 8
  | .ok => 0x00#8
  | .illegal => 0x01#8
  | .badImage => 0x02#8

/-- The status word: OPC in [7:0], ERR in [15:8], zero above (R94). -/
def statusWord (opc : BitVec 8) (err : ErrorCode) : Word := 0#48 ++ err.code ++ opc

/-- send(w) for each of the words, in order (R18). -/
def State.send (s : State) (ws : List Word) : State := { s with output := s.output ++ ws }

/-- respond(opc, err) (R18, R94). -/
def State.respond (s : State) (opc : BitVec 8) (err : ErrorCode) : State := s.send [statusWord opc err]

/-- A command completes: the status word with ERR = OK, then its result words (R95, R280 (a)). -/
def State.complete (s : State) (opc : BitVec 8) (results : List Word) : State :=
  (s.respond opc .ok).send results

/-- raise Error(code): a command is rejected; the status word alone is sent and nothing else changes (R18, R280 (b),
R284). This is the only exceptional exit the block has: there is no trap entry, saved state or return (R288). -/
def State.reject (s : State) (opc : BitVec 8) (err : ErrorCode) : State := s.respond opc err

/-! ### The command stream -/

/-- The words received or receivable: those of the pending command, then those of the stream (R46, R96). -/
def State.arrived (s : State) : List Word := s.pending ++ s.input

/-- The front of the command stream, decoded (R106). -/
def State.fetch (s : State) : Decoded := decode s.arrived

/-- The command's words are received and the stream goes on with the rest (R96). -/
def State.consume (s : State) (rest : List Word) : State := { s with pending := [], input := rest }

/-- An illegal command word is received and answered; its low 8 bits are echoed (R97, R282). -/
def State.rejectIllegal (s : State) (w : Word) (rest : List Word) : State :=
  (s.consume rest).reject (w.setWidth 8) .illegal

/-- The block holds: every word that has arrived is kept in pending, and nothing else changes (R96). -/
def State.hold (s : State) : State := { s with pending := s.arrived, input := [] }

/-! ### The host -/

/-- The host sends words (R310). -/
def State.hostSend (s : State) (ws : List Word) : State := { s with input := s.input ++ ws }

/-- The platform asserts reset: every state element takes its reset value and both streams are emptied (R300). -/
def State.platformReset (_ : State) : State := State.reset

end Sys2Proof.Machine
end

