-- ==== Sys2Proof/Machine/Flags.lean ====
section
/-! DEFINITION. The sticky Inf and NaN fields: the handler of R126 with its two paths, and the chunk overflow of R159,
which is the handler called with one fixed pattern. -/

namespace Sys2Proof.Machine

/-- P_INF_CANCEL_NAN(x): some NaN pattern (R127; entry 5), also for a word that is no infinity, which only the merge of
a crafted image passes (R126; entry 6). -/
def infCancelNaN (x : Word) : Word := nanOfBits (Config.infCancelBits x)

/-- inf_path(A, v) (R127). -/
def infPath (a : Small) (v : Word) : Small :=
  if a.inf = 0#64 then { a with inf := v }
  else if a.inf = v then a
  else { a with inf := infCancelNaN v }

/-- nan_path(A, v, m) with m the mantissa of v (R128). -/
def nanPath (a : Small) (v : Word) : Small :=
  if a.nan &&& mantMask ≤ v &&& mantMask then { a with nan := v &&& ~~~signMask } else a

/-- add_inf_nan(A, v): only the mantissa of v decides the path (R126). -/
def addInfNaN (a : Small) (v : Word) : Small :=
  if v &&& mantMask = 0#64 then infPath a v else nanPath a v

/-- The pattern chunk overflow passes to the handler (R159). -/
def overflowNaN : Word := 0x7FFFFFFFFFFFFFFF#64

/-- chunk_overflow(A): a carry out of chunk 66 (R159). -/
def chunkOverflow (a : Small) : Small := addInfNaN a overflowNaN

end Sys2Proof.Machine
end

