-- ==== Sys2Proof/Machine/Carry.lean ====
section
/-! DEFINITION. Carry propagation (R156, R157, R159), shared by both small accumulators. -/

namespace Sys2Proof.Machine

/-- The largest index below n whose chunk is not zero (R156). -/
def topNonzero (a : Small) : Nat → Option Nat
  | 0 => none
  | n + 1 => if a.get n ≠ 0#64 then some n else topNonzero a n

/-- The chunk -1 (R156). -/
abbrev minusOne : Word := 0xFFFFFFFFFFFFFFFF#64

/-- -1 * 2^32 as a chunk (R156). -/
abbrev minusTwoPow32 : Word := 0xFFFFFFFF00000000#64

/-- asr(c, 32): the carry a chunk gives to the next (R156). -/
def carryOf (c : Word) : Word := c.sshiftRight 32

/-- Steps 2 of R156, from index i with u the uppermost index to visit and uix the witness so far (`none` for -1). The
first argument bounds the turns: a turn raises i by one, and i never passes 67 (entry 11). -/
def carryLoop : Nat → Small → Nat → Nat → Option Nat → Small × Option Nat
  | 0, a, _, _, uix => (a, uix)
  | turns + 1, a, i, u, uix =>
    if u < i then (a, uix)
    else
      let c := a.get i
      if c = 0#64 then carryLoop turns a (i + 1) u uix
      else if carryOf c = 0#64 then carryLoop turns a (i + 1) u (some i)
      else if i = u ∧ carryOf c = minusOne then (a, some i)
      else
        let u := if i = u then i + 1 else u
        let clow := c &&& lowMask
        let uix := if clow ≠ 0#64 then some i else uix
        let a := a.set i clow
        if 67 ≤ i + 1 then carryLoop turns (chunkOverflow a) (i + 1) i uix
        else carryLoop turns (a.addAt (i + 1) (carryOf c)) (i + 1) u uix

/-- Step 3 of R156: a top chunk of -1 is moved down into the chunk below. -/
def absorbTop : Small → Nat → Small × Nat
  | a, 0 => (a, 0)
  | a, n + 1 =>
    if a.get (n + 1) = minusOne then absorbTop ((a.addAt n minusTwoPow32).set (n + 1) 0#64) n
    else (a, n + 1)

/-- Step 4 of R156: A.adds <- T - 1. -/
def Small.refill (a : Small) : Small := { a with adds := 2046#32 }

/-- carry_propagate(A), with the index uix that it returns (R156). -/
def carryPropagate (a : Small) : Small × Nat :=
  match topNonzero a 67 with
  | none => (a.refill, 0)
  | some u =>
    match carryLoop 68 a 0 u none with
    | (a, none) => (a.refill, 0)
    | (a, some uix) =>
      let r := absorbTop a uix
      (r.1.refill, r.2)

/-- Propagate first when no add remains: the opening line of R152, R166 and R236. -/
def ensureRoom (a : Small) : Small := if a.adds = 0#32 then (carryPropagate a).1 else a

end Sys2Proof.Machine
end

