-- ==== Sys2Proof/Machine/Rounding.lean ====
section
/-! DEFINITION. The rounding unit R: the correctly rounded binary64 of an exact magnitude (R205 to R208), and rounding
a small accumulator (R200 to R204). R205 defines the result; the procedure of R212 does not (C1). -/

namespace Sys2Proof.Machine

/-- m / d rounded to nearest, ties to even; rhe(m, k) of R205 is the case d = 2^k. -/
def roundHalfEven (m d : Nat) : Nat :=
  let f := m / d
  let r := m % d
  if d < 2 * r ∨ (2 * r = d ∧ f % 2 = 1) then f + 1 else f

/-- The pattern with a sign, a biased exponent below 2^11 and a fraction below 2^52 (R22). -/
def packBinary64 (neg : Bool) (exp frac : Nat) : Word :=
  BitVec.ofNat 64 ((if neg then 2 ^ 63 else 0) + exp * 2 ^ 52 + frac)

/-- The binary64 nearest to (m / d) 2^-1075, ties to even, with its sign: the procedure of R205, which is the case
d = 1; a product and a decimal literal need the finer unit (entry 8). -/
def roundRatio (neg : Bool) (m d : Nat) : Word :=
  let sh := max ((m / d).log2 - 52) 1
  let q := roundHalfEven m (d * 2 ^ sh)
  let carried := q = 2 ^ 53
  let q := if carried then 2 ^ 52 else q
  let sh := if carried then sh + 1 else sh
  if q < 2 ^ 52 then packBinary64 neg 0 q
  else if 0x7FF ≤ sh then packBinary64 neg 0x7FF 0
  else packBinary64 neg sh (q - 2 ^ 52)

/-- RNE64(N 2^-1075): an exact zero gives +0.0 (R205, R206). -/
def rne64 (n : Int) : Word := roundRatio (decide (n < 0)) n.natAbs 1

/-- round_small(A): what becomes of A, and the pattern (R200). -/
def roundSmall (a : Small) : Small × Word :=
  if a.nan ≠ 0#64 then (a, a.nan)
  else if a.inf ≠ 0#64 then (a, a.inf)
  else
    let p := (carryPropagate a).1
    if p.nan ≠ 0#64 then (p, p.nan) else (p, rne64 p.value)

end Sys2Proof.Machine
end

