-- ==== Sys2Proof/Machine/Products.lean ====
section
/-! DEFINITION. The binary64 product that squared norms and dot products add (R131, R132). -/

namespace Sys2Proof.Machine

/-- P_MUL_NAN(a, b): some NaN pattern (R131; entry 7). -/
def mulNaN (a b : Word) : Word := nanOfBits (Config.mulNaNBits a b)

/-- The magnitude of a finite pattern in units of 2^-1075: mantissa times 2^exp (R120). -/
def finiteMagnitude (u : Word) : Nat := (decompose u).mant * 2 ^ (decompose u).exp

/-- FMul64(a, b): the IEEE-754 product, to nearest, ties to even, with gradual underflow and overflow to infinity; a
product that is a NaN is P_MUL_NAN(a, b) (R131). -/
def fmul64 (a b : Word) : Word :=
  let neg := signBit a != signBit b
  if isNaN a || isNaN b then mulNaN a b
  else if isInf a || isInf b then
    (if isZero a || isZero b then mulNaN a b else packBinary64 neg 0x7FF 0)
  else roundRatio neg (finiteMagnitude a * finiteMagnitude b) (2 ^ 1075)

end Sys2Proof.Machine
end

