-- ==== Sys2Proof/Machine/SmallUnit.lean ====
section
/-! DEFINITION. The S unit: the procedures of 41_small_accumulator.md that both small accumulators use, and a meaning
for each S_* command. -/

namespace Sys2Proof.Machine

/-- low_m of R150: (mant 2^low_exp) mod 2^32. -/
def lowPart (mant exp : Nat) : Word := BitVec.ofNat 64 (mant * 2 ^ lowExp exp % 2 ^ 32)

/-- high_m of R150: mant shifted right by 32 - low_exp. -/
def highPart (mant exp : Nat) : Word := BitVec.ofNat 64 (mant / 2 ^ (32 - lowExp exp))

/-- The two chunk writes of R150 for a finite nonzero value. -/
def addFinite (a : Small) (d : Decomposed) : Small :=
  (a.accumulate d.neg (highExp d.exp) (lowPart d.mant d.exp)).accumulate d.neg (highExp d.exp + 1)
    (highPart d.mant d.exp)

/-- add1_no_carry(A, u) (R150). -/
def addNoCarry (a : Small) (u : Word) : Small :=
  let d := decompose u
  match d.kind with
  | .zero => a
  | .infNaN => addInfNaN a u
  | .subnormal => addFinite a d
  | .normal => addFinite a d

/-- small_add_one(A, u): the counter goes down for every class of u (R152, C5). -/
def smallAddOne (a : Small) (u : Word) : Small := (addNoCarry (ensureRoom a) u).countDown

/-- small_add_one for each pattern in order (R165, R168, R169). -/
def smallAddAll (a : Small) (us : List Word) : Small := us.foldl smallAddOne a

/-- Pass a flag field of the other operand to the handler unless it is 0 (R166). -/
def mergeFlag (a : Small) (v : Word) : Small := if v ≠ 0#64 then addInfNaN a v else a

/-- small_add_other(A, X): X.adds is not read (R166). -/
def smallAddOther (a x : Small) : Small :=
  let a := mergeFlag (mergeFlag (ensureRoom a) x.inf) x.nan
  Small.countDown { a with chunk := Vector.zipWith (· + ·) a.chunk x.chunk }

/-- Put a small accumulator in the place of S. -/
def State.setSmall (s : State) (a : Small) : State := { s with small := a }

/-! ### The commands -/

/-- S_INIT (R163, R302). -/
def execSInit (s : State) : Host.Outcome State Fault Refusal :=
  .next ((s.setSmall Small.reset).complete 0x01#8 [])

/-- S_ADD1 x (R164). -/
def execSAdd1 (x : Word) (s : State) : Host.Outcome State Fault Refusal :=
  .next ((s.setSmall (smallAddOne s.small x)).complete 0x02#8 [])

/-- S_ADDV [v] (R165). -/
def execSAddv (v : List Word) (s : State) : Host.Outcome State Fault Refusal :=
  .next ((s.setSmall (smallAddAll s.small v)).complete 0x03#8 [])

/-- S_SQNORM [v] (R168). -/
def execSSqnorm (v : List Word) (s : State) : Host.Outcome State Fault Refusal :=
  .next ((s.setSmall (smallAddAll s.small (v.map fun x => fmul64 x x))).complete 0x04#8 [])

/-- S_DOT [a], [b] (R169). -/
def execSDot (ab : List (Word × Word)) (s : State) : Host.Outcome State Fault Refusal :=
  .next ((s.setSmall (smallAddAll s.small (ab.map fun p => fmul64 p.1 p.2))).complete 0x05#8 [])

/-- S_ADDACC with an image, no field of which is checked (R167). -/
def execSAddacc (x : Image) (s : State) : Host.Outcome State Fault Refusal :=
  .next ((s.setSmall (smallAddOther s.small (imageRecv x))).complete 0x06#8 [])

/-- S_ROUND (R213). -/
def execSRound (s : State) : Host.Outcome State Fault Refusal :=
  let r := roundSmall s.small
  .next ((s.setSmall r.1).complete 0x07#8 [r.2])

/-- S_PROPAGATE (R170). -/
def execSPropagate (s : State) : Host.Outcome State Fault Refusal :=
  let r := carryPropagate s.small
  .next ((s.setSmall r.1).complete 0x08#8 [BitVec.ofNat 64 r.2])

/-- S_CHUNKS (R171). -/
def execSChunks (s : State) : Host.Outcome State Fault Refusal :=
  .next (s.complete 0x09#8 [BitVec.ofNat 64 s.small.chunksUsed])

/-- S_STORE (R172). -/
def execSStore (s : State) : Host.Outcome State Fault Refusal :=
  .next (s.complete 0x0A#8 (imageSend s.small))

/-- S_LOAD with an image: BAD_IMAGE when its adds field is outside [0, 2047] (R173, R283). -/
def execSLoad (x : Image) (s : State) : Host.Outcome State Fault Refusal :=
  let a := imageRecv x
  if addsInRange a.adds then .next ((s.setSmall a).complete 0x0B#8 [])
  else .next (s.reject 0x0B#8 .badImage)

end Sys2Proof.Machine
end

