-- ==== Sys2Proof/Machine/LargeUnit.lean ====
section
/-! DEFINITION. The L unit: adding a value to a bin (R230 to R233), condensing a bin into L.sacc (R236 to R244), and a
meaning for each L_* command. -/

namespace Sys2Proof.Machine

/-! ### Condense -/

/-- low_exp of a bin's exponent field: 1 for the subnormal bins (R238). -/
def binLow (ix : BinIndex) : Nat := if binExp ix = 0 then 1 else lowExp (binExp ix)

/-- high_exp of a bin's exponent field: 0 for the subnormal bins (R238). -/
def binHigh (ix : BinIndex) : Nat := if binExp ix = 0 then 0 else highExp (binExp ix)

/-- ch of R236: the bin's chunk with the sign and exponent parts of its values taken out, which leaves the sum of their
fractions (R237). -/
def fractionSum (ix : BinIndex) (b : Bin) : Word :=
  b.chunk + ((b.count.setWidth 64 * ix.setWidth 64) <<< 52)

/-- low of R236 (R239). -/
def condenseLow (ix : BinIndex) (b : Bin) : Word := (fractionSum ix b <<< binLow ix) &&& lowMask

/-- mid of R236 before it is split: the upper part of the fraction sum and, for normal values, their implicit leading
ones (R239, R240; entry 10). -/
def condenseWide (ix : BinIndex) (b : Bin) : Word :=
  let mid := fractionSum ix b >>> (32 - binLow ix)
  if binExp ix ≠ 0 then mid + ((4096#64 - b.count.setWidth 64) <<< (20 + binLow ix)) else mid

/-- mid of R236 after the split (R240). -/
def condenseMid (ix : BinIndex) (b : Bin) : Word := condenseWide ix b &&& lowMask

/-- high of R236 (R240). -/
def condenseHigh (ix : BinIndex) (b : Bin) : Word := condenseWide ix b >>> 32

/-- The transfer of a live bin into L.sacc: propagate if no add remains, write three chunks, count one add
(R236, R241, R242). -/
def transferBin (a : Small) (ix : BinIndex) (b : Bin) : Small :=
  let a := ensureRoom a
  let a := a.accumulate (binNeg ix) (binHigh ix) (condenseLow ix b)
  let a := a.accumulate (binNeg ix) (binHigh ix + 1) (condenseMid ix b)
  let a := a.accumulate (binNeg ix) (binHigh ix + 2) (condenseHigh ix b)
  a.countDown

/-- An empty live bin, as condense leaves it: chunk 0, count 2^12 (R243). -/
def Bin.emptied : Bin := { chunk := 0#64, count := 4096#16 }

/-- condense(ix): the transfer only for a live bin, the reset of the bin always (R236, R243, C3). -/
def condense (l : Large) (ix : BinIndex) : Large :=
  let b := l.bin ix
  let l := if b.live then { l with sacc := transferBin l.sacc ix b } else l
  (l.setBin ix Bin.emptied).setUsed ix

/-- The scan of transfer_all inside group k of 64 bins: its last n bins, in ascending order (R244). -/
def transferGroup (k : Nat) : Nat → Large → Large
  | 0, l => l
  | n + 1, l =>
    let ix : BinIndex := BitVec.ofNat 12 (64 * k + (64 - (n + 1)))
    if l.usedBit ix then transferGroup k n (condense l ix) else transferGroup k n l

/-- The scan of transfer_all over its last n groups, in ascending order; a group whose word of the bit-set is zero is
passed over, which visits the same bins (R244). -/
def transferGroups : Nat → Large → Large
  | 0, l => l
  | n + 1, l =>
    let k := 64 - (n + 1)
    if l.used[k]?.getD 0#64 = 0#64 then transferGroups n l else transferGroups n (transferGroup k 64 l)

/-- transfer_all() (R244). -/
def transferAll (l : Large) : Large := transferGroups 64 l

/-! ### Adding a value -/

/-- Count one value more in a bin and add its pattern, wrapping (R231, R232). -/
def Bin.take (b : Bin) (u : Word) : Bin := { chunk := b.chunk + u, count := b.count - 1#16 }

/-- special_or_condense(ix, u) (R232, R233). -/
def specialOrCondense (l : Large) (ix : BinIndex) (u : Word) : Large :=
  if binSpecial ix then { l with sacc := addInfNaN l.sacc u }
  else
    let l := condense l ix
    l.setBin ix ((l.bin ix).take u)

/-- large_add_one(u) (R231). -/
def largeAddOne (l : Large) (u : Word) : Large :=
  let ix := binIndex u
  let b := (l.bin ix).take u
  if b.live then l.setBin ix b else specialOrCondense l ix u

/-- large_add_one for each pattern in order (R247, R249, R250). -/
def largeAddAll (l : Large) (us : List Word) : Large := us.foldl largeAddOne l

/-- Put a large accumulator in the place of L. -/
def State.setLarge (s : State) (l : Large) : State := { s with large := l }

/-! ### The commands -/

/-- L_INIT (R245, R302). -/
def execLInit (s : State) : Host.Outcome State Fault Refusal :=
  .next ((s.setLarge Large.reset).complete 0x11#8 [])

/-- L_ADD1 x (R246). -/
def execLAdd1 (x : Word) (s : State) : Host.Outcome State Fault Refusal :=
  .next ((s.setLarge (largeAddOne s.large x)).complete 0x12#8 [])

/-- L_ADDV [v] (R247). -/
def execLAddv (v : List Word) (s : State) : Host.Outcome State Fault Refusal :=
  .next ((s.setLarge (largeAddAll s.large v)).complete 0x13#8 [])

/-- L_SQNORM [v] (R249). -/
def execLSqnorm (v : List Word) (s : State) : Host.Outcome State Fault Refusal :=
  .next ((s.setLarge (largeAddAll s.large (v.map fun x => fmul64 x x))).complete 0x14#8 [])

/-- L_DOT [a], [b] (R250). -/
def execLDot (ab : List (Word × Word)) (s : State) : Host.Outcome State Fault Refusal :=
  .next ((s.setLarge (largeAddAll s.large (ab.map fun p => fmul64 p.1 p.2))).complete 0x15#8 [])

/-- L_ADDSMALL with an image, no field of which is checked (R251). -/
def execLAddsmall (x : Image) (s : State) : Host.Outcome State Fault Refusal :=
  .next ((s.setLarge { s.large with sacc := smallAddOther s.large.sacc (imageRecv x) }).complete 0x16#8 [])

/-- L_ROUND (R252). -/
def execLRound (s : State) : Host.Outcome State Fault Refusal :=
  let l := transferAll s.large
  let r := roundSmall l.sacc
  .next ((s.setLarge { l with sacc := r.1 }).complete 0x17#8 [r.2])

/-- L_ROUND_TO_SMALL (R253). -/
def execLRoundToSmall (s : State) : Host.Outcome State Fault Refusal :=
  let l := transferAll s.large
  .next ((s.setLarge l).complete 0x18#8 (imageSend l.sacc))

/-- L_CHUNKS (R254). -/
def execLChunks (s : State) : Host.Outcome State Fault Refusal :=
  .next (s.complete 0x19#8 [BitVec.ofNat 64 s.large.binsLive])

end Sys2Proof.Machine
end

