-- ==== Sys2Proof/Machine/Dispatch.lean ====
section
/-! DEFINITION. The meaning of every command: one arm per constructor of Instr, each a direct call. -/

namespace Sys2Proof.Machine

def exec (i : Instr) (s : State) : Host.Outcome State Fault Refusal :=
  match i with
  | .sInit => Sys2Proof.Machine.execSInit s
  | .sAdd1 x => Sys2Proof.Machine.execSAdd1 x s
  | .sAddv v => Sys2Proof.Machine.execSAddv v s
  | .sSqnorm v => Sys2Proof.Machine.execSSqnorm v s
  | .sDot ab => Sys2Proof.Machine.execSDot ab s
  | .sAddacc x => Sys2Proof.Machine.execSAddacc x s
  | .sRound => Sys2Proof.Machine.execSRound s
  | .sPropagate => Sys2Proof.Machine.execSPropagate s
  | .sChunks => Sys2Proof.Machine.execSChunks s
  | .sStore => Sys2Proof.Machine.execSStore s
  | .sLoad x => Sys2Proof.Machine.execSLoad x s
  | .lInit => Sys2Proof.Machine.execLInit s
  | .lAdd1 x => Sys2Proof.Machine.execLAdd1 x s
  | .lAddv v => Sys2Proof.Machine.execLAddv v s
  | .lSqnorm v => Sys2Proof.Machine.execLSqnorm v s
  | .lDot ab => Sys2Proof.Machine.execLDot ab s
  | .lAddsmall x => Sys2Proof.Machine.execLAddsmall x s
  | .lRound => Sys2Proof.Machine.execLRound s
  | .lRoundToSmall => Sys2Proof.Machine.execLRoundToSmall s
  | .lChunks => Sys2Proof.Machine.execLChunks s

end Sys2Proof.Machine
end

