-- ==== Sys2Proof/Machine/Step.lean ====
section
/-! DEFINITION. One step of the block: the next command of the stream performed whole, an illegal word answered, or the
block held (R77, R96, R106; entries 1 and 2). -/

namespace Sys2Proof.Machine

/-- The decoding procedure of R106, one turn of its loop. -/
def step (s : State) : Host.Outcome State Fault Refusal :=
  match s.fetch with
  | .command i rest => exec i (s.consume rest)
  | .illegal w rest => .next (s.rejectIllegal w rest)
  | .held => .next s.hold

/-- The state with an instruction, given as opcode_table.json numbers its bits, as the next words of the command
stream, and no command pending (entry 3, entry 21). -/
def State.withFetchWord (s : State) (nbits w : Nat) : State :=
  { s with pending := [], input := tableWords nbits w }

end Sys2Proof.Machine
end

