-- ==== Sys2Proof/Machine/Assembler.lean ====
section
/-! DEFINITION. The assembler of R104 over lines already read: what words a line stands for. The text of a line is read
in Machine/AsmText.lean; the block never sees it (entry 19). -/

namespace Sys2Proof.Machine

/-- A binary64 operand as written: a pattern of 16 digits, or a decimal literal with its sign, digits and power of ten
(R104). -/
inductive Literal where
  | pattern (w : Word)
  | decimal (neg : Bool) (digits : Nat) (exp10 : Int)
  deriving DecidableEq, Repr

/-- The pattern a literal denotes: a decimal literal denotes the binary64 nearest to it, ties to even (R104). -/
def Literal.toWord : Literal → Word
  | .pattern w => w
  | .decimal neg digits (.ofNat k) => roundRatio neg (digits * 10 ^ k * 2 ^ 1075) 1
  | .decimal neg digits (.negSucc k) => roundRatio neg (digits * 2 ^ 1075) (10 ^ (k + 1))

/-- An image as written: c0, ..., c66 ; inf ; nan ; adds (R104). -/
structure ImageText where
  chunks : List Word
  inf    : Word
  nan    : Word
  adds   : Word
  deriving DecidableEq, Repr

/-- The operands of a line, by form (R104). -/
inductive AsmOperands where
  /-- no operand -/
  | none
  /-- x -/
  | value (x : Literal)
  /-- [v0, v1, ...] -/
  | vector (v : List Literal)
  /-- [a0, ...], [b0, ...] -/
  | dot (a b : List Literal)
  /-- an image in braces -/
  | image (x : ImageText)
  deriving DecidableEq, Repr

/-- A line of R104: a command with its operands, or a raw stream word, which the programs of 95_test_vectors.md write
with `.word`. -/
inductive AsmLine where
  | command (mnemonic : String) (operands : AsmOperands)
  | word (w : Word)
  deriving DecidableEq, Repr

/-- The mnemonics of R92 with their command words. -/
def mnemonicMap : List (String × Word) :=
  [ ("S_INIT", 0x01#64), ("S_ADD1", 0x02#64), ("S_ADDV", 0x03#64), ("S_SQNORM", 0x04#64), ("S_DOT", 0x05#64), ("S_ADDACC", 0x06#64),
    ("S_ROUND", 0x07#64), ("S_PROPAGATE", 0x08#64), ("S_CHUNKS", 0x09#64), ("S_STORE", 0x0A#64), ("S_LOAD", 0x0B#64),
    ("L_INIT", 0x11#64), ("L_ADD1", 0x12#64), ("L_ADDV", 0x13#64), ("L_SQNORM", 0x14#64), ("L_DOT", 0x15#64), ("L_ADDSMALL", 0x16#64),
    ("L_ROUND", 0x17#64), ("L_ROUND_TO_SMALL", 0x18#64), ("L_CHUNKS", 0x19#64) ]

/-- The operand words of a line, if its operands have the form the command takes: the two lists of a dot product are
of one length, and an image has 67 chunks (R93, R102, R104). -/
def assembleOperands : OperandShape → AsmOperands → Option (List Word)
  | .none _, .none => some []
  | .pattern _, .value x => some [x.toWord]
  | .vector _, .vector v => some (BitVec.ofNat 64 v.length :: v.map Literal.toWord)
  | .pairs _, .dot a b =>
    if a.length = b.length then
      some (BitVec.ofNat 64 a.length :: interleave ((a.zip b).map fun p => (p.1.toWord, p.2.toWord)))
    else none
  | .image _, .image x => if x.chunks.length = 67 then some (x.chunks ++ [x.inf, x.nan, x.adds]) else none
  | _, _ => none

/-- The stream words of a line; none for a line that R104 does not allow. -/
def assemble : AsmLine → Option (List Word)
  | .word w => some [w]
  | .command m operands =>
    match mnemonicMap.lookup m with
    | none => none
    | some c =>
      match opcodeMap.lookup c with
      | none => none
      | some shape => (assembleOperands shape operands).map (c :: ·)

end Sys2Proof.Machine
end

