-- ==== Sys2Proof/Machine/Instances.lean ====
section
/-! DEFINITION. Several instances side by side (R83, R290), and the pseudo-commands of R105, with which a host carries
an image from one instance to another. An instance alone is `State`, and `step` is its only step. -/

namespace Sys2Proof.Machine

/-- A system: its instances, which share no state (R290). -/
abbrev System := List State

/-- NINST instances, each at reset (R290, R300). -/
def System.reset : System := List.replicate Config.ninst State.reset

/-- One instance takes a step; the others are as they were (R290). -/
def System.stepAt (sys : System) (k : Nat) : Host.Outcome System Fault Refusal :=
  match sys[k]? with
  | none => .next sys
  | some s =>
    match step s with
    | .next t => .next (sys.set k t)
    | .fault r => .fault r
    | .refused r => .refused r

/-- The host sends words to one instance (R290, R310). -/
def System.hostSendAt (sys : System) (k : Nat) (ws : List Word) : System := sys.modify k fun s => s.hostSend ws

/-- The pseudo-commands with a second instance (R105, R256). -/
inductive Pseudo where
  | lAddlarge
  | sAddl
  | sCopy
  deriving DecidableEq, Repr

/-- The command the right operand's instance performs first (R105). -/
def Pseudo.query : Pseudo → Instr
  | .lAddlarge => .lRoundToSmall
  | .sAddl => .lRoundToSmall
  | .sCopy => .sStore

/-- The command this instance performs on the image answered (R105). -/
def Pseudo.deliver : Pseudo → Image → Instr
  | .lAddlarge, x => .lAddsmall x
  | .sAddl, x => .sAddacc x
  | .sCopy, x => .sLoad x

/-- The image among the response words that a command added to the stream, after its status word (R83, R95). -/
def answeredImage (before after : State) : Image :=
  imageOfWords (after.output.drop (before.output.length + 1))

/-- A pseudo-command: the right operand's instance answers an image, the host carries it, this instance takes it.
The first state of the pair is the right operand's (R105). -/
def runPseudo (p : Pseudo) (right here : State) : Host.Outcome (State × State) Fault Refusal :=
  match exec p.query right with
  | .next right' =>
    match exec (p.deliver (answeredImage right right')) here with
    | .next here' => .next (right', here')
    | .fault r => .fault r
    | .refused r => .refused r
  | .fault r => .fault r
  | .refused r => .refused r

end Sys2Proof.Machine
end

