-- ==== Sys2Proof/Safety.lean ====
section
/-! DEFINITION. The terms claims are stated in: the invariant of the block, the exact value of accumulators and
patterns in units of 2^-1075 (R19), the room for further adds (R151), and what commands of one unit leave alone (R30).
A run is safe when every step answers a next state, which every run is (R280, R286), and the invariant holds. -/

namespace Sys2Proof.Machine

/-! ### Values -/

/-- The pattern is a finite binary64 (R22). -/
def isFinite (u : Word) : Bool := bexp u != 0x7FF#11

/-- The exact value of a finite pattern in units of 2^-1075: (-1)^neg mantissa 2^exp (R120). -/
def unitsOf (u : Word) : Int := if signBit u then -(finiteMagnitude u : Int) else (finiteMagnitude u : Int)

/-- The sum of the magnitudes in a bin, in units of 2^-1075: its fraction sum, and for normal values one implicit 2^52
for each value held, at the weight of the bin's exponent (R237, R238, R240). -/
def binMagnitude (ix : BinIndex) (b : Bin) : Int :=
  (((fractionSum ix b).toNat : Int) + (if binExp ix = 0 then 0 else (4096 - b.count.toInt) * 2 ^ 52)) *
    2 ^ (if binExp ix = 0 then 1 else binExp ix)

/-- The exact sum of the values in a bin; a bin that is not live holds none (R40, R41, R241). -/
def binValue (ix : BinIndex) (b : Bin) : Int :=
  if b.live then (if binNeg ix then -(binMagnitude ix b) else binMagnitude ix b) else 0

/-- val(L) in units of 2^-1075: val(L.sacc) and the values in the bins (R44). -/
def Large.value (l : Large) : Int :=
  l.sacc.value + ((List.range 4096).map fun n => binValue (BitVec.ofNat 12 n) (l.bin (BitVec.ofNat 12 n))).sum

/-! ### Bounds -/

/-- The chunks leave room for the adds that the counter still allows: after a propagation each is at most 2^32 in
magnitude, and each add since has changed it by less than 2^52 (R151). -/
def Small.Bounded (a : Small) : Prop :=
  ∀ i < 67, |(a.get i).toInt| ≤ 2 ^ 32 + (2047 - a.adds.toInt) * 2 ^ 52

/-- The form a propagation leaves, with uppermost index u (R37, R160). -/
def Small.Normalized (a : Small) (u : Nat) : Prop :=
  u ≤ 66 ∧ (∀ i < 67, u < i → a.get i = 0#64) ∧ (∀ i < u, 0 ≤ (a.get i).toInt ∧ (a.get i).toInt < 2 ^ 32) ∧
    -(2 ^ 32) ≤ (a.get u).toInt ∧ (a.get u).toInt < 2 ^ 32 ∧ (a.get u = minusOne → u = 0)

/-- Every chunk takes a carry without a wrap: a carry is at most 2^31 in magnitude (R156). -/
def Small.NoWrap (a : Small) : Prop := ∀ i < 67, |(a.get i).toInt| < 2 ^ 63 - 2 ^ 32

/-- Chunks that a propagation carries without a wrap and without a carry out of chunk 66 (R156, R159). -/
def Small.Carriable (a : Small) : Prop := a.NoWrap ∧ |(a.get 66).toInt| < 2 ^ 31

/-- Bounded chunks with the counter in [0, 2047], as a run leaves them (R35, R151). -/
def Small.Roomy (a : Small) : Prop := a.Bounded ∧ 0 ≤ a.adds.toInt ∧ a.adds.toInt ≤ 2047

/-- Chunk 0 is even (R38). -/
def Small.EvenBottom (a : Small) : Prop := (a.get 0).getLsbD 0 = false

/-! ### The invariant -/

/-- What every command keeps of the large accumulator. -/
structure Large.Inv (l : Large) : Prop where
  /-- the bins are in canonical form (entry 9) -/
  canonical : binsWf l.bins = true
  /-- every counter is in [-1, 4096] (R41) -/
  countRange : ∀ ix, -1 ≤ (l.bin ix).count.toInt ∧ (l.bin ix).count.toInt ≤ 4096
  /-- a bin not in use has chunk 0 (R40) -/
  idleChunk : ∀ ix, (l.bin ix).live = false → (l.bin ix).chunk = 0#64
  /-- the special bins are never in use (R43) -/
  specialIdle : ∀ ix, binSpecial ix = true → l.bin ix = Bin.unused
  /-- a bin's used bit is set when and only when it is live (R42) -/
  usedLive : ∀ ix, l.usedBit ix = (l.bin ix).live
  /-- a bit of used_used is set when and only when its word is nonzero (R42) -/
  summary : ∀ k < 64, l.usedUsed.getLsbD k = (l.used[k]?.getD 0#64 != 0#64)
  /-- the fraction sum of a live bin is that of its 4096 - count values, so it never wraps (R234, R237) -/
  fractions : ∀ ix, (l.bin ix).live = true →
    ((fractionSum ix (l.bin ix)).toNat : Int) ≤ (4096 - (l.bin ix).count.toInt) * (2 ^ 52 - 1)
  /-- the counter of L.sacc is in [0, 2047] (R35) -/
  addsRange : addsInRange l.sacc.adds = true
  /-- the NaN field of L.sacc is 0 or has its sign clear and a payload (R34) -/
  nanForm : l.sacc.nan = 0#64 ∨ (signBit l.sacc.nan = false ∧ frac l.sacc.nan ≠ 0#52)

/-- What every step keeps of the block: the counter of S in [0, 2047] (R35), the invariant of L, and a pending command
that is one not yet whole (R46). -/
structure State.Inv (s : State) : Prop where
  addsRange : addsInRange s.small.adds = true
  large : s.large.Inv
  pendingHeld : decode s.pending = .held

/-! ### The end of a run -/

/-- The run has ended: every word has been consumed and no command is pending (R311). -/
def State.Ended (s : State) : Prop := s.pending = [] ∧ s.input = []

/-- The run has ended held: its stream ended inside a command, which has no response (R96, R311). -/
def State.EndedHeld (s : State) : Prop := s.pending ≠ [] ∧ s.input = [] ∧ decode s.pending = .held

/-! ### What a command leaves alone -/

/-- Only S and the response stream may differ. -/
def OnlySmall (s t : State) : Prop := t.large = s.large ∧ t.pending = s.pending ∧ t.input = s.input

/-- Only L and the response stream may differ. -/
def OnlyLarge (s t : State) : Prop := t.small = s.small ∧ t.pending = s.pending ∧ t.input = s.input

/-- Only the response stream may differ. -/
def OnlyOutput (s t : State) : Prop := OnlySmall s t ∧ t.small = s.small

end Sys2Proof.Machine

namespace Sys2Proof

/-- The command is one of the L unit: bit 4 of its opcode is set (R92). -/
def Instr.unitL (i : Instr) : Bool := ((encode i).headD 0#64).getLsbD 4

/-- The opcode of a command: bits [7:0] of its command word (R91). -/
def Instr.opcode (i : Instr) : BitVec 8 := ((encode i).headD 0#64).setWidth 8

/-- How many result words a completed command sends (R95). -/
def Instr.resultCount : Instr → Nat
  | .sRound | .lRound | .sPropagate | .sChunks | .lChunks => 1
  | .sStore | .lRoundToSmall => 70
  | .sInit | .sAdd1 _ | .sAddv _ | .sSqnorm _ | .sDot _ | .sAddacc _ | .sLoad _ => 0
  | .lInit | .lAdd1 _ | .lAddv _ | .lSqnorm _ | .lDot _ | .lAddsmall _ => 0

/-- The image operand of a command, if it has one, has an even chunk[0] (R38). -/
def Instr.EvenImage : Instr → Prop
  | .sAddacc x => x.chunk[0].getLsbD 0 = false
  | .sLoad x => x.chunk[0].getLsbD 0 = false
  | .lAddsmall x => x.chunk[0].getLsbD 0 = false
  | _ => True

/-- The word is one of the twenty legal command words: RSVD is 0 and OPC is in 0x01 to 0x0B or in 0x11 to 0x19
(R91, R92). -/
def LegalCommandWord (w : Word) : Prop :=
  w.toNat / 256 = 0 ∧ ((0x01 ≤ w.toNat ∧ w.toNat ≤ 0x0B) ∨ (0x11 ≤ w.toNat ∧ w.toNat ≤ 0x19))

end Sys2Proof

namespace Sys2Proof.Machine

/-! ### Numbers that statements name -/

/-- The exponent of a finite pattern with that of a subnormal set to 1 (R120). -/
def effExp (u : Word) : Nat := if (bexp u).toNat = 0 then 1 else (bexp u).toNat

/-- The mantissa of a finite pattern with the implicit bit of a normal one (R120). -/
def effMant (u : Word) : Nat := if (bexp u).toNat = 0 then (frac u).toNat else (frac u).toNat + 2 ^ 52

/-- A signed amount as a chunk. -/
def signedWord (neg : Bool) (n : Nat) : Word := BitVec.ofInt 64 (if neg then -(n : Int) else (n : Int))

/-- The counter after one add: propagation first sets it to 2046 when it is 0 (R152, R166, R242). -/
def addsAfterOne (n : BitVec 32) : BitVec 32 := if n = 0#32 then 2045#32 else n - 1#32

/-- The magnitude, in units of 2^-1075, from which a sum rounds to an infinity: 2^1024 - 2^970 (R208). -/
def overflowUnits : Int := (2 ^ 1024 - 2 ^ 970) * 2 ^ 1075

/-- r is the correctly rounded binary64 of x / d, both in units of 2^-1075: an infinity of the sign `neg` from the
overflow threshold up; below it a finite pattern of that sign, nearest to x / d among the finite patterns, with an even
fraction where another value is as near (R205, R208, R209). -/
def CorrectlyRounded (neg : Bool) (x d : Int) (r : Word) : Prop :=
  signBit r = neg ∧
  (overflowUnits * d ≤ |x| → r = if neg then negInf else posInf) ∧
  (|x| < overflowUnits * d →
    isFinite r = true ∧
    (∀ y, isFinite y = true → |x - unitsOf r * d| ≤ |x - unitsOf y * d|) ∧
    (∀ y, isFinite y = true → unitsOf y ≠ unitsOf r → |x - unitsOf r * d| = |x - unitsOf y * d| →
      (frac r).getLsbD 0 = false))

/-- The chunks of t are those of s with the three parts of a magnitude m added, or subtracted, at chunks h, h + 1 and
h + 2: its bits 31 to 0, 63 to 32, and 64 up (R241). -/
def ThreeChunksAdded (s t : Small) (neg : Bool) (h m : Nat) : Prop :=
  t.get h = s.get h + signedWord neg (m % 2 ^ 32) ∧
  t.get (h + 1) = s.get (h + 1) + signedWord neg (m / 2 ^ 32 % 2 ^ 32) ∧
  t.get (h + 2) = s.get (h + 2) + signedWord neg (m / 2 ^ 64) ∧
  ∀ i, i ≠ h → i ≠ h + 1 → i ≠ h + 2 → t.get i = s.get i

end Sys2Proof.Machine

namespace Sys2Proof

/-! ### What an assembled line says -/

/-- The mnemonic of a command (R92). -/
def Instr.mnemonic : Instr → String
  | .sInit => "S_INIT"
  | .sAdd1 _ => "S_ADD1"
  | .sAddv _ => "S_ADDV"
  | .sSqnorm _ => "S_SQNORM"
  | .sDot _ => "S_DOT"
  | .sAddacc _ => "S_ADDACC"
  | .sRound => "S_ROUND"
  | .sPropagate => "S_PROPAGATE"
  | .sChunks => "S_CHUNKS"
  | .sStore => "S_STORE"
  | .sLoad _ => "S_LOAD"
  | .lInit => "L_INIT"
  | .lAdd1 _ => "L_ADD1"
  | .lAddv _ => "L_ADDV"
  | .lSqnorm _ => "L_SQNORM"
  | .lDot _ => "L_DOT"
  | .lAddsmall _ => "L_ADDSMALL"
  | .lRound => "L_ROUND"
  | .lRoundToSmall => "L_ROUND_TO_SMALL"
  | .lChunks => "L_CHUNKS"

open Machine in
/-- The elements are the written literals, in order (R104). -/
def elementsAre (v : List Word) : AsmOperands → Prop
  | .vector ls => v = ls.map Literal.toWord
  | _ => False

open Machine in
/-- The pairs are the literals of the two written lists, which are of one length (R102, R104). -/
def pairsAre (ab : List (Word × Word)) : AsmOperands → Prop
  | .dot a b => a.length = b.length ∧ ab.map Prod.fst = a.map Literal.toWord ∧ ab.map Prod.snd = b.map Literal.toWord
  | _ => False

open Machine in
/-- The image is the written one, the last word of which holds the adds field and the pad (R72, R104). -/
def imageIs (x : Image) : AsmOperands → Prop
  | .image t => x.chunk.toList = t.chunks ∧ x.inf = t.inf ∧ x.nan = t.nan ∧
      x.adds.toNat + 2 ^ 32 * x.pad.toNat = t.adds.toNat
  | _ => False

open Machine in
/-- The operands of a command are those written (R104). -/
def Instr.operandsAre : Instr → AsmOperands → Prop
  | .sAdd1 x, ops => ∃ l, ops = .value l ∧ x = l.toWord
  | .lAdd1 x, ops => ∃ l, ops = .value l ∧ x = l.toWord
  | .sAddv v, ops => elementsAre v ops
  | .sSqnorm v, ops => elementsAre v ops
  | .lAddv v, ops => elementsAre v ops
  | .lSqnorm v, ops => elementsAre v ops
  | .sDot ab, ops => pairsAre ab ops
  | .lDot ab, ops => pairsAre ab ops
  | .sAddacc x, ops => imageIs x ops
  | .sLoad x, ops => imageIs x ops
  | .lAddsmall x, ops => imageIs x ops
  | .sInit, ops => ops = .none
  | .sRound, ops => ops = .none
  | .sPropagate, ops => ops = .none
  | .sChunks, ops => ops = .none
  | .sStore, ops => ops = .none
  | .lInit, ops => ops = .none
  | .lRound, ops => ops = .none
  | .lRoundToSmall, ops => ops = .none
  | .lChunks, ops => ops = .none

end Sys2Proof
end

