-- ==== Sys2Proof/Certificates/Slice0/Obligations.lean ====
section
/-! DEFINITION. The statements for the provers, each a proposition about the model; OBLIGATIONS.json says of each what
it states and which rules of spec/ it comes from. -/

open Sys2Proof Sys2Proof.Machine

/-! ### The command encoding -/

/-- Decoding the words of a command gives the command back, whatever follows them (R92, R93, R101). -/
def Obligations.DecodeOfEncode : Prop :=
  ∀ (i : Instr) (rest : List Word), i.wellFormed = true → decode (encode i ++ rest) = .command i rest

/-- A command is read from its own words only: what the decoder takes are exactly the words the encoder writes, so no
word and no bit of it is dropped (R90, R93). -/
def Obligations.DecodeReadsItsEncoding : Prop :=
  ∀ (ws : List Word) (i : Instr) (rest : List Word),
    decode ws = .command i rest → i.wellFormed = true ∧ ws = encode i ++ rest

/-- Words written out from the tables of R92 and R93 decode to the commands they stand for. -/
def Obligations.WordsOfTheTablesDecode : Prop :=
  decode [0x01] = .command .sInit [] ∧
  decode [0x02, 0x3FF0000000000000, 0x07] = .command (.sAdd1 0x3FF0000000000000) [0x07] ∧
  decode [0x03, 2, 0x3FF0000000000000, 0xBFF0000000000000] =
    .command (.sAddv [0x3FF0000000000000, 0xBFF0000000000000]) [] ∧
  decode [0x05, 1, 0x4000000000000000, 0xBFE0000000000000, 0x08] =
    .command (.sDot [(0x4000000000000000, 0xBFE0000000000000)]) [0x08] ∧
  decode [0x14, 0] = .command (.lSqnorm []) [] ∧
  decode [0x18] = .command .lRoundToSmall [] ∧
  decode (0x0B :: List.replicate 67 5 ++ [6, 7, 0xABCD000000000007]) =
    .command (.sLoad { chunk := Vector.replicate 67 5, inf := 6, nan := 7, adds := 7, pad := 0xABCD0000 }) []

/-! ### The command and response streams -/

/-- When the words that have arrived begin with a well-formed command, the step is that command's meaning on the state
with the command's words received (R77, R106; entry 1). -/
def Obligations.StepRunsTheDecodedCommand : Prop :=
  ∀ (s : State) (i : Instr) (rest : List Word), i.wellFormed = true → s.pending ++ s.input = encode i ++ rest →
    step s = exec i { s with pending := [], input := rest }

/-- A word that is no legal command word is answered by the status word 0x100 + its low 8 bits; nothing else changes,
and the next word is the next command word. A legal command word is never answered so (R282). -/
def Obligations.IllegalWordIsRejected : Prop :=
  (∀ (s : State) (w : Word) (rest : List Word), s.pending ++ s.input = w :: rest → ¬ LegalCommandWord w →
    step s = .next { s with
      pending := [], input := rest, output := s.output ++ [BitVec.ofNat 64 (0x100 + w.toNat % 256)] }) ∧
  (∀ (w w' : Word) (ws rest : List Word), LegalCommandWord w → decode (w :: ws) ≠ .illegal w' rest)

/-- While operand words of a command are missing the block sends nothing, changes nothing of S or L and keeps the words
in pending; with no further word it stays so for ever (R96). That its steps then answer that same state is the model's
reading (entry 2). -/
def Obligations.IncompleteCommandIsHeld : Prop :=
  ∀ (s : State) (i : Instr) (k : Nat), i.wellFormed = true → k < (encode i).length →
    s.pending ++ s.input = (encode i).take k →
    step s = .next { s with pending := (encode i).take k, input := [] } ∧
    step { s with pending := (encode i).take k, input := [] } =
      .next { s with pending := (encode i).take k, input := [] }

/-- A step never stops: every state has a next one (R280, R286, R288). That a held block's step answers its own state
again, where the spec calls it stuck, is the model's reading (entry 2). -/
def Obligations.StepAlwaysAnswersNext : Prop :=
  ∀ s : State, ∃ t, step s = .next t

/-- What the host sends later does not change what a step does with a command or an illegal word that has arrived
(R77, R80, R308, R309). -/
def Obligations.LaterWordsDoNotMatter : Prop :=
  ∀ (s t : State) (ws : List Word), decode (s.pending ++ s.input) ≠ .held → step s = .next t →
    step { s with input := s.input ++ ws } = .next { t with input := t.input ++ ws }

/-- Every command answers one response at the end of the response stream: the status word of its opcode, then, if it is
accepted, as many result words as R95 gives it. Only S_LOAD can be rejected, and a rejected command changes nothing
else (R90, R94, R95, R280, R281, R284). -/
def Obligations.EveryCommandAnswersOnce : Prop :=
  ∀ (i : Instr) (s : State), ∃ (t : State) (err : ErrorCode) (results : List Word),
    exec i s = .next t ∧ t.pending = s.pending ∧ t.input = s.input ∧
    t.output = s.output ++ statusWord i.opcode err :: results ∧
    (err = .ok → results.length = i.resultCount) ∧
    (err ≠ .ok → err = .badImage ∧ results = [] ∧ t.small = s.small ∧ t.large = s.large) ∧
    (err ≠ .ok ↔ ∃ x, i = .sLoad x ∧ ¬(0 ≤ x.adds.toInt ∧ x.adds.toInt ≤ 2047))

/-- The status word holds OPC in bits [7:0], ERR in bits [15:8] and zeros above, ERR being 0 for OK, 1 for ILLEGAL and
2 for BAD_IMAGE, and respond sends it (R94). -/
def Obligations.StatusWordLayout : Prop :=
  ∀ (s : State) (opc : BitVec 8) (err : ErrorCode),
    (s.respond opc err).output = s.output ++ [statusWord opc err] ∧
    (statusWord opc err).toNat =
      opc.toNat + 256 * (match err with | .ok => 0 | .illegal => 1 | .badImage => 2)

/-- A word as bytes is little-endian, 8 bytes, which give the word back; so the image as bytes is 560 bytes, of which
bytes 552 to 555 are the adds field, least significant first, and bytes 556 to 559 the zero pad (R71, R72, R75). -/
def Obligations.BytesAreLittleEndian : Prop :=
  (∀ w : Word, (wordBytes w).length = 8 ∧
    (∀ j < 8, (wordBytes w)[j]? = some (BitVec.ofNat 8 (w.toNat / 2 ^ (8 * j)))) ∧
    wordOfBytes (wordBytes w) = w) ∧
  (∀ a : Small, (bytesOfWords (imageSend a)).length = 560 ∧
    ∀ j < 8, (bytesOfWords (imageSend a))[552 + j]? = some (BitVec.ofNat 8 (a.adds.toNat / 2 ^ (8 * j))))

/-! ### Reset and the invariant -/

/-- Every piece of state at reset (R301). -/
def Obligations.ResetValues : Prop :=
  (∀ i < 67, State.reset.small.get i = 0#64) ∧ State.reset.small.inf = 0#64 ∧ State.reset.small.nan = 0#64 ∧
  State.reset.small.adds.toInt = 2047 ∧
  (∀ ix, (State.reset.large.bin ix).chunk = 0#64 ∧ (State.reset.large.bin ix).count.toInt = -1) ∧
  (∀ k < 64, State.reset.large.used[k]? = some 0#64) ∧ State.reset.large.usedUsed = 0#64 ∧
  (∀ i < 67, State.reset.large.sacc.get i = 0#64) ∧ State.reset.large.sacc.inf = 0#64 ∧
  State.reset.large.sacc.nan = 0#64 ∧ State.reset.large.sacc.adds.toInt = 2047 ∧
  State.reset.pending = [] ∧ State.reset.input = [] ∧ State.reset.output = []

/-- S_INIT writes the reset values of S and L_INIT those of L; neither touches the other unit or the command stream,
each answers its status word, and after reset they change nothing else (R302). -/
def Obligations.InitCommandsResetOneUnit : Prop :=
  (∀ s : State, exec .sInit s =
    .next { s with small := State.reset.small, output := s.output ++ [0x01#64] }) ∧
  (∀ s : State, exec .lInit s =
    .next { s with large := State.reset.large, output := s.output ++ [0x11#64] }) ∧
  exec .sInit State.reset = .next { State.reset with output := [0x01#64] } ∧
  exec .lInit State.reset = .next { State.reset with output := [0x11#64] }

/-- The invariant holds at reset. -/
def Obligations.ResetMeetsTheInvariant : Prop := State.reset.Inv

/-- Every step keeps the invariant: the counters of S and L.sacc in [0, 2047], every bin counter in [-1, 4096], idle
and special bins as they should be, the bit-sets in step with the bins, the fraction sums within their bound, the NaN
field of L.sacc in its form, and a pending command one that is not yet whole (R34, R35, R40 to R43, R46, R234). That
the bins are held in canonical form is the model's choice (entry 9). -/
def Obligations.StepKeepsTheInvariant : Prop :=
  ∀ s t : State, s.Inv → step s = .next t → t.Inv

/-- Every command whose image operand, if any, has an even chunk[0] keeps chunk[0] of S and of L.sacc even (R38). -/
def Obligations.EvenBottomChunkIsKept : Prop :=
  ∀ (i : Instr) (s t : State), i.EvenImage → exec i s = .next t →
    s.small.EvenBottom → s.large.sacc.EvenBottom → t.small.EvenBottom ∧ t.large.sacc.EvenBottom

/-- S and L are independent: a command of one leaves the other alone, and neither the state it leaves in its own unit
nor its response depends on the other unit (R30, R44). -/
def Obligations.UnitsAreIndependent : Prop :=
  ∀ (i : Instr) (s s' t t' : State), exec i s = .next t → exec i s' = .next t' → s.output = s'.output →
    (i.unitL = false → t.large = s.large ∧ (s.small = s'.small → t.small = t'.small ∧ t.output = t'.output)) ∧
    (i.unitL = true → t.small = s.small ∧ (s.large = s'.large → t.large = t'.large ∧ t.output = t'.output))

/-! ### Patterns, flags and products -/

/-- The bin index of a pattern is its top 12 bits; bit 11 is the sign, the low 11 bits the biased exponent, and these
are all ones exactly for infinities and NaNs (R122). -/
def Obligations.BinIndexOfPattern : Prop :=
  ∀ u : Word, (binIndex u).toNat = u.toNat / 2 ^ 52 ∧ binNeg (binIndex u) = signBit u ∧
    binExp (binIndex u) = (bexp u).toNat ∧
    ((binIndex u &&& 0x7FF#12) = 0x7FF#12 ↔ (isInf u = true ∨ isNaN u = true))

/-- The Inf path: a zero field adopts the value, an equal value changes nothing, any other value stores
P_INF_CANCEL_NAN, a NaN; so a field once set is never cleared. Nothing but Inf is written, and rounding answers the field
where it is a NaN and the NaN field is 0 (R127; the NaN for a value that is no infinity is the model's reading,
entry 6). -/
def Obligations.InfPathOfHandler : Prop :=
  ∀ (a : Small) (v : Word), v.toNat % 2 ^ 52 = 0 →
    ((addInfNaN a v).chunk = a.chunk ∧ (addInfNaN a v).nan = a.nan ∧ (addInfNaN a v).adds = a.adds) ∧
    (a.inf = 0#64 → (addInfNaN a v).inf = v) ∧
    (a.inf = v → addInfNaN a v = a) ∧
    (a.inf ≠ 0#64 → a.inf ≠ v → (addInfNaN a v).inf = infCancelNaN v ∧ isNaN (addInfNaN a v).inf = true) ∧
    (a.inf ≠ 0#64 → (addInfNaN a v).inf ≠ 0#64) ∧
    (a.nan = 0#64 → isNaN (addInfNaN a v).inf = true → (roundSmall (addInfNaN a v)).2 = (addInfNaN a v).inf)

/-- The NaN path: a value whose payload is at least the field's replaces the field, its sign cleared; a smaller one
changes nothing; an equal NaN payload rewrites the same pattern, and a zero field always loses; so the field is not 0
afterwards, and nothing but NaN is written (R128). -/
def Obligations.NaNPathOfHandler : Prop :=
  ∀ (a : Small) (v : Word), v.toNat % 2 ^ 52 ≠ 0 →
    ((addInfNaN a v).chunk = a.chunk ∧ (addInfNaN a v).inf = a.inf ∧ (addInfNaN a v).adds = a.adds) ∧
    (a.nan.toNat % 2 ^ 52 ≤ v.toNat % 2 ^ 52 → (addInfNaN a v).nan.toNat = v.toNat % 2 ^ 63) ∧
    (v.toNat % 2 ^ 52 < a.nan.toNat % 2 ^ 52 → addInfNaN a v = a) ∧
    (isNaN v = true → isNaN a.nan = true → signBit a.nan = false → frac v = frac a.nan → addInfNaN a v = a) ∧
    (a.nan = 0#64 → (addInfNaN a v).nan.toNat = v.toNat % 2 ^ 63) ∧
    (addInfNaN a v).nan ≠ 0#64

/-- After any sequence of infinities and NaNs passed to the handler from reset, NaN is 0 or the sign-cleared pattern of
a largest payload passed, whatever the order; and Inf is 0, the one infinity passed, or, where both were passed, the
P_INF_CANCEL_NAN of one of the two, a NaN, which does not depend on the order where the parameter gives one value for
both (R130). -/
def Obligations.FlagsDoNotDependOnOrder : Prop :=
  ∀ vs : List Word, (∀ v ∈ vs, isInf v = true ∨ isNaN v = true) →
    ((∀ v ∈ vs, isNaN v = false) → (vs.foldl addInfNaN Small.reset).nan = 0#64) ∧
    ((∃ v ∈ vs, isNaN v = true) → ∃ v ∈ vs, isNaN v = true ∧
      (vs.foldl addInfNaN Small.reset).nan = 0x7FF#12 ++ frac v ∧
      ∀ w ∈ vs, isNaN w = true → (frac w).toNat ≤ (frac v).toNat) ∧
    (posInf ∉ vs → negInf ∉ vs → (vs.foldl addInfNaN Small.reset).inf = 0#64) ∧
    (posInf ∈ vs → negInf ∉ vs → (vs.foldl addInfNaN Small.reset).inf = posInf) ∧
    (posInf ∉ vs → negInf ∈ vs → (vs.foldl addInfNaN Small.reset).inf = negInf) ∧
    (posInf ∈ vs → negInf ∈ vs → isNaN (vs.foldl addInfNaN Small.reset).inf = true ∧
      ((vs.foldl addInfNaN Small.reset).inf = infCancelNaN posInf ∨
        (vs.foldl addInfNaN Small.reset).inf = infCancelNaN negInf)) ∧
    ∀ ws : List Word, vs.Perm ws →
      (ws.foldl addInfNaN Small.reset).nan = (vs.foldl addInfNaN Small.reset).nan ∧
      (infCancelNaN posInf = infCancelNaN negInf →
        (ws.foldl addInfNaN Small.reset).inf = (vs.foldl addInfNaN Small.reset).inf)

/-- The product of two patterns: P_MUL_NAN, a NaN, where an operand is a NaN or an infinity meets a zero; an infinity
of the product's sign where an operand is an infinity otherwise; and the correctly rounded exact product of finite
operands (R131). -/
def Obligations.ProductIsCorrectlyRounded : Prop :=
  ∀ a b : Word,
    ((isNaN a = true ∨ isNaN b = true ∨ (isInf a = true ∧ isZero b = true) ∨ (isZero a = true ∧ isInf b = true)) →
      fmul64 a b = mulNaN a b ∧ isNaN (fmul64 a b) = true) ∧
    (isNaN a = false → isNaN b = false →
      ((isInf a = true ∧ isZero b = false) ∨ (isInf b = true ∧ isZero a = false)) →
      fmul64 a b = if signBit a = signBit b then posInf else negInf) ∧
    (isFinite a = true → isFinite b = true →
      CorrectlyRounded (signBit a != signBit b) (unitsOf a * unitsOf b) (2 ^ 1075) (fmul64 a b))

/-- A square is negative only where it is a NaN; a zero times a finite value is the zero of the product's sign, which an
add treats as zero; a product whose exact magnitude is at least 2^1024 - 2^970 is an infinity, which an add treats as
one (R132). -/
def Obligations.ProductCorners : Prop :=
  (∀ v : Word, isNaN (fmul64 v v) = false → signBit (fmul64 v v) = false) ∧
  (∀ z f : Word, isZero z = true → isFinite f = true →
    fmul64 z f = (if signBit z = signBit f then 0#64 else signMask) ∧ (decompose (fmul64 z f)).kind = .zero) ∧
  (∀ a b : Word, isFinite a = true → isFinite b = true → overflowUnits * 2 ^ 1075 ≤ |unitsOf a * unitsOf b| →
    isInf (fmul64 a b) = true ∧ (decompose (fmul64 a b)).kind = .infNaN)

/-! ### Rounding -/

/-- RNE64 of an exact value is the correctly rounded binary64: nearest, ties to even, an infinity from the threshold
up, the sign of the value (R205, R208). -/
def Obligations.RoundingIsCorrect : Prop :=
  ∀ n : Int, CorrectlyRounded (decide (n < 0)) n 1 (rne64 n)

/-- An exact zero rounds to +0.0; a nonzero value rounds to a zero only when it is half the smallest subnormal in
magnitude, and the zero then has the value's sign (R206). -/
def Obligations.WhenAValueRoundsToZero : Prop :=
  rne64 0 = 0#64 ∧ (∀ n : Int, n ≠ 0 → (isZero (rne64 n) = true ↔ |n| = 1)) ∧ rne64 1 = 0#64 ∧ rne64 (-1) = signMask

/-- S_ROUND answers the NaN field, else the Inf field, with S unchanged; else it propagates and answers the NaN field if
the propagation set it; else the correctly rounded value, which is that of the state before wherever the chunks leave
the room that a run leaves them and no propagation overflows; none does where each chunk takes its carry without a wrap
and chunk 66 is below 2^31 in magnitude (R151, R200 to R205, R213). -/
def Obligations.SRoundAnswers : Prop :=
  ∀ s : State, ∃ (t : State) (r : Word), exec .sRound s = .next t ∧ OnlySmall s t ∧
    t.output = s.output ++ [0x07#64, r] ∧ t.small.inf = s.small.inf ∧
    (s.small.nan ≠ 0#64 → t.small = s.small ∧ r = s.small.nan) ∧
    (s.small.nan = 0#64 → s.small.inf ≠ 0#64 → t.small = s.small ∧ r = s.small.inf) ∧
    (s.small.nan = 0#64 → s.small.inf = 0#64 → t.small = (carryPropagate s.small).1 ∧ t.small.adds = 2046#32 ∧
      (t.small.nan ≠ 0#64 → r = t.small.nan) ∧ (t.small.nan = 0#64 → r = rne64 t.small.value) ∧
      (s.small.Roomy → t.small.nan = 0#64 → t.small.value = s.small.value ∧ r = rne64 s.small.value) ∧
      (s.small.Carriable → t.small.nan = 0#64 ∧ t.small.value = s.small.value ∧ r = rne64 s.small.value))

/-- S_ROUND twice answers the same pattern both times; the second leaves S as the first left it, which is as it was or
as a propagation leaves it (R214). -/
def Obligations.SRoundIsIdempotent : Prop :=
  ∀ s t u : State, exec .sRound s = .next t → exec .sRound t = .next u →
    (∃ r, t.output = s.output ++ [0x07#64, r] ∧ u.output = t.output ++ [0x07#64, r]) ∧ u.small = t.small ∧
    (t.small = s.small ∨ t.small = (carryPropagate s.small).1)

/-! ### Carry propagation -/

/-- S_PROPAGATE leaves in S what carry propagation gives and answers its index uix, that of the uppermost nonzero chunk:
S is in normalized form with adds = 2046, Inf as it was, and NaN as it was or, by an overflow, 0x7FFFFFFFFFFFFFFF. Where
the chunks have the room that a run leaves them and no overflow shows in NaN, the value is kept
(R156, R157, R160, R170). -/
def Obligations.SPropagateNormalizes : Prop :=
  ∀ s : State, ∃ (t : State) (uix : Nat), exec .sPropagate s = .next t ∧ OnlySmall s t ∧
    t.small = (carryPropagate s.small).1 ∧ uix = (carryPropagate s.small).2 ∧
    t.output = s.output ++ [0x08#64, BitVec.ofNat 64 uix] ∧ t.small.Normalized uix ∧
    (t.small.get uix = 0#64 → uix = 0) ∧ t.small.adds = 2046#32 ∧ t.small.inf = s.small.inf ∧
    (t.small.nan = s.small.nan ∨ t.small.nan = 0x7FFFFFFFFFFFFFFF#64) ∧
    (s.small.Roomy → t.small.nan ≠ 0x7FFFFFFFFFFFFFFF#64 → t.small.value = s.small.value)

/-- A propagation of chunks with the room that a run leaves them keeps the value and the NaN field where no overflow
shows in NaN; and one whose chunks take their carries without a wrap, chunk 66 being below 2^31 in magnitude, always
keeps them (R151, R156, R159, R160). -/
def Obligations.PropagationKeepsTheValue : Prop :=
  ∀ a : Small,
    (a.Roomy → (carryPropagate a).1.nan ≠ 0x7FFFFFFFFFFFFFFF#64 →
      (carryPropagate a).1.value = a.value ∧ (carryPropagate a).1.nan = a.nan) ∧
    (a.Carriable → (carryPropagate a).1.value = a.value ∧ (carryPropagate a).1.nan = a.nan)

/-- A second propagation changes no chunk and no flag, answers the same index and sets adds to 2046 again (R161). -/
def Obligations.PropagationIsIdempotent : Prop :=
  ∀ a : Small, (carryPropagate (carryPropagate a).1).2 = (carryPropagate a).2 ∧
    (carryPropagate (carryPropagate a).1).1 = (carryPropagate a).1 ∧
    (carryPropagate (carryPropagate a).1).1.adds = 2046#32

/-- A propagation whose chunks take their carries without a wrap overflows exactly when chunk 66 with its carry, the
value divided by 2^2112 and rounded down, is outside [-2^32, 2^32). Then the carry out is dropped, chunk 66 and every
other chunk keep their low 32 bits, which are the 32-bit digits of the value, and the NaN field becomes
0x7FFFFFFFFFFFFFFF; otherwise the value and NaN are kept. The same overflow for any chunk 66 that alone is nonzero
(R156, R159). -/
def Obligations.CarryOutOfTheTopChunk : Prop :=
  (∀ a : Small, a.NoWrap →
    (-(2 ^ 32) ≤ a.value / 2 ^ 2112 → a.value / 2 ^ 2112 < 2 ^ 32 →
      (carryPropagate a).1.nan = a.nan ∧ (carryPropagate a).1.value = a.value) ∧
    (a.value / 2 ^ 2112 < -(2 ^ 32) ∨ 2 ^ 32 ≤ a.value / 2 ^ 2112 →
      (carryPropagate a).1.nan = 0x7FFFFFFFFFFFFFFF#64 ∧ (carryPropagate a).1.inf = a.inf ∧
      ∀ i < 67, (carryPropagate a).1.get i = BitVec.ofInt 64 (a.value / 2 ^ (32 * i) % 2 ^ 32))) ∧
  (∀ (a : Small) (i : Nat), (∀ j < 66, a.get j = 0#64) →
    ¬(-(2 ^ 32) ≤ (a.get 66).toInt ∧ (a.get 66).toInt < 2 ^ 32) → i < 67 →
    (carryPropagate a).1.nan = 0x7FFFFFFFFFFFFFFF#64 ∧ (carryPropagate a).1.inf = a.inf ∧
    (carryPropagate a).1.get i = if i = 66 then a.get 66 &&& 0xFFFFFFFF#64 else 0#64)

/-! ### Commands of the S unit -/

/-- S_ADD1 completes on every pattern and state: the counter goes down, after a propagation if it was 0; for a finite
pattern with adds left the two parts of its mantissa are added to, or subtracted from, two chunks, and every other
chunk and the flags stay (R150, R152, R164). -/
def Obligations.SAdd1AddsTwoParts : Prop :=
  ∀ (x : Word) (s : State), ∃ t : State, exec (.sAdd1 x) s = .next t ∧ OnlySmall s t ∧
    t.output = s.output ++ [0x02#64] ∧ t.small.adds = addsAfterOne s.small.adds ∧
    (s.small.adds ≠ 0#32 → isFinite x = true → t.small.inf = s.small.inf ∧ t.small.nan = s.small.nan ∧
      t.small.get (effExp x / 32) =
        s.small.get (effExp x / 32) + signedWord (signBit x) (effMant x * 2 ^ (effExp x % 32) % 2 ^ 32) ∧
      t.small.get (effExp x / 32 + 1) =
        s.small.get (effExp x / 32 + 1) + signedWord (signBit x) (effMant x * 2 ^ (effExp x % 32) / 2 ^ 32) ∧
      ∀ i, i ≠ effExp x / 32 → i ≠ effExp x / 32 + 1 → t.small.get i = s.small.get i)

/-- S_ADD1 of an infinity or a NaN with adds left changes no chunk; it writes only Inf, or only NaN, as the handler
does, and the counter still goes down (R126, R150, R152). -/
def Obligations.SAdd1OfSpecials : Prop :=
  ∀ (x : Word) (s : State), isFinite x = false → s.small.adds ≠ 0#32 → ∃ t : State, exec (.sAdd1 x) s = .next t ∧
    OnlySmall s t ∧ t.output = s.output ++ [0x02#64] ∧ t.small.chunk = s.small.chunk ∧
    t.small.adds = s.small.adds - 1#32 ∧
    (isInf x = true → t.small.nan = s.small.nan ∧
      t.small.inf = if s.small.inf = 0#64 ∨ s.small.inf = x then x else infCancelNaN x) ∧
    (isNaN x = true → t.small.inf = s.small.inf ∧
      t.small.nan = if (frac s.small.nan).toNat ≤ (frac x).toNat then 0x7FF#12 ++ frac x else s.small.nan)

/-- When no add is left, S_ADD1 leaves what S_PROPAGATE followed by it leaves (R152). -/
def Obligations.SAdd1PropagatesFirst : Prop :=
  ∀ (x : Word) (s : State), s.small.adds = 0#32 → ∃ t p q : State,
    exec (.sAdd1 x) s = .next t ∧ exec .sPropagate s = .next p ∧ exec (.sAdd1 x) p = .next q ∧
    t.small = q.small ∧ t.small.adds = 2045#32

/-- S_ADDV, S_SQNORM and S_DOT complete and leave in S what S_ADD1 of each element, square or product in order leaves;
no element leaves S alone (R165, R168, R169). -/
def Obligations.SVectorCommandsAddInOrder : Prop :=
  (∀ (v : List Word) (s : State), ∃ t : State, exec (.sAddv v) s = .next t ∧ OnlySmall s t ∧
    t.output = s.output ++ [0x03#64] ∧ (v = [] → t.small = s.small)) ∧
  (∀ (v : List Word) (x : Word) (s t p q : State), exec (.sAddv (v ++ [x])) s = .next t →
    exec (.sAddv v) s = .next p → exec (.sAdd1 x) p = .next q → t.small = q.small) ∧
  (∀ (v : List Word) (s : State), ∃ t p : State, exec (.sSqnorm v) s = .next t ∧ OnlySmall s t ∧
    t.output = s.output ++ [0x04#64] ∧ exec (.sAddv (v.map fun x => fmul64 x x)) s = .next p ∧ t.small = p.small) ∧
  (∀ (ab : List (Word × Word)) (s : State), ∃ t p : State, exec (.sDot ab) s = .next t ∧ OnlySmall s t ∧
    t.output = s.output ++ [0x05#64] ∧ exec (.sAddv (ab.map fun e => fmul64 e.1 e.2)) s = .next p ∧
    t.small = p.small)

/-- S_ADDACC completes on every image and state; with adds left it adds the image chunk by chunk, passes its nonzero
Inf and NaN fields to the handler in that order, and takes one from the counter; with none left it leaves what
S_PROPAGATE followed by it leaves; the image's adds and pad are not read (R166, R167). -/
def Obligations.SAddaccMergesAnImage : Prop :=
  ∀ (x : Image) (s : State), ∃ t : State, exec (.sAddacc x) s = .next t ∧ OnlySmall s t ∧
    t.output = s.output ++ [0x06#64] ∧ t.small.adds = addsAfterOne s.small.adds ∧
    (s.small.adds ≠ 0#32 → (∀ i (h : i < 67), t.small.get i = s.small.get i + x.chunk[i]) ∧
      ∃ a b : Small, (a = if x.inf = 0#64 then s.small else addInfNaN s.small x.inf) ∧
        (b = if x.nan = 0#64 then a else addInfNaN a x.nan) ∧ t.small.inf = b.inf ∧ t.small.nan = b.nan) ∧
    (s.small.adds = 0#32 → ∃ p q : State, exec .sPropagate s = .next p ∧ exec (.sAddacc x) p = .next q ∧
      t.small = q.small) ∧
    ∀ (n pad : BitVec 32) (u : State), exec (.sAddacc { x with adds := n, pad := pad }) s = .next u → u = t

/-- S_CHUNKS answers the number of nonzero chunks and changes nothing else (R171). -/
def Obligations.SChunksCountsNonzero : Prop :=
  ∀ s : State, exec .sChunks s = .next { s with
    output := s.output ++ [0x09#64, BitVec.ofNat 64 ((Finset.range 67).filter fun i => s.small.get i ≠ 0#64).card] }

/-- S_STORE answers the 70 words of the image of S, in order, and changes nothing else (R73, R172). -/
def Obligations.SStoreSendsTheImage : Prop :=
  ∀ s : State, ∃ ws : List Word, exec .sStore s = .next { s with output := s.output ++ 0x0A#64 :: ws } ∧
    ws.length = 70 ∧ (∀ i < 67, ws[i]? = some (s.small.get i)) ∧ ws[67]? = some s.small.inf ∧
    ws[68]? = some s.small.nan ∧ ws[69]? = some (BitVec.ofNat 64 s.small.adds.toNat)

/-- S_LOAD of an image whose adds field is in [0, 2047] makes S that image, unchecked, and any other is rejected with
BAD_IMAGE and changes nothing (R173, R283). -/
def Obligations.SLoadLoadsOrRejects : Prop :=
  ∀ (x : Image) (s : State),
    (0 ≤ x.adds.toInt → x.adds.toInt ≤ 2047 → ∃ t : State, exec (.sLoad x) s = .next t ∧ OnlySmall s t ∧
      t.output = s.output ++ [0x0B#64] ∧ t.small.chunk = x.chunk ∧ t.small.inf = x.inf ∧ t.small.nan = x.nan ∧
      t.small.adds = x.adds) ∧
    (x.adds.toInt < 0 ∨ 2047 < x.adds.toInt →
      exec (.sLoad x) s = .next { s with output := s.output ++ [0x20B#64] })

/-! ### Exact sums on S -/

/-- Where the counter of S is in [0, 2047] and its chunks leave room for the adds left, S_ADD1 keeps that room, and a
finite pattern changes the value by exactly its own, unless a propagation overflows, which NaN shows
(R151, R152, R174). -/
def Obligations.SAdd1IsExact : Prop :=
  ∀ (x : Word) (s t : State), s.small.Roomy → exec (.sAdd1 x) s = .next t →
    t.small.Roomy ∧ (isFinite x = true → t.small.nan = 0#64 → t.small.value = s.small.value + unitsOf x)

/-- From reset, S_ADDV of finite patterns and then S_ROUND answers the correctly rounded exact sum, where no
propagation overflows (R174). -/
def Obligations.SSumIsCorrectlyRounded : Prop :=
  ∀ (v : List Word) (t u : State), (∀ x ∈ v, isFinite x = true) → exec (.sAddv v) State.reset = .next t →
    exec .sRound t = .next u → u.small.nan = 0#64 →
    u.output = [0x03#64, 0x07#64, rne64 (v.map unitsOf).sum]

/-- A merge of an image without flags whose chunks are all below 2^52 in magnitude, into S by S_ADDACC or into L.sacc by
L_ADDSMALL, where the counter is in [0, 2047] and the chunks leave room for the adds left, keeps that room and adds
exactly the image's value to the value of S, or to val(L), unless a propagation overflows (R162, R166, R251, R304). -/
def Obligations.SmallMergeIsExact : Prop :=
  ∀ (x : Image) (s t : State), (∀ i (h : i < 67), |x.chunk[i].toInt| < 2 ^ 52) → x.inf = 0#64 → x.nan = 0#64 →
    (s.small.Roomy → exec (.sAddacc x) s = .next t →
      t.small.Roomy ∧ (t.small.nan = 0#64 → t.small.value = s.small.value + (imageRecv x).value)) ∧
    (s.large.sacc.Roomy → exec (.lAddsmall x) s = .next t →
      t.large.sacc.Roomy ∧ (t.large.sacc.nan = 0#64 → t.large.value = s.large.value + (imageRecv x).value))

/-! ### Commands of the L unit -/

/-- L_ADD1 completes on every pattern and state. Where the invariant holds: an infinity or a NaN goes to L.sacc's
handler and leaves the bins and every counter alone; any other pattern goes to its bin and to no other, which counts
down while it has room; a bin not yet in use starts at 4095; and a full bin is condensed first, then starts again
(R230 to R233, R246). -/
def Obligations.LAdd1FillsItsBin : Prop :=
  ∀ (x : Word) (s : State), ∃ t : State, exec (.lAdd1 x) s = .next t ∧ OnlyLarge s t ∧
    t.output = s.output ++ [0x12#64] ∧
    (s.large.Inv →
      (isFinite x = false → t.large = { s.large with sacc := addInfNaN s.large.sacc x }) ∧
      (isFinite x = true →
        (∀ jx, jx ≠ binIndex x → t.large.bin jx = s.large.bin jx ∧ t.large.usedBit jx = s.large.usedBit jx) ∧
        t.large.usedBit (binIndex x) = true ∧
        (0 < (s.large.bin (binIndex x)).count.toInt → t.large.sacc = s.large.sacc ∧
          t.large.bin (binIndex x) = { chunk := (s.large.bin (binIndex x)).chunk + x,
                                       count := (s.large.bin (binIndex x)).count - 1#16 }) ∧
        ((s.large.bin (binIndex x)).count.toInt < 0 → t.large.sacc = s.large.sacc ∧
          t.large.bin (binIndex x) = { chunk := x, count := 4095#16 }) ∧
        ((s.large.bin (binIndex x)).count.toInt = 0 → t.large.sacc = (condense s.large (binIndex x)).sacc ∧
          t.large.sacc.adds = addsAfterOne s.large.sacc.adds ∧
          t.large.bin (binIndex x) = { chunk := x, count := 4095#16 })))

/-- L_ADDV, L_SQNORM and L_DOT complete and leave in L what L_ADD1 of each element, square or product in order leaves;
no element leaves L alone (R247, R249, R250). -/
def Obligations.LVectorCommandsAddInOrder : Prop :=
  (∀ (v : List Word) (s : State), ∃ t : State, exec (.lAddv v) s = .next t ∧ OnlyLarge s t ∧
    t.output = s.output ++ [0x13#64] ∧ (v = [] → t.large = s.large)) ∧
  (∀ (v : List Word) (x : Word) (s t p q : State), exec (.lAddv (v ++ [x])) s = .next t →
    exec (.lAddv v) s = .next p → exec (.lAdd1 x) p = .next q → t.large = q.large) ∧
  (∀ (v : List Word) (s : State), ∃ t p : State, exec (.lSqnorm v) s = .next t ∧ OnlyLarge s t ∧
    t.output = s.output ++ [0x14#64] ∧ exec (.lAddv (v.map fun x => fmul64 x x)) s = .next p ∧ t.large = p.large) ∧
  (∀ (ab : List (Word × Word)) (s : State), ∃ t p : State, exec (.lDot ab) s = .next t ∧ OnlyLarge s t ∧
    t.output = s.output ++ [0x15#64] ∧ exec (.lAddv (ab.map fun e => fmul64 e.1 e.2)) s = .next p ∧
    t.large = p.large)

/-- Where the invariant of L holds, condense of a live bin that is not special, with adds left in L.sacc, adds the sum of
its magnitudes to three chunks of L.sacc, or subtracts it for a negative bin, takes one from the counter, and leaves the bin live and empty; every
other chunk, flag and bin stays (R236 to R243). -/
def Obligations.CondenseAddsThreeChunks : Prop :=
  ∀ (l : Large) (ix : BinIndex), l.Inv → binSpecial ix = false → (l.bin ix).live = true → l.sacc.adds ≠ 0#32 →
    ThreeChunksAdded l.sacc (condense l ix).sacc (binNeg ix) (if binExp ix = 0 then 0 else binExp ix / 32)
      (((fractionSum ix (l.bin ix)).toNat +
          (if binExp ix = 0 then 0 else (4096 - (l.bin ix).count.toNat) * 2 ^ 52)) *
        2 ^ (if binExp ix = 0 then 1 else binExp ix % 32)) ∧
    (condense l ix).sacc.adds = l.sacc.adds - 1#32 ∧ (condense l ix).sacc.inf = l.sacc.inf ∧
    (condense l ix).sacc.nan = l.sacc.nan ∧
    (condense l ix).bin ix = { chunk := 0#64, count := 4096#16 } ∧ (condense l ix).usedBit ix = true ∧
    ∀ jx, jx ≠ ix → (condense l ix).bin jx = l.bin jx ∧ (condense l ix).usedBit jx = l.usedBit jx

/-- Where the invariant of L holds and the chunks of L.sacc leave room for the adds left, condense keeps that room and
leaves val(L) as it was, unless a propagation overflows: it moves the exact sum of a bin into L.sacc (R242, R255). -/
def Obligations.CondenseKeepsTheValue : Prop :=
  ∀ (l : Large) (ix : BinIndex), l.Inv → l.sacc.Bounded → binSpecial ix = false →
    (condense l ix).sacc.Bounded ∧ ((condense l ix).sacc.nan = 0#64 → (condense l ix).value = l.value)

/-- Where the invariant of L holds and the chunks of L.sacc leave room for the adds left, L_ADD1 of a finite pattern keeps
that room and changes val(L) by exactly the pattern's value, unless a propagation overflows (R234, R255). -/
def Obligations.LAdd1IsExact : Prop :=
  ∀ (x : Word) (s t : State), s.large.Inv → s.large.sacc.Bounded → isFinite x = true →
    exec (.lAdd1 x) s = .next t →
    t.large.sacc.Bounded ∧ (t.large.sacc.nan = 0#64 → t.large.value = s.large.value + unitsOf x)

/-- transfer_all condenses every bin whose used bit is set, in ascending order of the index: the groups of 64 that the
scan passes over hold no such bin (R244). -/
def Obligations.TransferAllScansInOrder : Prop :=
  ∀ l : Large, transferAll l =
    (List.range 4096).foldl (fun m n => if m.usedBit (BitVec.ofNat 12 n) then condense m (BitVec.ofNat 12 n) else m) l

/-- L_ROUND completes; where the invariant holds, every used bin is left live and empty and every other bin as it was.
It answers the NaN field of L.sacc, else its Inf field, else the correctly rounded value of L.sacc, which, where the
invariant holds and the chunks had room, is that of everything in L (R200, R244, R252, R255). -/
def Obligations.LRoundAnswers : Prop :=
  ∀ s : State, ∃ (t : State) (r : Word), exec .lRound s = .next t ∧ OnlyLarge s t ∧
    t.output = s.output ++ [0x17#64, r] ∧
    (s.large.Inv → ∀ ix, t.large.bin ix =
      if s.large.usedBit ix then { chunk := 0#64, count := 4096#16 } else s.large.bin ix) ∧
    (t.large.sacc.nan ≠ 0#64 → r = t.large.sacc.nan) ∧
    (t.large.sacc.nan = 0#64 → t.large.sacc.inf ≠ 0#64 → r = t.large.sacc.inf) ∧
    (t.large.sacc.nan = 0#64 → t.large.sacc.inf = 0#64 → r = rne64 t.large.sacc.value ∧
      (s.large.Inv → s.large.sacc.Bounded → r = rne64 s.large.value))

/-- From reset, L_ADDV of finite patterns and then L_ROUND answers the correctly rounded exact sum, where no
propagation overflows (R255). -/
def Obligations.LSumIsCorrectlyRounded : Prop :=
  ∀ (v : List Word) (t u : State), (∀ x ∈ v, isFinite x = true) → exec (.lAddv v) State.reset = .next t →
    exec .lRound t = .next u → u.large.sacc.nan = 0#64 →
    u.output = [0x13#64, 0x17#64, rne64 (v.map unitsOf).sum]

/-- Where the invariant holds, a second L_ROUND answers the same pattern, also where L.sacc holds an infinity or a NaN,
if no propagation of the second one overflows, which shows in the NaN field; none does where the first left no flag
(R252). -/
def Obligations.LRoundTwiceAnswersTheSame : Prop :=
  ∀ s t u : State, s.large.Inv → exec .lRound s = .next t → exec .lRound t = .next u →
    (t.large.sacc.nan = 0#64 ∧ t.large.sacc.inf = 0#64) ∨ u.large.sacc.nan = t.large.sacc.nan →
    ∃ r, t.output = s.output ++ [0x17#64, r] ∧ u.output = t.output ++ [0x17#64, r]

/-- L_ROUND_TO_SMALL completes: it condenses every used bin, runs no final propagation, and answers the image of L.sacc,
which stays in L (R244, R253). -/
def Obligations.LRoundToSmallSendsSacc : Prop :=
  ∀ s : State, ∃ (t : State) (ws : List Word), exec .lRoundToSmall s = .next t ∧ OnlyLarge s t ∧
    t.large = transferAll s.large ∧ t.output = s.output ++ 0x18#64 :: ws ∧ ws.length = 70 ∧
    (∀ i < 67, ws[i]? = some (t.large.sacc.get i)) ∧ ws[67]? = some t.large.sacc.inf ∧
    ws[68]? = some t.large.sacc.nan ∧ ws[69]? = some (BitVec.ofNat 64 t.large.sacc.adds.toNat) ∧
    (s.large.Inv → ∀ ix, t.large.bin ix =
      if s.large.usedBit ix then { chunk := 0#64, count := 4096#16 } else s.large.bin ix)

/-- Where the invariant of L holds, the image L_ROUND_TO_SMALL answers, loaded by S_LOAD on any instance and rounded by
S_ROUND, gives the pattern that L_ROUND answers (R252, R253). -/
def Obligations.RoundToSmallThenRoundIsRound : Prop :=
  ∀ s t h h' q u : State, s.large.Inv → exec .lRoundToSmall s = .next t →
    exec (.sLoad (answeredImage s t)) h = .next h' → exec .sRound h' = .next q → exec .lRound s = .next u →
    ∃ r, q.output = h'.output ++ [0x07#64, r] ∧ u.output = s.output ++ [0x17#64, r]

/-- L_CHUNKS answers the number of live bins, at most 4094 where the invariant holds, and changes nothing else
(R254). -/
def Obligations.LChunksCountsLiveBins : Prop :=
  ∀ s : State, exec .lChunks s = .next { s with
      output := s.output ++ [0x19#64, BitVec.ofNat 64
        ((Finset.univ : Finset BinIndex).filter fun ix => 0 ≤ (s.large.bin ix).count.toInt).card] } ∧
    (s.large.Inv → ((Finset.univ : Finset BinIndex).filter fun ix => 0 ≤ (s.large.bin ix).count.toInt).card ≤ 4094)

/-- L_ADDSMALL completes on every image and state and touches no bin; with adds left in L.sacc it adds the image chunk by
chunk and passes its nonzero Inf and NaN fields to the handler; with none left it leaves what it leaves after a carry
propagation of L.sacc; the image's adds and pad are not read (R166, R251). -/
def Obligations.LAddsmallMergesAnImage : Prop :=
  ∀ (x : Image) (s : State), ∃ t : State, exec (.lAddsmall x) s = .next t ∧ OnlyLarge s t ∧
    t.output = s.output ++ [0x16#64] ∧ t.large.sacc.adds = addsAfterOne s.large.sacc.adds ∧
    t.large = { s.large with sacc := t.large.sacc } ∧
    (s.large.sacc.adds ≠ 0#32 → (∀ i (h : i < 67), t.large.sacc.get i = s.large.sacc.get i + x.chunk[i]) ∧
      ∃ a b : Small, (a = if x.inf = 0#64 then s.large.sacc else addInfNaN s.large.sacc x.inf) ∧
        (b = if x.nan = 0#64 then a else addInfNaN a x.nan) ∧ t.large.sacc.inf = b.inf ∧
        t.large.sacc.nan = b.nan) ∧
    (s.large.sacc.adds = 0#32 → ∃ q : State,
      exec (.lAddsmall x) { s with large := { s.large with sacc := (carryPropagate s.large.sacc).1 } } = .next q ∧
      t.large = q.large) ∧
    ∀ (n pad : BitVec 32) (u : State), exec (.lAddsmall { x with adds := n, pad := pad }) s = .next u → u = t

/-! ### The assembler -/

/-- The words of an assembled line other than a raw word are exactly one command: the one R92 gives the mnemonic, with
the written literals as its operands, those of a DOT pair by pair; and every command is assembled from the line that
writes it (R92, R102, R104). How the text of a line is read is the model's choice (entry 19) and no part of this. -/
def Obligations.AssembledLineIsOneCommand : Prop :=
  (∀ (m : String) (operands : AsmOperands) (ws : List Word), assemble (.command m operands) = some ws →
    ws.length < 2 ^ 64 → ∃ i : Instr, decode ws = .command i [] ∧ encode i = ws ∧ i.mnemonic = m ∧
      i.operandsAre operands) ∧
  (∀ (i : Instr) (operands : AsmOperands), i.operandsAre operands →
    assemble (.command i.mnemonic operands) = some (encode i))

/-- A decimal literal denotes the binary64 nearest to it, ties to even (R104). -/
def Obligations.DecimalLiteralIsCorrectlyRounded : Prop :=
  ∀ (neg : Bool) (digits k : Nat),
    CorrectlyRounded neg ((if neg then -1 else 1) * (digits * 10 ^ k * 2 ^ 1075)) 1
      (Literal.toWord (.decimal neg digits (k : Int))) ∧
    CorrectlyRounded neg ((if neg then -1 else 1) * (digits * 2 ^ 1075)) (10 ^ (k + 1))
      (Literal.toWord (.decimal neg digits (-(k + 1 : Int))))

/-! ### Several instances -/

/-- A step of one instance changes no other (R290). -/
def Obligations.InstancesShareNothing : Prop :=
  ∀ (sys : System) (k j : Nat), ∃ sys' : System, sys.stepAt k = .next sys' ∧ sys'.length = sys.length ∧
    (j ≠ k → sys'[j]? = sys[j]?) ∧ (∀ s, sys[k]? = some s → ∃ t, step s = .next t ∧ sys'[k]? = some t)

/-- S_COPY makes S of this instance equal to S of the other, which it leaves alone, where the other's counter is in
[0, 2047] (R105, R173). -/
def Obligations.SCopyMakesEqual : Prop :=
  ∀ right here : State, 0 ≤ right.small.adds.toInt → right.small.adds.toInt ≤ 2047 → ∃ right' here' : State,
    runPseudo .sCopy right here = .next (right', here') ∧ here'.small = right.small ∧ here'.large = here.large ∧
    right'.small = right.small ∧ right'.large = right.large

/-- L_ADDLARGE and S_ADDL change the other instance as L_ROUND_TO_SMALL does and merge its L.sacc into this instance's
L.sacc, or S (R105, R256). -/
def Obligations.PseudoCommandsMergeSacc : Prop :=
  ∀ right here : State,
    (∃ right' here' : State, runPseudo .lAddlarge right here = .next (right', here') ∧
      right'.small = right.small ∧ right'.large = transferAll right.large ∧ here'.small = here.small ∧
      here'.large = { here.large with sacc := smallAddOther here.large.sacc (transferAll right.large).sacc }) ∧
    (∃ right' here' : State, runPseudo .sAddl right here = .next (right', here') ∧
      right'.small = right.small ∧ right'.large = transferAll right.large ∧ here'.large = here.large ∧
      here'.small = smallAddOther here.small (transferAll right.large).sacc)
end

