-- ==== Sys2Proof/Laws/Bounds.lean ====
section
/-! SUPPORT. How the bounds on chunks that statements use lie inside one another. -/

namespace Sys2Proof.Machine

/-- Chunks as a run leaves them take their carries without a wrap (R151). -/
theorem Small.Roomy.noWrap {a : Small} (h : a.Roomy) : a.NoWrap := fun i hi => by
  obtain ⟨hb, h0, _⟩ := h
  have := hb i hi
  omega

/-- A carriable accumulator takes its carries without a wrap. -/
theorem Small.Carriable.noWrap {a : Small} (h : a.Carriable) : a.NoWrap := h.1

/-- The accumulator after reset has all its room. -/
theorem Small.reset_roomy : Small.reset.Roomy := by
  unfold Small.Roomy Small.Bounded
  decide +kernel

end Sys2Proof.Machine
end

