-- ==== Sys2Proof/Laws/Decode.lean ====
section
/-! SUPPORT. The parts of the command encoding: taking words, pairs and images back from the words written for them. -/

namespace Sys2Proof

/-- Taking k words succeeds when and only when there are k. -/
theorem takeWords_eq_some {k : Nat} {ws v r : List Word} :
    takeWords k ws = some (v, r) ↔ ws = v ++ r ∧ v.length = k := by
  unfold takeWords
  constructor
  · intro h
    split at h
    · rename_i hk
      simp only [Option.some.injEq, Prod.mk.injEq] at h
      obtain ⟨rfl, rfl⟩ := h
      exact ⟨(List.take_append_drop k ws).symm, by simpa using hk⟩
    · cases h
  · rintro ⟨rfl, rfl⟩
    simp

theorem takeWords_eq_none {k : Nat} {ws : List Word} : takeWords k ws = none ↔ ws.length < k := by
  unfold takeWords
  split <;> simp <;> omega

@[simp] theorem takeWords_append (v r : List Word) : takeWords v.length (v ++ r) = some (v, r) :=
  takeWords_eq_some.mpr ⟨rfl, rfl⟩

@[simp] theorem interleave_length (ab : List (Word × Word)) : (interleave ab).length = 2 * ab.length := by
  induction ab with
  | nil => rfl
  | cons p ab ih => obtain ⟨a, b⟩ := p; simp [interleave, ih]; omega

@[simp] theorem pairUp_interleave (ab : List (Word × Word)) : pairUp (interleave ab) = ab := by
  induction ab with
  | nil => rfl
  | cons p ab ih => obtain ⟨a, b⟩ := p; simp [interleave, pairUp, ih]

theorem interleave_pairUp : ∀ {ws : List Word} {n : Nat}, ws.length = 2 * n →
    interleave (pairUp ws) = ws ∧ (pairUp ws).length = n
  | [], n, h => by simp at h; simp [pairUp, interleave]; omega
  | [_], n, h => by simp at h; omega
  | a :: b :: r, n, h => by
    have := interleave_pairUp (ws := r) (n := n - 1) (by simp at h; omega)
    simp [pairUp, interleave, this.1, this.2]
    simp at h
    omega

@[simp] theorem Image.toWords_length (x : Image) : x.toWords.length = 70 := by
  simp [Image.toWords]

theorem Image.toWords_getD_chunk (x : Image) {i : Nat} (h : i < 67) : x.toWords.getD i 0#64 = x.chunk[i] := by
  have hl : i < x.chunk.toList.length := by simpa using h
  rw [Image.toWords, List.getD_eq_getElem?_getD, List.getElem?_append_left hl, List.getElem?_eq_getElem hl]
  simp

theorem Image.toWords_getD_tail (x : Image) (k : Nat) :
    x.toWords.getD (67 + k) 0#64 = [x.inf, x.nan, x.pad ++ x.adds].getD k 0#64 := by
  have hl : x.chunk.toList.length ≤ 67 + k := by simp
  rw [Image.toWords, List.getD_eq_getElem?_getD, List.getElem?_append_right hl, List.getD_eq_getElem?_getD]
  simp

/-- The halves of word 69 (R72). -/
theorem halves_of_word (p a : BitVec 32) :
    (p ++ a : BitVec (32 + 32)).extractLsb' 0 32 = a ∧ (p ++ a : BitVec (32 + 32)).extractLsb' 32 32 = p := by
  constructor <;>
  · apply BitVec.eq_of_getLsbD_eq
    intro j hj
    rw [BitVec.getLsbD_extractLsb', BitVec.getLsbD_append]
    simp [hj]

/-- The words of an image stand for it. -/
@[simp] theorem imageOfWords_toWords (x : Image) : imageOfWords x.toWords = x := by
  have hc : (imageOfWords x.toWords).chunk = x.chunk := by
    apply Vector.ext
    intro i hi
    unfold imageOfWords
    rw [Vector.getElem_ofFn]
    exact x.toWords_getD_chunk hi
  have h7 := x.toWords_getD_tail 0
  have h8 := x.toWords_getD_tail 1
  have h9 := x.toWords_getD_tail 2
  have hi : (imageOfWords x.toWords).inf = x.inf := h7
  have hn : (imageOfWords x.toWords).nan = x.nan := h8
  have hw : x.toWords.getD 69 0#64 = x.pad ++ x.adds := h9
  have ha : (imageOfWords x.toWords).adds = x.adds := by
    unfold imageOfWords; simp only [hw]; exact (halves_of_word _ _).1
  have hp : (imageOfWords x.toWords).pad = x.pad := by
    unfold imageOfWords; simp only [hw]; exact (halves_of_word _ _).2
  generalize imageOfWords x.toWords = y at hc hi hn ha hp
  cases x; cases y; simp_all

/-- Word 69 is its two halves. -/
theorem word_of_halves (w : Word) : w.extractLsb' 32 32 ++ w.extractLsb' 0 32 = w := by
  apply BitVec.eq_of_getLsbD_eq
  intro j hj
  rw [BitVec.getLsbD_append]
  by_cases h : j < 32
  · simp [h]
  · simp only [h, if_false, decide_false, BitVec.getLsbD_extractLsb']
    have h2 : j - 32 < 32 := by omega
    simp [h2, show 32 + (j - 32) = j by omega]

/-- The words of the image that 70 words stand for are those words. -/
theorem toWords_imageOfWords {ws : List Word} (h : ws.length = 70) : (imageOfWords ws).toWords = ws := by
  have hd : ∀ i < 70, (imageOfWords ws).toWords.getD i 0#64 = ws.getD i 0#64 := by
    intro i hi
    by_cases h67 : i < 67
    · rw [Image.toWords_getD_chunk _ h67]
      unfold imageOfWords
      rw [Vector.getElem_ofFn]
    · obtain ⟨k, rfl⟩ : ∃ k, i = 67 + k := ⟨i - 67, by omega⟩
      rw [Image.toWords_getD_tail]
      have : k = 0 ∨ k = 1 ∨ k = 2 := by omega
      rcases this with rfl | rfl | rfl
      · rfl
      · rfl
      · exact word_of_halves _
  apply List.ext_getElem
  · rw [Image.toWords_length, h]
  intro i hi hi'
  have := hd i (h ▸ hi')
  rwa [List.getD_eq_getElem _ _ hi, List.getD_eq_getElem _ _ hi'] at this

end Sys2Proof
end

