-- ==== Sys2Proof/Laws/State.lean ====
section
/-! SUPPORT. One lemma per field per update of the records of the model, all true by rfl, so that no later proof unfolds
a record update. -/

namespace Sys2Proof.Machine

section SmallUpdates
variable (a : Small) (i : Nat) (v d : Word) (neg : Bool)

@[simp] theorem Small.set_inf : (a.set i v).inf = a.inf := rfl
@[simp] theorem Small.set_nan : (a.set i v).nan = a.nan := rfl
@[simp] theorem Small.set_adds : (a.set i v).adds = a.adds := rfl
@[simp] theorem Small.addAt_inf : (a.addAt i d).inf = a.inf := rfl
@[simp] theorem Small.addAt_nan : (a.addAt i d).nan = a.nan := rfl
@[simp] theorem Small.addAt_adds : (a.addAt i d).adds = a.adds := rfl
@[simp] theorem Small.subAt_inf : (a.subAt i d).inf = a.inf := rfl
@[simp] theorem Small.subAt_nan : (a.subAt i d).nan = a.nan := rfl
@[simp] theorem Small.subAt_adds : (a.subAt i d).adds = a.adds := rfl
@[simp] theorem Small.accumulate_inf : (a.accumulate neg i d).inf = a.inf := by cases neg <;> rfl
@[simp] theorem Small.accumulate_nan : (a.accumulate neg i d).nan = a.nan := by cases neg <;> rfl
@[simp] theorem Small.accumulate_adds : (a.accumulate neg i d).adds = a.adds := by cases neg <;> rfl
@[simp] theorem Small.countDown_chunk : a.countDown.chunk = a.chunk := rfl
@[simp] theorem Small.countDown_get : a.countDown.get i = a.get i := rfl
@[simp] theorem Small.countDown_inf : a.countDown.inf = a.inf := rfl
@[simp] theorem Small.countDown_nan : a.countDown.nan = a.nan := rfl
@[simp] theorem Small.countDown_adds : a.countDown.adds = a.adds - 1#32 := rfl
@[simp] theorem Small.countDown_value : a.countDown.value = a.value := rfl
@[simp] theorem Small.refill_chunk : a.refill.chunk = a.chunk := rfl
@[simp] theorem Small.refill_get : a.refill.get i = a.get i := rfl
@[simp] theorem Small.refill_inf : a.refill.inf = a.inf := rfl
@[simp] theorem Small.refill_nan : a.refill.nan = a.nan := rfl
@[simp] theorem Small.refill_adds : a.refill.adds = 2046#32 := rfl
@[simp] theorem Small.refill_value : a.refill.value = a.value := rfl
@[simp] theorem Small.reset_inf : Small.reset.inf = 0#64 := rfl
@[simp] theorem Small.reset_nan : Small.reset.nan = 0#64 := rfl
@[simp] theorem Small.reset_adds : Small.reset.adds = 2047#32 := rfl

end SmallUpdates

section LargeUpdates
variable (l : Large) (ix : BinIndex) (b : Bin)

@[simp] theorem Large.setBin_used : (l.setBin ix b).used = l.used := rfl
@[simp] theorem Large.setBin_usedUsed : (l.setBin ix b).usedUsed = l.usedUsed := rfl
@[simp] theorem Large.setBin_sacc : (l.setBin ix b).sacc = l.sacc := rfl
@[simp] theorem Large.setBin_bins : (l.setBin ix b).bins = binsSet l.bins ix b := rfl
@[simp] theorem Large.setUsed_bins : (l.setUsed ix).bins = l.bins := rfl
@[simp] theorem Large.setUsed_sacc : (l.setUsed ix).sacc = l.sacc := rfl
@[simp] theorem Large.setUsed_bin (jx : BinIndex) : (l.setUsed ix).bin jx = l.bin jx := rfl
@[simp] theorem Large.setBin_usedBit (jx : BinIndex) : (l.setBin ix b).usedBit jx = l.usedBit jx := rfl
@[simp] theorem Large.reset_bin : Large.reset.bin ix = Bin.unused := rfl
@[simp] theorem Large.reset_sacc : Large.reset.sacc = Small.reset := rfl
@[simp] theorem Large.reset_usedUsed : Large.reset.usedUsed = 0#64 := rfl
@[simp] theorem Bin.take_chunk (u : Word) : (b.take u).chunk = b.chunk + u := rfl
@[simp] theorem Bin.take_count (u : Word) : (b.take u).count = b.count - 1#16 := rfl
@[simp] theorem Bin.emptied_chunk : Bin.emptied.chunk = 0#64 := rfl
@[simp] theorem Bin.emptied_count : Bin.emptied.count = 4096#16 := rfl
@[simp] theorem Bin.unused_chunk : Bin.unused.chunk = 0#64 := rfl
@[simp] theorem Bin.unused_count : Bin.unused.count = 0xFFFF#16 := rfl
@[simp] theorem Bin.emptied_live : Bin.emptied.live = true := by decide
@[simp] theorem Bin.unused_live : Bin.unused.live = false := by decide

end LargeUpdates

section StateUpdates
variable (s : State) (a : Small) (l : Large) (opc : BitVec 8) (err : ErrorCode) (ws : List Word)

@[simp] theorem State.setSmall_small : (s.setSmall a).small = a := rfl
@[simp] theorem State.setSmall_large : (s.setSmall a).large = s.large := rfl
@[simp] theorem State.setSmall_pending : (s.setSmall a).pending = s.pending := rfl
@[simp] theorem State.setSmall_input : (s.setSmall a).input = s.input := rfl
@[simp] theorem State.setSmall_output : (s.setSmall a).output = s.output := rfl
@[simp] theorem State.setLarge_small : (s.setLarge l).small = s.small := rfl
@[simp] theorem State.setLarge_large : (s.setLarge l).large = l := rfl
@[simp] theorem State.setLarge_pending : (s.setLarge l).pending = s.pending := rfl
@[simp] theorem State.setLarge_input : (s.setLarge l).input = s.input := rfl
@[simp] theorem State.setLarge_output : (s.setLarge l).output = s.output := rfl
@[simp] theorem State.send_small : (s.send ws).small = s.small := rfl
@[simp] theorem State.send_large : (s.send ws).large = s.large := rfl
@[simp] theorem State.send_pending : (s.send ws).pending = s.pending := rfl
@[simp] theorem State.send_input : (s.send ws).input = s.input := rfl
@[simp] theorem State.send_output : (s.send ws).output = s.output ++ ws := rfl
@[simp] theorem State.complete_small : (s.complete opc ws).small = s.small := rfl
@[simp] theorem State.complete_large : (s.complete opc ws).large = s.large := rfl
@[simp] theorem State.complete_pending : (s.complete opc ws).pending = s.pending := rfl
@[simp] theorem State.complete_input : (s.complete opc ws).input = s.input := rfl
@[simp] theorem State.complete_output :
    (s.complete opc ws).output = s.output ++ statusWord opc .ok :: ws := by
  simp [State.complete, State.respond]
@[simp] theorem State.reject_small : (s.reject opc err).small = s.small := rfl
@[simp] theorem State.reject_large : (s.reject opc err).large = s.large := rfl
@[simp] theorem State.reject_pending : (s.reject opc err).pending = s.pending := rfl
@[simp] theorem State.reject_input : (s.reject opc err).input = s.input := rfl
@[simp] theorem State.reject_output : (s.reject opc err).output = s.output ++ [statusWord opc err] := rfl
@[simp] theorem State.consume_small : (s.consume ws).small = s.small := rfl
@[simp] theorem State.consume_large : (s.consume ws).large = s.large := rfl
@[simp] theorem State.consume_pending : (s.consume ws).pending = [] := rfl
@[simp] theorem State.consume_input : (s.consume ws).input = ws := rfl
@[simp] theorem State.consume_output : (s.consume ws).output = s.output := rfl
@[simp] theorem State.hold_small : s.hold.small = s.small := rfl
@[simp] theorem State.hold_large : s.hold.large = s.large := rfl
@[simp] theorem State.hold_pending : s.hold.pending = s.arrived := rfl
@[simp] theorem State.hold_input : s.hold.input = [] := rfl
@[simp] theorem State.hold_output : s.hold.output = s.output := rfl
@[simp] theorem State.hold_arrived : s.hold.arrived = s.arrived := by simp [State.arrived]
@[simp] theorem State.hostSend_small : (s.hostSend ws).small = s.small := rfl
@[simp] theorem State.hostSend_large : (s.hostSend ws).large = s.large := rfl
@[simp] theorem State.hostSend_pending : (s.hostSend ws).pending = s.pending := rfl
@[simp] theorem State.hostSend_input : (s.hostSend ws).input = s.input ++ ws := rfl
@[simp] theorem State.hostSend_output : (s.hostSend ws).output = s.output := rfl
@[simp] theorem State.hostSend_arrived : (s.hostSend ws).arrived = s.arrived ++ ws := by simp [State.arrived]

end StateUpdates

end Sys2Proof.Machine
end

