-- ==== Sys2Proof/Laws/Small.lean ====
section
/-! SUPPORT. The chunk register file: a read after a write, what the chunk updates leave alone, the value of an
accumulator as a sum over its chunks, and the frames of the flag handler and of carry propagation. -/

namespace Sys2Proof.Machine

/-! ### Reading and writing chunks -/

theorem Small.get_eq (a : Small) {i : Nat} (h : i < 67) : a.get i = a.chunk[i] := by
  simp [Small.get, h]

@[simp] theorem Small.get_of_ge (a : Small) {i : Nat} (h : 67 ≤ i) : a.get i = 0#64 := by
  simp [Small.get, h]

@[simp] theorem Small.reset_get (i : Nat) : Small.reset.get i = 0#64 := by
  by_cases h : i < 67
  · simp [Small.get_eq, h, Small.reset]
  · simp [Nat.le_of_not_lt h]

/-- A read after a write gives the value written; a write leaves every other chunk alone. -/
theorem Small.get_set (a : Small) (i j : Nat) (v : Word) :
    (a.set i v).get j = if i = j ∧ i < 67 then v else a.get j := by
  unfold Small.get Small.set
  rw [Vector.getElem?_setIfInBounds]
  by_cases hij : i = j
  · subst hij; by_cases hi : i < 67 <;> simp [hi]
  · simp [hij]

@[simp] theorem Small.get_set_same (a : Small) {i : Nat} (h : i < 67) (v : Word) : (a.set i v).get i = v := by
  simp [Small.get_set, h]

@[simp] theorem Small.get_set_other (a : Small) {i j : Nat} (h : i ≠ j) (v : Word) : (a.set i v).get j = a.get j := by
  simp [Small.get_set, h]

@[simp] theorem Small.get_addAt_same (a : Small) {i : Nat} (h : i < 67) (d : Word) :
    (a.addAt i d).get i = a.get i + d := by
  simp [Small.addAt, h]

@[simp] theorem Small.get_addAt_other (a : Small) {i j : Nat} (h : i ≠ j) (d : Word) :
    (a.addAt i d).get j = a.get j := by
  simp [Small.addAt, h]

/-- What accumulating at one chunk does to every chunk (R150, R241). -/
theorem Small.get_accumulate (a : Small) (neg : Bool) (i j : Nat) (d : Word) :
    (a.accumulate neg i d).get j = if i = j ∧ i < 67 then (if neg then a.get j - d else a.get j + d) else a.get j := by
  by_cases h : i = j
  · subst h; cases neg <;> simp [Small.accumulate, Small.addAt, Small.subAt, Small.get_set]
  · cases neg <;> simp [Small.accumulate, Small.addAt, Small.subAt, h]

/-- Two small accumulators with equal chunks and fields are equal. -/
theorem Small.ext_get {a b : Small} (hc : ∀ i < 67, a.get i = b.get i) (hi : a.inf = b.inf) (hn : a.nan = b.nan)
    (ha : a.adds = b.adds) : a = b := by
  have h : a.chunk = b.chunk := by
    apply Vector.ext
    intro i hi
    simpa [Small.get_eq, hi] using hc i hi
  cases a; cases b; simp_all

/-! ### The value -/

/-- The value of a list of chunks is the sum of the signed chunks at their weights. -/
theorem foldr_value_eq_sum (cs : List Word) :
    cs.foldr (fun c acc => c.toInt + 2 ^ 32 * acc) 0 =
      ∑ i ∈ Finset.range cs.length, ((cs[i]?.getD 0).toInt) * 2 ^ (32 * i) := by
  induction cs with
  | nil => simp
  | cons c cs ih =>
    rw [List.foldr_cons, ih, List.length_cons, Finset.sum_range_succ', Finset.mul_sum]
    simp only [List.getElem?_cons_zero, Option.getD_some, Nat.mul_zero, pow_zero, mul_one,
      List.getElem?_cons_succ]
    rw [add_comm]
    congr 1
    refine Finset.sum_congr rfl fun i _ => ?_
    rw [Nat.mul_add, pow_add]
    ring

/-- val(A) as R19 and R205 write it. -/
theorem Small.value_eq_sum (a : Small) :
    a.value = ∑ i ∈ Finset.range 67, (a.get i).toInt * 2 ^ (32 * i) := by
  unfold Small.value
  rw [foldr_value_eq_sum]
  simp [Small.get]

@[simp] theorem Small.reset_value : Small.reset.value = 0 := by
  simp [Small.value_eq_sum]

/-- A write changes the value by the change of the chunk at its weight. -/
theorem Small.value_set (a : Small) {i : Nat} (h : i < 67) (v : Word) :
    (a.set i v).value = a.value + (v.toInt - (a.get i).toInt) * 2 ^ (32 * i) := by
  have hi : i ∈ Finset.range 67 := by simpa using h
  rw [Small.value_eq_sum, Small.value_eq_sum, ← Finset.add_sum_erase _ _ hi, ← Finset.add_sum_erase _ _ hi]
  have hsum : ∑ x ∈ (Finset.range 67).erase i, ((a.set i v).get x).toInt * 2 ^ (32 * x) =
      ∑ x ∈ (Finset.range 67).erase i, (a.get x).toInt * 2 ^ (32 * x) := by
    refine Finset.sum_congr rfl fun j hj => ?_
    rw [Small.get_set_other _ (Ne.symm (Finset.ne_of_mem_erase hj))]
  rw [hsum, Small.get_set_same _ h]
  ring

/-- An addition that does not wrap adds exactly (R14, R150). -/
theorem Small.value_addAt (a : Small) {i : Nat} (h : i < 67) (d : Word)
    (hw : (a.get i + d).toInt = (a.get i).toInt + d.toInt) :
    (a.addAt i d).value = a.value + d.toInt * 2 ^ (32 * i) := by
  rw [Small.addAt, Small.value_set _ h, hw]
  ring

/-- A subtraction that does not wrap subtracts exactly (R14, R150). -/
theorem Small.value_subAt (a : Small) {i : Nat} (h : i < 67) (d : Word)
    (hw : (a.get i - d).toInt = (a.get i).toInt - d.toInt) :
    (a.subAt i d).value = a.value - d.toInt * 2 ^ (32 * i) := by
  rw [Small.subAt, Small.value_set _ h, hw]
  ring

/-! ### The flag handler -/

/-- The handler writes only the Inf or the NaN field (R126). -/
@[simp] theorem addInfNaN_chunk (a : Small) (v : Word) : (addInfNaN a v).chunk = a.chunk := by
  unfold addInfNaN infPath nanPath; repeat' split
  all_goals rfl

@[simp] theorem addInfNaN_adds (a : Small) (v : Word) : (addInfNaN a v).adds = a.adds := by
  unfold addInfNaN infPath nanPath; repeat' split
  all_goals rfl

@[simp] theorem addInfNaN_get (a : Small) (v : Word) (i : Nat) : (addInfNaN a v).get i = a.get i := by
  simp [Small.get]

@[simp] theorem addInfNaN_value (a : Small) (v : Word) : (addInfNaN a v).value = a.value := by
  simp [Small.value]

/-- The NaN path leaves the Inf field alone (R126). -/
theorem addInfNaN_inf_of_payload (a : Small) {v : Word} (h : v &&& mantMask ≠ 0#64) : (addInfNaN a v).inf = a.inf := by
  unfold addInfNaN nanPath; simp only [h, if_false]; split <;> rfl

/-- The Inf path leaves the NaN field alone (R126). -/
theorem addInfNaN_nan_of_no_payload (a : Small) {v : Word} (h : v &&& mantMask = 0#64) :
    (addInfNaN a v).nan = a.nan := by
  unfold addInfNaN infPath; simp only [h, if_true]; repeat' split
  all_goals rfl

@[simp] theorem chunkOverflow_get (a : Small) (i : Nat) : (chunkOverflow a).get i = a.get i := by
  simp [chunkOverflow]

@[simp] theorem chunkOverflow_inf (a : Small) : (chunkOverflow a).inf = a.inf :=
  addInfNaN_inf_of_payload a (by decide)

@[simp] theorem chunkOverflow_adds (a : Small) : (chunkOverflow a).adds = a.adds := by
  simp [chunkOverflow]

/-- Chunk overflow always leaves the pattern 0x7FFFFFFFFFFFFFFF in the NaN field: no payload is larger (R159). -/
@[simp] theorem chunkOverflow_nan (a : Small) : (chunkOverflow a).nan = overflowNaN := by
  have h : a.nan &&& mantMask ≤ overflowNaN &&& mantMask := by
    have h1 : overflowNaN &&& mantMask = mantMask := by decide
    rw [h1, BitVec.le_def]
    exact Nat.le_trans (by rw [BitVec.toNat_and]; exact Nat.and_le_right) (Nat.le_refl _)
  have h0 : overflowNaN &&& mantMask ≠ 0#64 := by decide
  have h2 : overflowNaN &&& ~~~signMask = overflowNaN := by decide
  simp [chunkOverflow, addInfNaN, nanPath, h0, h, h2]

/-! ### Carry propagation -/

theorem absorbTop_frame (a : Small) (n : Nat) :
    (absorbTop a n).1.inf = a.inf ∧ (absorbTop a n).1.nan = a.nan ∧ (absorbTop a n).1.adds = a.adds := by
  induction n generalizing a with
  | zero => exact ⟨rfl, rfl, rfl⟩
  | succ n ih =>
    unfold absorbTop
    split
    · simpa using ih ((a.addAt n (minusTwoPow32)).set (n + 1) 0#64)
    · exact ⟨rfl, rfl, rfl⟩

theorem carryLoop_frame (turns : Nat) (a : Small) (i u : Nat) (w : Option Nat) :
    (carryLoop turns a i u w).1.inf = a.inf ∧ (carryLoop turns a i u w).1.adds = a.adds ∧
      ((carryLoop turns a i u w).1.nan = a.nan ∨ (carryLoop turns a i u w).1.nan = overflowNaN) := by
  induction turns generalizing a i u w with
  | zero => exact ⟨rfl, rfl, .inl rfl⟩
  | succ n ih =>
    unfold carryLoop
    simp only
    split
    · exact ⟨rfl, rfl, .inl rfl⟩
    split
    · exact ih ..
    split
    · exact ih ..
    split
    · exact ⟨rfl, rfl, .inl rfl⟩
    split
    · have h := ih (chunkOverflow (a.set i (a.get i &&& lowMask))) (i + 1) i
        (if a.get i &&& lowMask ≠ 0#64 then some i else w)
      simp only [chunkOverflow_inf, chunkOverflow_adds, chunkOverflow_nan, Small.set_inf, Small.set_adds,
        or_self] at h
      exact ⟨h.1, h.2.1, .inr h.2.2⟩
    · simpa using ih ((a.set i (a.get i &&& lowMask)).addAt (i + 1) (carryOf (a.get i))) (i + 1)
        (if i = u then i + 1 else u) (if a.get i &&& lowMask ≠ 0#64 then some i else w)

/-- What carry propagation can do outside the chunks: it never writes Inf, it sets adds to 2046, and it leaves NaN or
sets it to the overflow pattern (R156, R157, R159). -/
theorem carryPropagate_frame (a : Small) :
    (carryPropagate a).1.inf = a.inf ∧ (carryPropagate a).1.adds = 2046#32 ∧
      ((carryPropagate a).1.nan = a.nan ∨ (carryPropagate a).1.nan = overflowNaN) := by
  unfold carryPropagate
  split
  · exact ⟨rfl, rfl, .inl rfl⟩
  · rename_i u _
    have hl := carryLoop_frame 68 a 0 u none
    split
    · rename_i b h; rw [h] at hl; exact ⟨hl.1, rfl, hl.2.2⟩
    · rename_i b x h
      rw [h] at hl
      have ha := absorbTop_frame b x
      simp only [Small.refill_inf, Small.refill_adds, Small.refill_nan, true_and]
      rw [ha.1, ha.2.1]
      exact ⟨hl.1, hl.2.2⟩

@[simp] theorem carryPropagate_inf (a : Small) : (carryPropagate a).1.inf = a.inf := (carryPropagate_frame a).1
@[simp] theorem carryPropagate_adds (a : Small) : (carryPropagate a).1.adds = 2046#32 := (carryPropagate_frame a).2.1

@[simp] theorem ensureRoom_inf (a : Small) : (ensureRoom a).inf = a.inf := by
  unfold ensureRoom; split <;> simp

/-- After the opening check the counter is not 0 (R152, R166, R236). -/
theorem ensureRoom_adds (a : Small) : (ensureRoom a).adds = if a.adds = 0#32 then 2046#32 else a.adds := by
  unfold ensureRoom; split <;> simp

theorem ensureRoom_of_room {a : Small} (h : a.adds ≠ 0#32) : ensureRoom a = a := by
  simp [ensureRoom, h]

theorem ensureRoom_nan (a : Small) : (ensureRoom a).nan = a.nan ∨ (ensureRoom a).nan = overflowNaN := by
  unfold ensureRoom; split
  · exact (carryPropagate_frame a).2.2
  · exact .inl rfl

/-! ### Adding and merging -/

@[simp] theorem addFinite_frame (a : Small) (d : Decomposed) :
    (addFinite a d).inf = a.inf ∧ (addFinite a d).nan = a.nan ∧ (addFinite a d).adds = a.adds := by
  simp [addFinite]

@[simp] theorem addNoCarry_adds (a : Small) (u : Word) : (addNoCarry a u).adds = a.adds := by
  unfold addNoCarry; simp only; split <;> simp

/-- Every small add counts once, whatever the class of the value (R152). -/
theorem smallAddOne_adds (a : Small) (u : Word) :
    (smallAddOne a u).adds = (if a.adds = 0#32 then 2046#32 else a.adds) - 1#32 := by
  simp [smallAddOne, ensureRoom_adds]

@[simp] theorem mergeFlag_chunk (a : Small) (v : Word) : (mergeFlag a v).chunk = a.chunk := by
  unfold mergeFlag; split <;> simp

@[simp] theorem mergeFlag_adds (a : Small) (v : Word) : (mergeFlag a v).adds = a.adds := by
  unfold mergeFlag; split <;> simp

/-- A merge counts once (R166). -/
theorem smallAddOther_adds (a x : Small) :
    (smallAddOther a x).adds = (if a.adds = 0#32 then 2046#32 else a.adds) - 1#32 := by
  simp [smallAddOther, ensureRoom_adds]

/-- A merge adds chunk by chunk to the accumulator, propagated first if no add remained (R166). -/
theorem smallAddOther_get (a x : Small) {i : Nat} (h : i < 67) :
    (smallAddOther a x).get i = (ensureRoom a).get i + x.get i := by
  simp [smallAddOther, Small.get_eq, h]

@[simp] theorem smallAddAll_nil (a : Small) : smallAddAll a [] = a := rfl
@[simp] theorem smallAddAll_cons (a : Small) (u : Word) (us : List Word) :
    smallAddAll a (u :: us) = smallAddAll (smallAddOne a u) us := rfl
theorem smallAddAll_append (a : Small) (us vs : List Word) :
    smallAddAll a (us ++ vs) = smallAddAll (smallAddAll a us) vs := by
  simp [smallAddAll]

/-- Rounding is one of: the NaN field, the Inf field, or a propagation followed by the NaN field or the rounded value
(R200). -/
theorem roundSmall_cases (a : Small) :
    (a.nan ≠ 0#64 ∧ roundSmall a = (a, a.nan)) ∨
    (a.nan = 0#64 ∧ a.inf ≠ 0#64 ∧ roundSmall a = (a, a.inf)) ∨
    (a.nan = 0#64 ∧ a.inf = 0#64 ∧ (carryPropagate a).1.nan ≠ 0#64 ∧
      roundSmall a = ((carryPropagate a).1, (carryPropagate a).1.nan)) ∨
    (a.nan = 0#64 ∧ a.inf = 0#64 ∧ (carryPropagate a).1.nan = 0#64 ∧
      roundSmall a = ((carryPropagate a).1, rne64 (carryPropagate a).1.value)) := by
  unfold roundSmall
  by_cases h1 : a.nan = 0#64 <;> by_cases h2 : a.inf = 0#64 <;> by_cases h3 : (carryPropagate a).1.nan = 0#64 <;>
    simp [h1, h2, h3]

end Sys2Proof.Machine
end

