-- ==== Sys2Proof/Laws/Flags.lean ====
section
/-! SUPPORT. The patterns the free values make, and the two paths of the flag handler case by case. -/

namespace Sys2Proof.Machine

theorem word_fields (a : BitVec 1) (e : BitVec 11) (f : BitVec 52) :
    bexp (a ++ e ++ f : BitVec (1 + 11 + 52)) = e ∧ frac (a ++ e ++ f : BitVec (1 + 11 + 52)) = f := by
  constructor
  · apply BitVec.eq_of_getLsbD_eq
    intro j hj
    unfold bexp
    have h1 : ¬(52 + j < 52) := by omega
    have h2 : 52 + j - 52 = j := by omega
    rw [BitVec.getLsbD_extractLsb', BitVec.getLsbD_append, BitVec.getLsbD_append]
    simp [hj, h2]
  · apply BitVec.eq_of_getLsbD_eq
    intro j hj
    unfold frac
    rw [BitVec.getLsbD_extractLsb', BitVec.getLsbD_append]
    simp [hj]

/-- Whatever the free bits are, they make a NaN pattern (R11). -/
@[simp] theorem isNaN_nanOfBits (f : BitVec 53) : isNaN (nanOfBits f) = true := by
  unfold isNaN nanOfBits
  simp only
  rw [(word_fields _ _ _).1, (word_fields _ _ _).2]
  split
  · decide
  · simp_all

/-- P_MUL_NAN is a NaN pattern (R131). -/
@[simp] theorem isNaN_mulNaN (a b : Word) : isNaN (mulNaN a b) = true := isNaN_nanOfBits _

/-- P_INF_CANCEL_NAN is a NaN pattern (R127). -/
@[simp] theorem isNaN_infCancelNaN (x : Word) : isNaN (infCancelNaN x) = true := isNaN_nanOfBits _

/-- A NaN pattern is not 0 (R22). -/
theorem ne_zero_of_isNaN {x : Word} (h : isNaN x = true) : x ≠ 0#64 := by
  rintro rfl
  revert h
  decide

/-- Every NaN pattern is a value of the free bits: the limit of R11 is all that is fixed. -/
theorem exists_nanOfBits {p : Word} (h : isNaN p = true) : ∃ f, nanOfBits f = p := by
  refine ⟨p.extractLsb' 63 1 ++ frac p, ?_⟩
  have hf : (p.extractLsb' 63 1 ++ frac p : BitVec (1 + 52)).extractLsb' 0 52 = frac p := by
    apply BitVec.eq_of_getLsbD_eq
    intro j hj
    rw [BitVec.getLsbD_extractLsb', BitVec.getLsbD_append]
    simp [hj]
  have hs : (p.extractLsb' 63 1 ++ frac p : BitVec (1 + 52)).extractLsb' 52 1 = p.extractLsb' 63 1 := by
    apply BitVec.eq_of_getLsbD_eq
    intro j hj
    have h2 : 52 + j - 52 = j := by omega
    rw [BitVec.getLsbD_extractLsb', BitVec.getLsbD_append]
    simp [hj, h2]
  have hb : bexp p = 0x7FF#11 ∧ frac p ≠ 0#52 := by simpa [isNaN] using h
  unfold nanOfBits
  simp only
  rw [show (p.extractLsb' 63 1 ++ frac p : BitVec 53).extractLsb' 0 52 = frac p from hf,
    show (p.extractLsb' 63 1 ++ frac p : BitVec 53).extractLsb' 52 1 = p.extractLsb' 63 1 from hs,
    if_neg hb.2, ← hb.1]
  apply BitVec.eq_of_getLsbD_eq
  intro j hj
  rw [BitVec.getLsbD_append]
  by_cases h1 : j < 52
  · simp [h1, frac]
  · simp only [h1, if_false]
    rw [BitVec.getLsbD_append]
    by_cases h2 : j - 52 < 11
    · simp [h2, bexp, show 52 + (j - 52) = j by omega]
    · have h3 : j = 63 := by omega
      subst h3
      simp

/-- The Inf path, case by case (R127). -/
theorem addInfNaN_of_no_payload (a : Small) {v : Word} (h : v &&& mantMask = 0#64) :
    addInfNaN a v = { a with inf := if a.inf = 0#64 then v else if a.inf = v then a.inf else infCancelNaN v } := by
  unfold addInfNaN infPath
  simp only [h, if_true]
  split
  · rfl
  · split <;> rfl

/-- The NaN path, case by case (R128). -/
theorem addInfNaN_of_payload (a : Small) {v : Word} (h : v &&& mantMask ≠ 0#64) :
    addInfNaN a v =
      { a with nan := if a.nan &&& mantMask ≤ v &&& mantMask then v &&& ~~~signMask else a.nan } := by
  unfold addInfNaN nanPath
  simp only [h, if_false]
  split <;> rfl

end Sys2Proof.Machine
end

