-- ==== Sys2Proof/Laws/Large.lean ====
section
/-! SUPPORT. The sparse bins: a read after a write, the canonical form and that every write keeps it; the used
bit-sets; and what condensing a bin and adding a value do outside the fields they are about. -/

namespace Sys2Proof.Machine

/-! ### The sparse bins -/

/-- Every index listed is above k. -/
def binsAbove (k : BinIndex) (m : Bins) : Prop := ∀ e ∈ m, k.toNat < e.1.toNat

theorem binsWf_cons (k : BinIndex) (b : Bin) (m : Bins) :
    binsWf ((k, b) :: m) = true ↔ b ≠ Bin.unused ∧ binsAbove k m ∧ binsWf m = true := by
  simp [binsWf, binsAbove, and_assoc]

/-- An index below every index listed is not listed. -/
theorem binsGet_of_above {k : BinIndex} {m : Bins} (h : binsAbove k m) : binsGet m k = Bin.unused := by
  induction m with
  | nil => rfl
  | cons e m ih =>
    have hk : e.1 ≠ k := by
      rintro rfl
      exact Nat.lt_irrefl _ (h e (by simp))
    simp only [binsGet, hk, if_false]
    exact ih fun e he => h e (by simp [he])

/-- A write leaves every other bin alone. -/
theorem binsGet_set_other (m : Bins) {ix jx : BinIndex} (h : ix ≠ jx) (b : Bin) :
    binsGet (binsSet m ix b) jx = binsGet m jx := by
  induction m with
  | nil => unfold binsSet; split <;> simp [binsGet, h]
  | cons e m ih =>
    obtain ⟨k, c⟩ := e
    unfold binsSet
    split
    · rename_i hk; subst hk
      split <;> simp [binsGet, h]
    · split
      · split <;> simp [binsGet, h]
      · simp only [binsGet, ih]

/-- A read after a write gives the bin written. -/
theorem binsGet_set_same {m : Bins} (hm : binsWf m = true) (ix : BinIndex) (b : Bin) :
    binsGet (binsSet m ix b) ix = b := by
  induction m with
  | nil => unfold binsSet; split <;> simp_all [binsGet]
  | cons e m ih =>
    obtain ⟨k, c⟩ := e
    obtain ⟨hc, hab, hm⟩ := (binsWf_cons k c m).mp hm
    unfold binsSet
    split
    · rename_i hk; subst hk
      split
      · rename_i hb; rw [hb]; exact binsGet_of_above hab
      · simp [binsGet]
    · rename_i hk
      split
      · rename_i hlt
        split
        · rename_i hb
          rw [hb]
          have : binsAbove ix ((k, c) :: m) := by
            intro e he
            rcases List.mem_cons.mp he with rfl | he
            · exact hlt
            · exact Nat.lt_trans hlt (hab e he)
          exact binsGet_of_above this
        · simp [binsGet]
      · simp only [binsGet, hk, if_false]
        exact ih hm

theorem binsAbove_set {k : BinIndex} {m : Bins} (hm : binsAbove k m) {ix : BinIndex} (hk : k.toNat < ix.toNat)
    (b : Bin) : binsAbove k (binsSet m ix b) := by
  induction m with
  | nil => unfold binsSet; split <;> simp [binsAbove, hk]
  | cons e m ih =>
    obtain ⟨j, c⟩ := e
    have hj : k.toNat < j.toNat := hm (j, c) (by simp)
    have hm' : binsAbove k m := fun e he => hm e (by simp [he])
    have cons : ∀ {x : BinIndex × Bin} {r : Bins}, k.toNat < x.1.toNat → binsAbove k r → binsAbove k (x :: r) :=
      fun hx hr e he => (List.mem_cons.mp he).elim (fun h => h ▸ hx) (hr e)
    unfold binsSet
    split
    · split
      · exact hm'
      · exact cons hk hm'
    · split
      · split
        · exact cons hj hm'
        · exact cons hk (cons hj hm')
      · exact cons hj (ih hm')

/-- A write keeps the canonical form. -/
theorem binsWf_set {m : Bins} (hm : binsWf m = true) (ix : BinIndex) (b : Bin) : binsWf (binsSet m ix b) = true := by
  induction m with
  | nil => unfold binsSet; split <;> simp_all [binsWf]
  | cons e m ih =>
    obtain ⟨k, c⟩ := e
    obtain ⟨hc, hab, hm'⟩ := (binsWf_cons k c m).mp hm
    unfold binsSet
    split
    · rename_i hk; subst hk
      split
      · exact hm'
      · rename_i hb; exact (binsWf_cons _ _ _).mpr ⟨hb, hab, hm'⟩
    · rename_i hk
      split
      · rename_i hlt
        split
        · exact hm
        · rename_i hb
          refine (binsWf_cons _ _ _).mpr ⟨hb, ?_, hm⟩
          intro e he
          rcases List.mem_cons.mp he with rfl | he
          · exact hlt
          · exact Nat.lt_trans hlt (hab e he)
      · rename_i hlt
        have hne : k.toNat ≠ ix.toNat := fun h => hk (BitVec.eq_of_toNat_eq h)
        exact (binsWf_cons _ _ _).mpr ⟨hc, binsAbove_set hab (by omega) b, ih hm'⟩

/-- In canonical form equal contents are equal data. -/
theorem bins_ext {m n : Bins} (hm : binsWf m = true) (hn : binsWf n = true)
    (h : ∀ ix, binsGet m ix = binsGet n ix) : m = n := by
  induction m generalizing n with
  | nil =>
    cases n with
    | nil => rfl
    | cons e n =>
      obtain ⟨k, c⟩ := e
      have hk := h k
      simp [binsGet] at hk
      exact absurd hk.symm ((binsWf_cons _ _ _).mp hn).1
  | cons e m ih =>
    obtain ⟨k, b⟩ := e
    obtain ⟨hb, hab, hm'⟩ := (binsWf_cons _ _ _).mp hm
    cases n with
    | nil =>
      have hk := h k
      simp [binsGet] at hk
      exact absurd hk hb
    | cons e n =>
      obtain ⟨j, c⟩ := e
      obtain ⟨hc, hac, hn'⟩ := (binsWf_cons _ _ _).mp hn
      have aboveOf : ∀ {x y : BinIndex} {d : Bin} {r : Bins}, x.toNat < y.toNat → binsAbove y r →
          binsAbove x ((y, d) :: r) := by
        intro x y d r hxy hr e he
        rcases List.mem_cons.mp he with rfl | he
        · exact hxy
        · exact Nat.lt_trans hxy (hr e he)
      have hkj : k = j := by
        apply BitVec.eq_of_toNat_eq
        rcases Nat.lt_trichotomy k.toNat j.toNat with hlt | heq | hlt
        · have hk := h k
          rw [binsGet_of_above (aboveOf hlt hac)] at hk
          simp [binsGet] at hk
          exact absurd hk hb
        · exact heq
        · have hj := h j
          rw [binsGet_of_above (aboveOf hlt hab)] at hj
          simp [binsGet] at hj
          exact absurd hj.symm hc
      subst hkj
      have hbc : b = c := by simpa [binsGet] using h k
      subst hbc
      congr 1
      refine ih hm' hn' fun ix => ?_
      by_cases hix : k = ix
      · subst hix
        rw [binsGet_of_above hab, binsGet_of_above hac]
      · simpa [binsGet, hix] using h ix

/-- Reading a bin after writing one (R17). -/
theorem Large.bin_setBin {l : Large} (hl : binsWf l.bins = true) (ix jx : BinIndex) (b : Bin) :
    (l.setBin ix b).bin jx = if ix = jx then b else l.bin jx := by
  unfold Large.bin Large.setBin
  split
  · rename_i h; subst h; exact binsGet_set_same hl ix b
  · rename_i h; exact binsGet_set_other _ h b

@[simp] theorem Large.bin_setBin_other (l : Large) {ix jx : BinIndex} (h : ix ≠ jx) (b : Bin) :
    (l.setBin ix b).bin jx = l.bin jx := binsGet_set_other _ h b

/-! ### The used bit-sets -/

theorem binIndex_word_lt (ix : BinIndex) : ix.toNat / 64 < 64 := by
  have := ix.isLt; omega

/-- Setting a used bit sets that bit and no other (R243). -/
theorem Large.usedBit_setUsed (l : Large) (ix jx : BinIndex) :
    (l.setUsed ix).usedBit jx = (decide (ix = jx) || l.usedBit jx) := by
  have hj := binIndex_word_lt jx
  have hm : jx.toNat % 64 < 64 := Nat.mod_lt _ (by decide)
  have heq : ix = jx ↔ ix.toNat / 64 = jx.toNat / 64 ∧ ix.toNat % 64 = jx.toNat % 64 := by
    constructor
    · rintro rfl; exact ⟨rfl, rfl⟩
    · rintro ⟨h1, h2⟩; apply BitVec.eq_of_toNat_eq; omega
  unfold Large.usedBit Large.setUsed
  simp only [Vector.getElem?_setIfInBounds]
  by_cases h1 : ix.toNat / 64 = jx.toNat / 64
  · rw [if_pos h1, if_pos (by omega)]
    simp only [Option.getD_some, BitVec.getLsbD_or, BitVec.getLsbD_shiftLeft, hm, decide_true, Bool.true_and, h1]
    by_cases h2 : ix.toNat % 64 = jx.toNat % 64
    · have : ix = jx := heq.mpr ⟨h1, h2⟩
      simp [this]
    · have hne : ix ≠ jx := fun h => h2 (heq.mp h).2
      have hb : (1#64).getLsbD (jx.toNat % 64 - ix.toNat % 64) = false ∨ jx.toNat % 64 < ix.toNat % 64 := by
        by_cases hlt : jx.toNat % 64 < ix.toNat % 64
        · exact .inr hlt
        · left
          have : jx.toNat % 64 - ix.toNat % 64 ≠ 0 := by omega
          simp [BitVec.getLsbD_one, this]
      rcases hb with hb | hb <;> simp [hne, hb]
  · have hne : ix ≠ jx := fun h => h1 (heq.mp h).1
    rw [if_neg h1]
    simp [hne]

/-! ### Frames of condense and of adding a value -/

/-- A transfer into a small accumulator leaves Inf alone, may leave the overflow pattern in NaN, and counts one add
(R242). -/
theorem transferBin_frame (a : Small) (ix : BinIndex) (b : Bin) :
    (transferBin a ix b).inf = a.inf ∧
      ((transferBin a ix b).nan = a.nan ∨ (transferBin a ix b).nan = overflowNaN) ∧
      (transferBin a ix b).adds = (if a.adds = 0#32 then 2046#32 else a.adds) - 1#32 := by
  refine ⟨by simp [transferBin], ?_, by simp [transferBin, ensureRoom_adds]⟩
  simpa [transferBin] using ensureRoom_nan a

/-- What condense leaves in L.sacc (R236). -/
@[simp] theorem condense_sacc (l : Large) (ix : BinIndex) :
    (condense l ix).sacc = if (l.bin ix).live then transferBin l.sacc ix (l.bin ix) else l.sacc := by
  unfold condense; simp only; split <;> rfl

/-- condense keeps the canonical form. -/
theorem condense_wf {l : Large} (hl : binsWf l.bins = true) (ix : BinIndex) : binsWf (condense l ix).bins = true := by
  unfold condense; simp only; split <;> exact binsWf_set hl _ _

/-- condense leaves its bin live and empty and every other bin alone (R243). -/
theorem condense_bin {l : Large} (hl : binsWf l.bins = true) (ix jx : BinIndex) :
    (condense l ix).bin jx = if ix = jx then Bin.emptied else l.bin jx := by
  have h : ∀ a : Small, (({ l with sacc := a } : Large).setBin ix Bin.emptied).bin jx =
      if ix = jx then Bin.emptied else l.bin jx :=
    fun a => Large.bin_setBin (l := { l with sacc := a }) hl ix jx _
  unfold condense
  simp only [Large.setUsed_bin]
  split
  · exact h _
  · exact h l.sacc

/-- condense sets the used bit of its bin and no other (R243). -/
theorem condense_usedBit (l : Large) (ix jx : BinIndex) :
    (condense l ix).usedBit jx = (decide (ix = jx) || l.usedBit jx) := by
  unfold condense
  rw [Large.usedBit_setUsed]
  congr 1
  simp only [Large.setBin_usedBit]
  split <;> rfl

/-- What adding a value to L can do: the bin has room and takes it; or it is special and L.sacc's handler takes it; or
it is condensed and starts again with the value (R231, R232, R233). -/
theorem largeAddOne_cases (l : Large) (u : Word) :
    (((l.bin (binIndex u)).take u).live = true ∧
      largeAddOne l u = l.setBin (binIndex u) ((l.bin (binIndex u)).take u)) ∨
    (((l.bin (binIndex u)).take u).live = false ∧ binSpecial (binIndex u) = true ∧
      largeAddOne l u = { l with sacc := addInfNaN l.sacc u }) ∨
    (((l.bin (binIndex u)).take u).live = false ∧ binSpecial (binIndex u) = false ∧
      largeAddOne l u = (condense l (binIndex u)).setBin (binIndex u)
        (((condense l (binIndex u)).bin (binIndex u)).take u)) := by
  unfold largeAddOne specialOrCondense
  by_cases h : ((l.bin (binIndex u)).take u).live = true <;> by_cases hs : binSpecial (binIndex u) = true <;>
    simp [h, hs]

/-- Adding a value keeps the canonical form. -/
theorem largeAddOne_wf {l : Large} (hl : binsWf l.bins = true) (u : Word) : binsWf (largeAddOne l u).bins = true := by
  rcases largeAddOne_cases l u with ⟨_, h⟩ | ⟨_, _, h⟩ | ⟨_, _, h⟩ <;> rw [h]
  · exact binsWf_set hl _ _
  · exact hl
  · exact binsWf_set (condense_wf hl _) _ _

/-- A property of L that every condense keeps is kept by the scan of transfer_all (R244). -/
theorem transferGroup_induction {P : Large → Prop} (hP : ∀ l ix, P l → l.usedBit ix = true → P (condense l ix))
    (k n : Nat) {l : Large} (hl : P l) : P (transferGroup k n l) := by
  induction n generalizing l with
  | zero => exact hl
  | succ n ih =>
    unfold transferGroup
    simp only
    split
    · rename_i h; exact ih (hP _ _ hl h)
    · exact ih hl

theorem transferAll_induction {P : Large → Prop} (hP : ∀ l ix, P l → l.usedBit ix = true → P (condense l ix))
    {l : Large} (hl : P l) : P (transferAll l) := by
  have h : ∀ n, ∀ l, P l → P (transferGroups n l) := by
    intro n
    induction n with
    | zero => exact fun _ hl => hl
    | succ n ih =>
      intro l hl
      unfold transferGroups
      simp only
      split
      · exact ih _ hl
      · exact ih _ (transferGroup_induction hP _ _ hl)
  exact h 64 l hl

theorem transferAll_wf {l : Large} (hl : binsWf l.bins = true) : binsWf (transferAll l).bins = true :=
  transferAll_induction (P := fun l => binsWf l.bins = true) (fun _ ix h _ => condense_wf h ix) hl

@[simp] theorem largeAddAll_nil (l : Large) : largeAddAll l [] = l := rfl
@[simp] theorem largeAddAll_cons (l : Large) (u : Word) (us : List Word) :
    largeAddAll l (u :: us) = largeAddAll (largeAddOne l u) us := rfl
theorem largeAddAll_append (l : Large) (us vs : List Word) :
    largeAddAll l (us ++ vs) = largeAddAll (largeAddAll l us) vs := by
  simp [largeAddAll]

theorem largeAddAll_wf {l : Large} (hl : binsWf l.bins = true) (us : List Word) :
    binsWf (largeAddAll l us).bins = true := by
  induction us generalizing l with
  | nil => exact hl
  | cons u us ih => exact ih (largeAddOne_wf hl u)

end Sys2Proof.Machine
end

