-- ==== Sys2Proof/Laws/PerInstr.lean ====
section
/-! SUPPORT. The family `EncodedForm`: the words of each command are a command word of the opcode map and as many
operand words as R93 gives it. One lemma per constructor of Instr. -/

namespace Sys2Proof.Laws

/-- How many operand words a command has (R93). -/
def operandWords : Instr → Nat
  | .sInit => 0
  | .sAdd1 _ => 1
  | .sAddv v => 1 + v.length
  | .sSqnorm v => 1 + v.length
  | .sDot ab => 1 + 2 * ab.length
  | .sAddacc _ => 70
  | .sRound => 0
  | .sPropagate => 0
  | .sChunks => 0
  | .sStore => 0
  | .sLoad _ => 70
  | .lInit => 0
  | .lAdd1 _ => 1
  | .lAddv v => 1 + v.length
  | .lSqnorm v => 1 + v.length
  | .lDot ab => 1 + 2 * ab.length
  | .lAddsmall _ => 70
  | .lRound => 0
  | .lRoundToSmall => 0
  | .lChunks => 0

/-- The words of a command are a legal command word and its operand words (R91, R93). -/
def EncodedForm.Statement (i : Instr) : Prop :=
  ∃ w ws, encode i = w :: ws ∧ (opcodeMap.lookup w).isSome = true ∧ ws.length = operandWords i

theorem EncodedForm.sInit : EncodedForm.Statement .sInit :=
  ⟨_, _, rfl, by decide, rfl⟩
theorem EncodedForm.sAdd1 (x : Word) : EncodedForm.Statement (.sAdd1 x) :=
  ⟨_, _, rfl, by decide, rfl⟩
theorem EncodedForm.sAddv (v : List Word) : EncodedForm.Statement (.sAddv v) :=
  ⟨_, _, rfl, by decide, by simp [operandWords]; omega⟩
theorem EncodedForm.sSqnorm (v : List Word) : EncodedForm.Statement (.sSqnorm v) :=
  ⟨_, _, rfl, by decide, by simp [operandWords]; omega⟩
theorem EncodedForm.sDot (ab : List (Word × Word)) : EncodedForm.Statement (.sDot ab) :=
  ⟨_, _, rfl, by decide, by simp [operandWords]; omega⟩
theorem EncodedForm.sAddacc (x : Image) : EncodedForm.Statement (.sAddacc x) :=
  ⟨_, _, rfl, by decide, by simp [operandWords]⟩
theorem EncodedForm.sRound : EncodedForm.Statement .sRound :=
  ⟨_, _, rfl, by decide, rfl⟩
theorem EncodedForm.sPropagate : EncodedForm.Statement .sPropagate :=
  ⟨_, _, rfl, by decide, rfl⟩
theorem EncodedForm.sChunks : EncodedForm.Statement .sChunks :=
  ⟨_, _, rfl, by decide, rfl⟩
theorem EncodedForm.sStore : EncodedForm.Statement .sStore :=
  ⟨_, _, rfl, by decide, rfl⟩
theorem EncodedForm.sLoad (x : Image) : EncodedForm.Statement (.sLoad x) :=
  ⟨_, _, rfl, by decide, by simp [operandWords]⟩
theorem EncodedForm.lInit : EncodedForm.Statement .lInit :=
  ⟨_, _, rfl, by decide, rfl⟩
theorem EncodedForm.lAdd1 (x : Word) : EncodedForm.Statement (.lAdd1 x) :=
  ⟨_, _, rfl, by decide, rfl⟩
theorem EncodedForm.lAddv (v : List Word) : EncodedForm.Statement (.lAddv v) :=
  ⟨_, _, rfl, by decide, by simp [operandWords]; omega⟩
theorem EncodedForm.lSqnorm (v : List Word) : EncodedForm.Statement (.lSqnorm v) :=
  ⟨_, _, rfl, by decide, by simp [operandWords]; omega⟩
theorem EncodedForm.lDot (ab : List (Word × Word)) : EncodedForm.Statement (.lDot ab) :=
  ⟨_, _, rfl, by decide, by simp [operandWords]; omega⟩
theorem EncodedForm.lAddsmall (x : Image) : EncodedForm.Statement (.lAddsmall x) :=
  ⟨_, _, rfl, by decide, by simp [operandWords]⟩
theorem EncodedForm.lRound : EncodedForm.Statement .lRound :=
  ⟨_, _, rfl, by decide, rfl⟩
theorem EncodedForm.lRoundToSmall : EncodedForm.Statement .lRoundToSmall :=
  ⟨_, _, rfl, by decide, rfl⟩
theorem EncodedForm.lChunks : EncodedForm.Statement .lChunks :=
  ⟨_, _, rfl, by decide, rfl⟩

end Sys2Proof.Laws
end

