-- ==== Sys2Proof/Laws/Step.lean ====
section
/-! SUPPORT. One equation per arm of exec, what every command does to the streams, and the inversion of step: the three
things a step can be. -/

namespace Sys2Proof.Machine

theorem exec_sInit (s : State) : exec .sInit s = .next ((s.setSmall Small.reset).complete 0x01#8 []) := rfl
theorem exec_sAdd1 (x : Word) (s : State) :
    exec (.sAdd1 x) s = .next ((s.setSmall (smallAddOne s.small x)).complete 0x02#8 []) := rfl
theorem exec_sAddv (v : List Word) (s : State) :
    exec (.sAddv v) s = .next ((s.setSmall (smallAddAll s.small v)).complete 0x03#8 []) := rfl
theorem exec_sSqnorm (v : List Word) (s : State) :
    exec (.sSqnorm v) s =
      .next ((s.setSmall (smallAddAll s.small (v.map fun x => fmul64 x x))).complete 0x04#8 []) := rfl
theorem exec_sDot (ab : List (Word × Word)) (s : State) :
    exec (.sDot ab) s =
      .next ((s.setSmall (smallAddAll s.small (ab.map fun p => fmul64 p.1 p.2))).complete 0x05#8 []) := rfl
theorem exec_sAddacc (x : Image) (s : State) :
    exec (.sAddacc x) s = .next ((s.setSmall (smallAddOther s.small (imageRecv x))).complete 0x06#8 []) := rfl
theorem exec_sRound (s : State) :
    exec .sRound s = .next ((s.setSmall (roundSmall s.small).1).complete 0x07#8 [(roundSmall s.small).2]) := rfl
theorem exec_sPropagate (s : State) :
    exec .sPropagate s =
      .next ((s.setSmall (carryPropagate s.small).1).complete 0x08#8
        [BitVec.ofNat 64 (carryPropagate s.small).2]) := rfl
theorem exec_sChunks (s : State) :
    exec .sChunks s = .next (s.complete 0x09#8 [BitVec.ofNat 64 s.small.chunksUsed]) := rfl
theorem exec_sStore (s : State) : exec .sStore s = .next (s.complete 0x0A#8 (imageSend s.small)) := rfl
theorem exec_sLoad_of_range (x : Image) (s : State) (h : addsInRange x.adds = true) :
    exec (.sLoad x) s = .next ((s.setSmall (imageRecv x)).complete 0x0B#8 []) := if_pos h
theorem exec_sLoad_of_bad (x : Image) (s : State) (h : addsInRange x.adds = false) :
    exec (.sLoad x) s = .next (s.reject 0x0B#8 .badImage) :=
  if_neg (by simp [imageRecv, h])
theorem exec_lInit (s : State) : exec .lInit s = .next ((s.setLarge Large.reset).complete 0x11#8 []) := rfl
theorem exec_lAdd1 (x : Word) (s : State) :
    exec (.lAdd1 x) s = .next ((s.setLarge (largeAddOne s.large x)).complete 0x12#8 []) := rfl
theorem exec_lAddv (v : List Word) (s : State) :
    exec (.lAddv v) s = .next ((s.setLarge (largeAddAll s.large v)).complete 0x13#8 []) := rfl
theorem exec_lSqnorm (v : List Word) (s : State) :
    exec (.lSqnorm v) s =
      .next ((s.setLarge (largeAddAll s.large (v.map fun x => fmul64 x x))).complete 0x14#8 []) := rfl
theorem exec_lDot (ab : List (Word × Word)) (s : State) :
    exec (.lDot ab) s =
      .next ((s.setLarge (largeAddAll s.large (ab.map fun p => fmul64 p.1 p.2))).complete 0x15#8 []) := rfl
theorem exec_lAddsmall (x : Image) (s : State) :
    exec (.lAddsmall x) s =
      .next ((s.setLarge { s.large with sacc := smallAddOther s.large.sacc (imageRecv x) }).complete 0x16#8 []) := rfl
theorem exec_lRound (s : State) :
    exec .lRound s =
      .next ((s.setLarge { transferAll s.large with sacc := (roundSmall (transferAll s.large).sacc).1 }).complete 0x17#8
        [(roundSmall (transferAll s.large).sacc).2]) := rfl
theorem exec_lRoundToSmall (s : State) :
    exec .lRoundToSmall s =
      .next ((s.setLarge (transferAll s.large)).complete 0x18#8 (imageSend (transferAll s.large).sacc)) := rfl
theorem exec_lChunks (s : State) :
    exec .lChunks s = .next (s.complete 0x19#8 [BitVec.ofNat 64 s.large.binsLive]) := rfl

/-- No command touches the command stream, and every command only adds to the response stream (R77, R80). -/
theorem exec_streams {i : Instr} {s t : State} (h : exec i s = .next t) :
    t.pending = s.pending ∧ t.input = s.input ∧ ∃ ws, t.output = s.output ++ ws := by
  cases i with
  | sLoad x =>
    by_cases hx : addsInRange x.adds = true
    · rw [exec_sLoad_of_range x s hx] at h
      cases h
      exact ⟨rfl, rfl, _, State.complete_output ..⟩
    · rw [exec_sLoad_of_bad x s (by simpa using hx)] at h
      cases h
      exact ⟨rfl, rfl, _, rfl⟩
  | _ =>
    cases h
    exact ⟨rfl, rfl, _, State.complete_output ..⟩

/-- The three things a step can be (R96, R97, R106). -/
theorem step_cases {s t : State} (h : step s = .next t) :
    (∃ i rest, s.fetch = .command i rest ∧ exec i (s.consume rest) = .next t) ∨
    (∃ w rest, s.fetch = .illegal w rest ∧ t = s.rejectIllegal w rest) ∨
    (s.fetch = .held ∧ t = s.hold) := by
  unfold step at h
  split at h
  · rename_i i rest hf; exact .inl ⟨i, rest, hf, h⟩
  · rename_i w rest hf; cases h; exact .inr (.inl ⟨w, rest, hf, rfl⟩)
  · rename_i hf; cases h; exact .inr (.inr ⟨hf, rfl⟩)

end Sys2Proof.Machine
end

