-- ==== Sys2Proof/Laws/Sticky.lean ====
section
/-! SUPPORT. The Inf and NaN fields are sticky (R49): no command but S_INIT, L_INIT and S_LOAD clears one. -/

namespace Sys2Proof.Machine

/-- No flag field that is set in a is clear in b. -/
def Small.FlagsKept (a b : Small) : Prop := (a.inf ≠ 0#64 → b.inf ≠ 0#64) ∧ (a.nan ≠ 0#64 → b.nan ≠ 0#64)

theorem Small.FlagsKept.refl (a : Small) : a.FlagsKept a := ⟨id, id⟩

theorem Small.FlagsKept.trans {a b c : Small} (h : a.FlagsKept b) (k : b.FlagsKept c) : a.FlagsKept c :=
  ⟨k.1 ∘ h.1, k.2 ∘ h.2⟩

/-- Writing chunks and the counter clears no flag. -/
theorem Small.FlagsKept.of_eq {a b : Small} (hi : b.inf = a.inf) (hn : b.nan = a.nan) : a.FlagsKept b :=
  ⟨hi ▸ id, hn ▸ id⟩

/-- A word with a payload is not 0 without its sign. -/
theorem clear_sign_ne_zero {v : Word} (h : v &&& mantMask ≠ 0#64) : v &&& ~~~signMask ≠ 0#64 := by
  intro h0
  apply h
  have : v &&& mantMask = (v &&& ~~~signMask) &&& mantMask := by
    rw [BitVec.and_assoc, show ~~~signMask &&& mantMask = mantMask by decide]
  rw [this, h0, BitVec.zero_and]

/-- The handler clears no flag (R127, R128). -/
theorem addInfNaN_flagsKept (a : Small) (v : Word) : a.FlagsKept (addInfNaN a v) := by
  by_cases h : v &&& mantMask = 0#64
  · rw [addInfNaN_of_no_payload a h]
    refine ⟨fun ha => ?_, id⟩
    simp only [ha, if_false]
    split
    · exact ha
    · exact ne_zero_of_isNaN (isNaN_infCancelNaN v)
  · rw [addInfNaN_of_payload a h]
    refine ⟨id, fun ha => ?_⟩
    simp only
    split
    · exact clear_sign_ne_zero h
    · exact ha

theorem carryPropagate_flagsKept (a : Small) : a.FlagsKept (carryPropagate a).1 := by
  refine ⟨fun h => by simpa using h, fun h => ?_⟩
  rcases (carryPropagate_frame a).2.2 with hn | hn <;> rw [hn]
  · exact h
  · decide

theorem ensureRoom_flagsKept (a : Small) : a.FlagsKept (ensureRoom a) := by
  unfold ensureRoom
  split
  · exact carryPropagate_flagsKept a
  · exact .refl a

theorem smallAddOne_flagsKept (a : Small) (u : Word) : a.FlagsKept (smallAddOne a u) := by
  refine (ensureRoom_flagsKept a).trans ?_
  show (ensureRoom a).FlagsKept (addNoCarry (ensureRoom a) u)
  unfold addNoCarry
  simp only
  split
  · exact .refl _
  · exact addInfNaN_flagsKept _ _
  · exact .of_eq (addFinite_frame _ _).1 (addFinite_frame _ _).2.1
  · exact .of_eq (addFinite_frame _ _).1 (addFinite_frame _ _).2.1

theorem smallAddAll_flagsKept (a : Small) (us : List Word) : a.FlagsKept (smallAddAll a us) := by
  induction us generalizing a with
  | nil => exact .refl a
  | cons u us ih => exact (smallAddOne_flagsKept a u).trans (ih _)

theorem mergeFlag_flagsKept (a : Small) (v : Word) : a.FlagsKept (mergeFlag a v) := by
  unfold mergeFlag
  split
  · exact addInfNaN_flagsKept a v
  · exact .refl a

/-- A merge clears no flag, whatever words the image's flag fields hold (R49, R166). -/
theorem smallAddOther_flagsKept (a x : Small) : a.FlagsKept (smallAddOther a x) :=
  ((ensureRoom_flagsKept a).trans (mergeFlag_flagsKept _ x.inf)).trans (mergeFlag_flagsKept _ x.nan)

theorem roundSmall_flagsKept (a : Small) : a.FlagsKept (roundSmall a).1 := by
  rcases roundSmall_cases a with ⟨_, h⟩ | ⟨_, _, h⟩ | ⟨_, _, _, h⟩ | ⟨_, _, _, h⟩ <;> rw [h]
  · exact .refl a
  · exact .refl a
  · exact carryPropagate_flagsKept a
  · exact carryPropagate_flagsKept a

theorem transferBin_flagsKept (a : Small) (ix : BinIndex) (b : Bin) : a.FlagsKept (transferBin a ix b) :=
  (ensureRoom_flagsKept a).trans (.of_eq (by simp [transferBin]) (by simp [transferBin]))

theorem condense_flagsKept (l : Large) (ix : BinIndex) : l.sacc.FlagsKept (condense l ix).sacc := by
  rw [condense_sacc]
  split
  · exact transferBin_flagsKept _ _ _
  · exact .refl _

theorem largeAddOne_flagsKept (l : Large) (u : Word) : l.sacc.FlagsKept (largeAddOne l u).sacc := by
  rcases largeAddOne_cases l u with ⟨_, h⟩ | ⟨_, _, h⟩ | ⟨_, _, h⟩ <;> rw [h]
  · exact .refl _
  · exact addInfNaN_flagsKept _ _
  · exact condense_flagsKept l _

theorem largeAddAll_flagsKept (l : Large) (us : List Word) : l.sacc.FlagsKept (largeAddAll l us).sacc := by
  induction us generalizing l with
  | nil => exact .refl _
  | cons u us ih => exact (largeAddOne_flagsKept l u).trans (ih _)

theorem transferAll_flagsKept (l : Large) : l.sacc.FlagsKept (transferAll l).sacc :=
  transferAll_induction (P := fun m => l.sacc.FlagsKept m.sacc)
    (fun m ix h _ => h.trans (condense_flagsKept m ix)) (.refl _)

/-- No command but S_INIT and S_LOAD clears a flag of S, and none but L_INIT one of L.sacc (R49). -/
theorem exec_flagsKept {i : Instr} {s t : State} (h : exec i s = .next t) :
    (i ≠ .sInit → (∀ x, i ≠ .sLoad x) → s.small.FlagsKept t.small) ∧
    (i ≠ .lInit → s.large.sacc.FlagsKept t.large.sacc) := by
  cases i with
  | sLoad x =>
    refine ⟨fun _ hx => absurd rfl (hx x), fun _ => ?_⟩
    by_cases hx : addsInRange x.adds = true
    · rw [exec_sLoad_of_range x s hx] at h; cases h; exact .refl _
    · rw [exec_sLoad_of_bad x s (by simpa using hx)] at h; cases h; exact .refl _
  | sInit => cases h; exact ⟨fun hi => absurd rfl hi, fun _ => .refl _⟩
  | lInit => cases h; exact ⟨fun _ _ => .refl _, fun hi => absurd rfl hi⟩
  | sAdd1 x => cases h; exact ⟨fun _ _ => smallAddOne_flagsKept _ _, fun _ => .refl _⟩
  | sAddv v => cases h; exact ⟨fun _ _ => smallAddAll_flagsKept _ _, fun _ => .refl _⟩
  | sSqnorm v => cases h; exact ⟨fun _ _ => smallAddAll_flagsKept _ _, fun _ => .refl _⟩
  | sDot ab => cases h; exact ⟨fun _ _ => smallAddAll_flagsKept _ _, fun _ => .refl _⟩
  | sAddacc x => cases h; exact ⟨fun _ _ => smallAddOther_flagsKept _ _, fun _ => .refl _⟩
  | sRound => cases h; exact ⟨fun _ _ => roundSmall_flagsKept _, fun _ => .refl _⟩
  | sPropagate => cases h; exact ⟨fun _ _ => carryPropagate_flagsKept _, fun _ => .refl _⟩
  | sChunks => cases h; exact ⟨fun _ _ => .refl _, fun _ => .refl _⟩
  | sStore => cases h; exact ⟨fun _ _ => .refl _, fun _ => .refl _⟩
  | lAdd1 x => cases h; exact ⟨fun _ _ => .refl _, fun _ => largeAddOne_flagsKept _ _⟩
  | lAddv v => cases h; exact ⟨fun _ _ => .refl _, fun _ => largeAddAll_flagsKept _ _⟩
  | lSqnorm v => cases h; exact ⟨fun _ _ => .refl _, fun _ => largeAddAll_flagsKept _ _⟩
  | lDot ab => cases h; exact ⟨fun _ _ => .refl _, fun _ => largeAddAll_flagsKept _ _⟩
  | lAddsmall x => cases h; exact ⟨fun _ _ => .refl _, fun _ => smallAddOther_flagsKept _ _⟩
  | lRound =>
    cases h
    exact ⟨fun _ _ => .refl _, fun _ => (transferAll_flagsKept _).trans (roundSmall_flagsKept _)⟩
  | lRoundToSmall => cases h; exact ⟨fun _ _ => .refl _, fun _ => transferAll_flagsKept _⟩
  | lChunks => cases h; exact ⟨fun _ _ => .refl _, fun _ => .refl _⟩

end Sys2Proof.Machine
end

