-- ==== Sys2Proof/Machine/AsmText.lean ====
section
/-! DEFINITION. The characters of R104: one line of text, read as a command, a raw word, a pseudo-command of R105 or
nothing, and the words a program stands for. What R104 leaves open of the writing of numbers is fixed here (entry 19). -/

namespace Sys2Proof.Machine

/-- The mark that opens an image. -/
def openBrace : Char := Char.ofNat 123

/-- The mark that closes an image. -/
def closeBrace : Char := Char.ofNat 125

/-- A line up to its comment: a semicolon outside an image starts one (R104). -/
def stripComment : Bool → List Char → List Char
  | _, [] => []
  | inImage, c :: cs =>
    if c = ';' ∧ inImage = false then []
    else c :: stripComment (if c = openBrace then true else if c = closeBrace then false else inImage) cs

/-- The tokens of a line: words and marks. -/
inductive Token where
  | word (cs : List Char)
  | mark (c : Char)
  deriving DecidableEq, Repr

/-- The characters of a mnemonic, a name or a number. -/
def isWordChar (c : Char) : Bool := c.isAlphanum || c == '_' || c == '.' || c == '+' || c == '-'

/-- The marks of R104. -/
def isMark (c : Char) : Bool := c == '[' || c == ']' || c == ',' || c == ';' || c == openBrace || c == closeBrace

/-- The word read so far, in reverse, in front of further tokens. -/
def flushWord (cur : List Char) (ts : List Token) : List Token :=
  match cur with
  | [] => ts
  | c :: cs => .word (c :: cs).reverse :: ts

/-- The tokens of a line; none where it has a character that R104 does not use. -/
def tokenize : List Char → List Char → Option (List Token)
  | cur, [] => some (flushWord cur [])
  | cur, c :: cs =>
    if isWordChar c then tokenize (c :: cur) cs
    else if c = ' ' ∨ c = '\t' then (tokenize [] cs).map (flushWord cur)
    else if isMark c then (tokenize [] cs).map fun ts => flushWord cur (.mark c :: ts)
    else none

/-! ### Numbers -/

/-- Read every element, if every one can be read. -/
def readAll {α β : Type} (read : β → Option α) : List β → Option (List α)
  | [] => some []
  | w :: ws =>
    match read w, readAll read ws with
    | some a, some r => some (a :: r)
    | _, _ => none

/-- The decimal digits; a digit's place is its value. -/
def decimalDigits : List Char := "0123456789".toList

/-- The hexadecimal digits; a digit's place is its value. -/
def hexDigits : List Char := "0123456789abcdef".toList

/-- The number of one or more digits, each standing for its place in the list of digits. -/
def readNat (digits : List Char) (cs : List Char) : Option Nat :=
  if cs = [] then none
  else (readAll (fun c => digits.idxOf? c) cs).map fun ds => ds.foldl (fun n d => digits.length * n + d) 0

/-- The number of one or more hexadecimal digits, in capitals or small letters. -/
def readHex (cs : List Char) : Option Nat := readNat hexDigits (cs.map Char.toLower)

/-- An optional sign: whether it is a minus, and the characters after it. -/
def readSign : List Char → Bool × List Char
  | [] => (false, [])
  | c :: cs => if c = '-' then (true, cs) else if c = '+' then (false, cs) else (false, c :: cs)

/-- The characters before the first of some kind, and those after it if there is one. -/
def splitAtFirst (p : Char → Bool) : List Char → List Char × Option (List Char)
  | [] => ([], none)
  | c :: cs => if p c then ([], some cs) else ((splitAtFirst p cs).1.cons c, (splitAtFirst p cs).2)

/-- An integer with an optional sign. -/
def readInt (cs : List Char) : Option Int :=
  (readNat decimalDigits (readSign cs).2).map fun n => if (readSign cs).1 then -(n : Int) else (n : Int)

/-- A decimal literal: an optional sign, digits with an optional point, and an optional power of ten. -/
def readDecimal (cs : List Char) : Option Literal :=
  let (neg, cs) := readSign cs
  let (mantissa, power) := splitAtFirst (fun c => c == 'e' || c == 'E') cs
  let (whole, fraction) := splitAtFirst (· == '.') mantissa
  let fraction := fraction.getD []
  match readNat decimalDigits (whole ++ fraction), (match power with | none => some 0 | some p => readInt p) with
  | some digits, some e => some (.decimal neg digits (e - fraction.length))
  | _, _ => none

/-- The digits after 0x. -/
def afterHexPrefix : List Char → Option (List Char)
  | a :: b :: cs => if a = '0' ∧ b = 'x' then some cs else none
  | _ => none

/-- A binary64 operand: a 16-digit pattern or a decimal literal (R104). -/
def readLiteral (cs : List Char) : Option Literal :=
  match afterHexPrefix cs with
  | some h => if h.length = 16 then (readHex h).map fun n => .pattern (BitVec.ofNat 64 n) else none
  | none => readDecimal cs

/-- A word of an image or of a raw line: up to 16 hexadecimal digits, or an integer, negative in two's complement. -/
def readWord (cs : List Char) : Option Word :=
  match afterHexPrefix cs with
  | some h => if h.length ≤ 16 then (readHex h).map (BitVec.ofNat 64) else none
  | none => (readInt cs).bind fun n => if -(2 ^ 63) ≤ n ∧ n < 2 ^ 64 then some (BitVec.ofInt 64 n) else none

/-! ### Operands and lines -/

/-- One or more words with commas between them, and the tokens after them. -/
def readItems : List Token → Option (List (List Char) × List Token)
  | [] => none
  | .mark _ :: _ => none
  | [.word w] => some ([w], [])
  | .word w :: .word v :: ts => some ([w], .word v :: ts)
  | .word w :: .mark c :: ts =>
    if c = ',' then (readItems ts).map fun r => (w :: r.1, r.2) else some ([w], .mark c :: ts)

/-- A list in brackets, which may be empty, and the tokens after it (R104). -/
def readList (ts : List Token) : Option (List Literal × List Token) :=
  match ts with
  | .mark '[' :: .mark ']' :: rest => some ([], rest)
  | .mark '[' :: rest =>
    match readItems rest with
    | some (ws, .mark ']' :: rest) => (readAll readLiteral ws).map fun v => (v, rest)
    | _ => none
  | _ => none

/-- The inside of an image after its opening mark: c0, ..., c66 ; inf ; nan ; adds (R104). -/
def readImage (ts : List Token) : Option ImageText :=
  match readItems ts with
  | some (cs, [.mark ';', .word i, .mark ';', .word n, .mark ';', .word a, .mark close]) =>
    match readAll readWord cs, readWord i, readWord n, readWord a with
    | some chunks, some inf, some nan, some adds =>
      if close = closeBrace then some { chunks := chunks, inf := inf, nan := nan, adds := adds } else none
    | _, _, _, _ => none
  | _ => none

/-- The operands of a line (R104). -/
def readOperands (ts : List Token) : Option AsmOperands :=
  match ts with
  | [] => some .none
  | [.word w] => (readLiteral w).map .value
  | .word _ :: _ :: _ => none
  | .mark c :: rest =>
    if c = openBrace then (readImage rest).map .image
    else
      match readList ts with
      | some (v, []) => some (.vector v)
      | some (a, .mark ',' :: rest) =>
        match readList rest with
        | some (b, []) => some (.dot a b)
        | _ => none
      | _ => none

/-- What a line of text is. -/
inductive SourceLine where
  /-- an empty line, or a comment alone -/
  | blank
  /-- a command or a raw word -/
  | line (l : AsmLine)
  /-- a pseudo-command with the name of the right operand's instance (R105) -/
  | pseudo (p : Pseudo) (right : List Char)
  deriving DecidableEq, Repr

/-- The pseudo-commands with a second instance by name (R105). -/
def pseudoMap : List (List Char × Pseudo) :=
  [("L_ADDLARGE".toList, .lAddlarge), ("S_ADDL".toList, .sAddl), ("S_COPY".toList, .sCopy)]

/-- A line by its tokens (R104, R105). -/
def readTokens (ts : List Token) : Option SourceLine :=
  match ts with
  | [] => some .blank
  | .mark _ :: _ => none
  | .word m :: rest =>
    match pseudoMap.lookup m with
    | some p =>
      match rest with
      | [.word b] => some (.pseudo p b)
      | _ => none
    | none =>
      if m = ".word".toList then
        match rest with
        | [.word w] => (readWord w).map fun x => .line (.word x)
        | _ => none
      else (readOperands rest).map fun o => .line (.command (String.ofList m) o)

/-- A line of text (R104). -/
def readLine (text : List Char) : Option SourceLine := (tokenize [] (stripComment false text)).bind readTokens

/-- The stream words of a program for one instance, line by line; none where a line is not one of R104, or is a
pseudo-command, which needs a second instance. -/
def assembleText : List (List Char) → Option (List Word)
  | [] => some []
  | text :: more =>
    match readLine text, assembleText more with
    | some .blank, some ws => some ws
    | some (.line l), some ws => (assemble l).map (· ++ ws)
    | _, _ => none

end Sys2Proof.Machine
end

