-- ==== Sys2Proof/Tests/Slice0.lean ====
section
/-! SUPPORT. The model's own tests: the checks of WellFormed refuse, the words of every command decode, one step of each
command gives what the vectors of 95_test_vectors.md say, and a witness for every statement that has hypotheses. -/

namespace Sys2Proof.Tests

open Sys2Proof Sys2Proof.Machine

-- Many small kernel evaluations: one after another, so that they do not pile up as threads.
set_option Elab.async false

/-! ### Helpers -/

/-- The state a command leaves. -/
def after (i : Instr) (s : State) : State :=
  match exec i s with
  | .next t => t
  | .fault _ => s
  | .refused _ => s

/-- The words a command answers from a state that has answered none. -/
def answer (i : Instr) (s : State) : List Word := (after i s).output

/-- A small accumulator with these chunks, every other chunk 0. -/
def smallOf (cs : List (Nat × Word)) (adds : BitVec 32) : Small :=
  cs.foldl (fun a c => a.set c.1 c.2) { Small.reset with adds := adds }

/-- An image with these chunks and no flags. -/
def imageOf (cs : List (Nat × Word)) (adds : BitVec 32) : Image := (smallOf cs adds).image

/-- The reset state with another S. -/
def stateS (a : Small) : State := { State.reset with small := a }

/-- The reset state with another L. -/
def stateL (l : Large) : State := { State.reset with large := l }

/-- The nonzero chunks. -/
def nonzero (a : Small) : List (Nat × Word) :=
  (List.range 67).filterMap fun i => if a.get i = 0#64 then none else some (i, a.get i)

/-- Words of zeros. -/
def zeros (n : Nat) : List Word := List.replicate n 0#64

/-! ### The checks of WellFormed -/

/-- One element more than a length operand can count. -/
def overlong (x : Type) (e : x) : List x := List.replicate (2 ^ 64) e

theorem overlong_length (x : Type) (e : x) : (overlong x e).length = 2 ^ 64 := List.length_replicate

theorem test_wellFormed_refuses_sAddv : (Instr.sAddv (overlong Word 0#64)).wellFormed = false := by
  rw [Instr.wellFormed, overlong_length]; decide
theorem test_wellFormed_refuses_sSqnorm : (Instr.sSqnorm (overlong Word 0#64)).wellFormed = false := by
  rw [Instr.wellFormed, overlong_length]; decide
theorem test_wellFormed_refuses_sDot : (Instr.sDot (overlong (Word × Word) (0#64, 0#64))).wellFormed = false := by
  rw [Instr.wellFormed, overlong_length]; decide
theorem test_wellFormed_refuses_lAddv : (Instr.lAddv (overlong Word 0#64)).wellFormed = false := by
  rw [Instr.wellFormed, overlong_length]; decide
theorem test_wellFormed_refuses_lSqnorm : (Instr.lSqnorm (overlong Word 0#64)).wellFormed = false := by
  rw [Instr.wellFormed, overlong_length]; decide
theorem test_wellFormed_refuses_lDot : (Instr.lDot (overlong (Word × Word) (0#64, 0#64))).wellFormed = false := by
  rw [Instr.wellFormed, overlong_length]; decide
theorem test_wellFormed_accepts : (Instr.sDot [(1#64, 2#64)]).wellFormed = true := by decide

/-! ### Decoding, the words written out from the tables of R92 and R93 -/

theorem test_decode_sInit : decode [0x0000000000000001, 0x99] = .command .sInit [0x99] := by decide
theorem test_decode_sAdd1 :
    decode [0x0000000000000002, 0xBFF8000000000000] = .command (.sAdd1 0xBFF8000000000000) [] := by decide
theorem test_decode_sAddv :
    decode [0x0000000000000003, 2, 0x3FF0000000000000, 0xBFF0000000000000, 0x11] =
      .command (.sAddv [0x3FF0000000000000, 0xBFF0000000000000]) [0x11] := by decide
theorem test_decode_sSqnorm :
    decode [0x0000000000000004, 1, 0x4008000000000000] = .command (.sSqnorm [0x4008000000000000]) [] := by decide
theorem test_decode_sDot :
    decode [0x0000000000000005, 2, 1, 2, 3, 4, 5] = .command (.sDot [(1, 2), (3, 4)]) [5] := by decide
theorem test_decode_sAddacc :
    decode (0x0000000000000006 :: 9 :: zeros 66 ++ [6, 7, 0x00000001000007FE]) =
      .command (.sAddacc { chunk := (Vector.replicate 67 0#64).set 0 9, inf := 6, nan := 7, adds := 0x7FE, pad := 1 })
        [] := by decide
theorem test_decode_sRound : decode [0x0000000000000007] = .command .sRound [] := by decide
theorem test_decode_sPropagate : decode [0x0000000000000008] = .command .sPropagate [] := by decide
theorem test_decode_sChunks : decode [0x0000000000000009] = .command .sChunks [] := by decide
theorem test_decode_sStore : decode [0x000000000000000A] = .command .sStore [] := by decide
theorem test_decode_sLoad :
    decode (0x000000000000000B :: zeros 66 ++ [8, 0, 0, 0x1000, 0x0C]) =
      .command (.sLoad { chunk := (Vector.replicate 67 0#64).set 66 8, inf := 0, nan := 0, adds := 0x1000, pad := 0 })
        [0x0C] := by decide
theorem test_decode_lInit : decode [0x0000000000000011] = .command .lInit [] := by decide
theorem test_decode_lAdd1 :
    decode [0x0000000000000012, 0x7FF0000000000000, 3] = .command (.lAdd1 0x7FF0000000000000) [3] := by decide
theorem test_decode_lAddv : decode [0x0000000000000013, 0, 7] = .command (.lAddv []) [7] := by decide
theorem test_decode_lSqnorm : decode [0x0000000000000014, 3, 1, 2, 3] = .command (.lSqnorm [1, 2, 3]) [] := by decide
theorem test_decode_lDot :
    decode [0x0000000000000015, 1, 0x1A70000000000000, 0x3FE0000000000000] =
      .command (.lDot [(0x1A70000000000000, 0x3FE0000000000000)]) [] := by decide
theorem test_decode_lAddsmall :
    decode (0x0000000000000016 :: zeros 69 ++ [0xFFFFFFFF]) =
      .command (.lAddsmall { chunk := Vector.replicate 67 0#64, inf := 0, nan := 0, adds := 0xFFFFFFFF, pad := 0 })
        [] := by decide
theorem test_decode_lRound : decode [0x0000000000000017] = .command .lRound [] := by decide
theorem test_decode_lRoundToSmall : decode [0x0000000000000018] = .command .lRoundToSmall [] := by decide
theorem test_decode_lChunks : decode [0x0000000000000019] = .command .lChunks [] := by decide
/-- RSVD is compared (R91): 0x101 is not S_INIT; and the word after an illegal word is not its operand (R98). -/
theorem test_decode_reserved : decode [0x0000000000000102, 7] = .illegal 0x0000000000000102 [7] := by decide
theorem test_decodeTableWord : decodeTableWord 64 0x13 = some (.lAddv []) := by decide

/-! ### One step of each command, from the vectors of 95_test_vectors.md -/

/-- 8. Errors: the low byte is echoed. -/
theorem test_step_illegal :
    step (State.reset.hostSend [0x8000000000000007]) = .next { State.reset with output := [0x107] } := rfl
/-- 8. Errors: held inside S_ADDV. -/
theorem test_step_held :
    step (State.reset.hostSend [3, 2, 0x3FF0000000000000]) =
      .next { State.reset with pending := [3, 2, 0x3FF0000000000000] } := rfl
/-- 6: S_INIT gives the reset values. -/
theorem test_sInit : (after .sInit (stateS (smallOf [(3, 5)] 9))).small = Small.reset := by decide +kernel
/-- 2: 0.1. -/
theorem test_sAdd1_tenth : nonzero (after (.sAdd1 0x3FB999999999999A) State.reset).small =
    [(31, 0x00000000D0000000), (32, 0x0000CCCCCCCCCCCC)] := by decide +kernel
/-- 2: the most negative finite value. -/
theorem test_sAdd1_negative : nonzero (after (.sAdd1 0xFFEFFFFFFFFFFFFF) State.reset).small =
    [(63, 0xFFFFFFFF40000000), (64, 0xFFF8000000000001)] := by decide +kernel
/-- 4: the largest payload of two NaNs, sign cleared. -/
theorem test_sAddv_nans :
    (after (.sAddv [0x7FF8000000000003, 0xFFF8000000000005]) State.reset).small.nan = 0x7FF8000000000005 := by
  decide +kernel
/-- 6: S_LOAD at adds 0, S_ADD1 1.0 propagates first. -/
theorem test_sAddv_propagates_first :
    (after (.sAddv [0x3FF0000000000000]) (stateS (smallOf [(32, 0x0008000000000000)] 0))).small =
      smallOf [(32, 0x0008000000000000), (33, 0x0000000000080000)] 2045 := by decide +kernel
/-- 6: squares of 3.0 and 4.0, 9.0 and 16.0. -/
theorem test_sSqnorm :
    (after (.sSqnorm [0x4008000000000000, 0x4010000000000000]) State.reset).small.value = 25 * 2 ^ 1075 := by
  decide +kernel
/-- 6: 1.0 times 3.0 and 2.0 times -0.5 sum to 2.0. -/
theorem test_sDot :
    (after (.sDot [(0x3FF0000000000000, 0x4008000000000000), (0x4000000000000000, 0xBFE0000000000000)])
      State.reset).small.value = 2 * 2 ^ 1075 := by decide +kernel
/-- 6: the destination is propagated first, then the 2.0 image is added. -/
theorem test_sAddacc :
    (after (.sAddacc (imageOf [(33, 0x0000000000100000)] 2046)) (stateS (smallOf [(32, 0x0008000000000000)] 0))).small =
      smallOf [(33, 0x0000000000180000)] 2045 := by decide +kernel
/-- 6: an image's Inf field with a payload takes the NaN path. -/
theorem test_sAddacc_flags :
    (after (.sAddacc { imageOf [] 2046 with inf := 0xFFF8000000000000 })
      (stateS { smallOf [] 2046 with inf := 0x7FF0000000000000 })).small =
      { smallOf [] 2045 with inf := 0x7FF0000000000000, nan := 0x7FF8000000000000 } := by decide +kernel
/-- 5, row C1: -1.0, 2^-54, 2^-200. -/
theorem test_sRound_c1 :
    answer .sRound (after (.sAddv [0xBFF0000000000000, 0x3C90000000000000, 0x3370000000000000]) State.reset) =
      [3, 7, 0xBFEFFFFFFFFFFFFF] := by decide +kernel
/-- 5: a loaded -1.5 * 2^-1074, a tie. -/
theorem test_sRound_odd : answer .sRound (stateS (smallOf [(0, 0xFFFFFFFFFFFFFFFD)] 0)) = [7, 0x8000000000000002] := by
  decide +kernel
/-- 3: borrows ripple up. -/
theorem test_sPropagate_borrow :
    after .sPropagate (stateS (smallOf [(7, 0xFFFFFFFFFFFFFFFF), (8, 0xFFFFFFFFFFFFFFFF), (9, 0xFFFFFFFFFFFFFFFF)] 3)) =
      { stateS (smallOf [(7, 0xFFFFFFFF), (8, 0xFFFFFFFE), (9, 0xFFFFFFFFFFFFFFFE)] 2046) with output := [8, 9] } := by
  decide +kernel
/-- 3: a top -1 is moved down. -/
theorem test_sPropagate_top :
    after .sPropagate (stateS (smallOf [(3, 0xFFFFFFFFFFFFFFFF)] 3)) =
      { stateS (smallOf [(2, 0xFFFFFFFF00000000)] 2046) with output := [8, 2] } := by decide +kernel
/-- 6: two nonzero chunks. -/
theorem test_sChunks : answer .sChunks (stateS (smallOf [(0, 2), (1, 0x0000000000200000)] 1)) = [9, 2] := by
  decide +kernel
/-- 6: S_ADD1 1.0; S_STORE. -/
theorem test_sStore : answer .sStore (stateS (smallOf [(32, 0x0008000000000000)] 2046)) =
    0x0A :: zeros 32 ++ 0x0008000000000000 :: zeros 36 ++ [0x7FE] := by decide +kernel
/-- 6: adds 2048 is rejected. -/
theorem test_sLoad_rejects : after (.sLoad (imageOf [] 2048)) (stateS (smallOf [(1, 1)] 4)) =
    { stateS (smallOf [(1, 1)] 4) with output := [0x20B] } := by decide +kernel
/-- 6: the pad half is ignored. -/
theorem test_sLoad_pad : (after (.sLoad { imageOf [(9, 1)] 7 with pad := 0xABCD0000 }) State.reset).small =
    smallOf [(9, 1)] 7 := by decide +kernel
/-- 7: L_INIT gives the reset values. -/
theorem test_lInit : (after .lInit (after (.lAdd1 0x3FF0000000000000) State.reset)).large = Large.reset := by
  decide +kernel
/-- 7: the bin, the used bit and its summary. -/
theorem test_lAdd1 : (after (.lAdd1 0x3FF0000000000000) State.reset).large =
    { bins := [(0x3FF, { chunk := 0x3FF0000000000000, count := 4095 })]
      used := (Vector.replicate 64 0#64).set 15 0x8000000000000000
      usedUsed := 0x8000
      sacc := Small.reset } := by decide +kernel
/-- 7: an infinity leaves the bins and the counter alone. -/
theorem test_lAdd1_inf : (after (.lAdd1 0x7FF0000000000000) State.reset).large =
    { Large.reset with sacc := { Small.reset with inf := 0x7FF0000000000000 } } := by decide +kernel
/-- 7: two equal exponents share a bin. -/
theorem test_lAddv :
    (after (.lAddv [0x3FF0000000000000, 0x3FF0000000000000, 0x4008000000000000]) State.reset).large.bins =
      [(0x3FF, { chunk := 0x7FE0000000000000, count := 4094 }), (0x400, { chunk := 0x4008000000000000, count := 4095 })] := by
  decide +kernel
/-- Program P5: 9.0 and 16.0 go to bins 0x402 and 0x403, the overflowed square to L.sacc.Inf. -/
theorem test_lSqnorm :
    (after (.lSqnorm [0x6974E718D7D7625A, 0x4008000000000000, 0xC010000000000000]) State.reset).large.bins.map
      Prod.fst = [0x402, 0x403] := by decide +kernel
/-- Program P5: 2^-1200 underflows to +0.0, and -1.5 goes to bin 0xBFF. -/
theorem test_lDot :
    (after (.lDot [(0x1A70000000000000, 0x1A70000000000000), (0xC008000000000000, 0x3FE0000000000000)])
      State.reset).large.bins =
      [(0x000, { chunk := 0, count := 4095 }), (0xBFF, { chunk := 0xBFF8000000000000, count := 4095 })] := by
  decide +kernel
/-- 7: L_ADDSMALL with the 2.0 image. -/
theorem test_lAddsmall : (after (.lAddsmall (imageOf [(33, 0x0000000000100000)] 9)) State.reset).large.sacc =
    smallOf [(33, 0x0000000000100000)] 2046 := by decide +kernel
/-- 7: 4097 values of 1.0 as a full bin already condensed and one value more, rounded. -/
theorem test_lRound :
    answer .lRound (stateL { (after (.lAdd1 0x3FF0000000000000) State.reset).large with
      sacc := smallOf [(33, 0x0000000080000000)] 2046 }) = [0x17, 0x40B0010000000000] := by decide +kernel
/-- 7: -1.7976931348623157e308, three chunks. -/
theorem test_lRoundToSmall :
    nonzero (after .lRoundToSmall (after (.lAdd1 0xFFEFFFFFFFFFFFFF) State.reset)).large.sacc =
      [(63, 0xFFFFFFFF40000000), (64, 0xFFFFFFFF00000001), (65, 0xFFFFFFFFFFF80001)] := by decide +kernel
/-- 7: +0.0 and -0.0 occupy two bins. -/
theorem test_lChunks : answer .lChunks (after (.lAddv [0, 0x8000000000000000]) State.reset) = [0x13, 0x19, 2] := by
  decide +kernel
/-- The text of program P1 and its words. -/
theorem test_assembleText_p1 :
    assembleText ["S_INIT".toList, "S_ADDV [1e16, 1.0, -1e16]  ; cancels (exactly)".toList, "".toList,
      "S_CHUNKS".toList, "S_ROUND".toList] =
      some [1, 3, 3, 0x4341C37937E08000, 0x3FF0000000000000, 0xC341C37937E08000, 9, 7] := by decide +kernel
/-- A raw word and a dot product, whose lists are interleaved (R102); lists of two lengths are refused. -/
theorem test_assembleText_dot :
    assembleText [".word 0x000000000000000C ; illegal".toList, "L_DOT [0.5, -3], [0x3FF0000000000000, 0.1]".toList] =
      some [0x0C, 0x15, 2, 0x3FE0000000000000, 0x3FF0000000000000, 0xC008000000000000, 0x3FB999999999999A] ∧
    assembleText ["S_DOT [1.0], []".toList] = none := by decide +kernel
/-- Program P3: an image of zeros with adds 4096. -/
theorem test_assembleText_image :
    assembleText ["S_LOAD ".toList ++ openBrace :: (List.replicate 66 "0, ".toList).flatten ++ "0 ; 0 ; 0 ; 4096".toList ++
      [closeBrace] ++ "  ; bad adds".toList] = some (0x0B :: zeros 69 ++ [0x1000]) := by decide +kernel
/-- A pseudo-command names an instance. -/
theorem test_readLine_pseudo : readLine "S_COPY B".toList = some (.pseudo .sCopy ['B']) := by decide +kernel

/-! ### Witnesses: the hypotheses of each statement can be met together, each clause at a boundary value -/

/-- An L with an empty live bin, a bin with room for one value, a full bin and a negative bin. -/
def wLarge (n : BitVec 32) : Large :=
  { bins := [(0x000#12, { chunk := 0#64, count := 4096#16 }), (0x3FF#12, { chunk := 0xC010000000000000#64, count := 1#16 }),
      (0x400#12, { chunk := 5#64, count := 0#16 }), (0xBFE#12, { chunk := 0xBFE0000000000007#64, count := 4095#16 })]
    used := (((((Vector.replicate 64 0#64).set 0 1#64).set 15 (1#64 <<< 63)).set 16 1#64).set 47 (1#64 <<< 62))
    usedUsed := 0x0000800000018001#64
    sacc := { Small.reset with adds := n } }

/-- A state with that L, a nonzero S and a command waiting for its operand. -/
def wState (n : BitVec 32) : State :=
  { State.reset with small := { smallOf [(3, 7)] n with inf := posInf }, large := wLarge n, pending := [0x02#64] }

/-- A property of every element of a list, by evaluation. -/
theorem forall_of_all {α : Type} {p : α → Prop} [DecidablePred p] {l : List α}
    (h : (l.all fun a => decide (p a)) = true) : ∀ a ∈ l, p a := by simpa using h

/-- The bins of that L that are listed. -/
def wListed : List BinIndex := [0x000#12, 0x3FF#12, 0x400#12, 0xBFE#12]

/-- The words of its bit-set. -/
def wUsed (k : Nat) : Word :=
  if k = 0 then 1#64 else if k = 15 then 0x8000000000000000#64 else if k = 16 then 1#64
  else if k = 47 then 0x4000000000000000#64 else 0#64

theorem wLarge_used (n : BitVec 32) : ∀ k < 64, (wLarge n).used[k]?.getD 0#64 = wUsed k := by
  show ∀ k < 64, (wLarge 0#32).used[k]?.getD 0#64 = wUsed k
  decide +kernel

theorem wUsed_bits : ([0, 15, 16, 47].all fun k => (List.range 64).all fun b =>
    (wUsed k).getLsbD b == decide (BitVec.ofNat 12 (64 * k + b) ∈ wListed)) = true := by decide +kernel

theorem wListed_words : (wListed.all fun ix => decide (ix.toNat / 64 ∈ [0, 15, 16, 47])) = true := by decide +kernel

theorem wLarge_usedBit (n : BitVec 32) (ix : BinIndex) : (wLarge n).usedBit ix = decide (ix ∈ wListed) := by
  rw [Large.usedBit, wLarge_used n _ (by have := ix.isLt; omega)]
  by_cases hk : ix.toNat / 64 ∈ [0, 15, 16, 47]
  · have h := List.all_eq_true.mp wUsed_bits _ hk
    have h := List.all_eq_true.mp h (ix.toNat % 64) (List.mem_range.mpr (Nat.mod_lt _ (by decide)))
    rwa [Nat.div_add_mod, BitVec.ofNat_toNat, BitVec.setWidth_eq, beq_iff_eq] at h
  · have hx : ix ∉ wListed := fun h => hk (of_decide_eq_true (List.all_eq_true.mp wListed_words ix h))
    simp only [List.mem_cons, List.not_mem_nil, or_false, not_or] at hk
    rw [wUsed, if_neg hk.1, if_neg hk.2.1, if_neg hk.2.2.1, if_neg hk.2.2.2, decide_eq_false hx, BitVec.getLsbD_zero]

theorem wLarge_bin (n : BitVec 32) (ix : BinIndex) (h : ix ∉ wListed) : (wLarge n).bin ix = Bin.unused := by
  simp only [wListed, List.mem_cons, List.not_mem_nil, or_false, not_or] at h
  simp only [Large.bin, wLarge, binsGet]
  rw [if_neg (Ne.symm h.1), if_neg (Ne.symm h.2.1), if_neg (Ne.symm h.2.2.1), if_neg (Ne.symm h.2.2.2)]

/-- What the invariant asks of one bin. -/
def BinOk (ix : BinIndex) (b : Bin) : Prop :=
  (-1 ≤ b.count.toInt ∧ b.count.toInt ≤ 4096) ∧ (b.live = false → b.chunk = 0#64) ∧
    (binSpecial ix = true → b = Bin.unused) ∧ (b.live = decide (ix ∈ wListed)) ∧
    (b.live = true → ((fractionSum ix b).toNat : Int) ≤ (4096 - b.count.toInt) * (2 ^ 52 - 1))

theorem wListed_binOk : ∀ ix ∈ wListed, BinOk ix ((wLarge 0#32).bin ix) := by
  unfold BinOk; exact forall_of_all (by decide +kernel)

theorem wLarge_binOk (n : BitVec 32) (ix : BinIndex) : BinOk ix ((wLarge n).bin ix) := by
  by_cases h : ix ∈ wListed
  · exact wListed_binOk ix h
  · rw [wLarge_bin n ix h]
    exact ⟨by decide, fun _ => rfl, fun _ => rfl, by rw [decide_eq_false h]; decide, fun hl => absurd hl (by decide)⟩

theorem witness_Large_Inv (n : BitVec 32) (h : addsInRange n = true) : (wLarge n).Inv :=
  { canonical := by show binsWf (wLarge 0#32).bins = true; decide +kernel
    countRange := fun ix => (wLarge_binOk n ix).1
    idleChunk := fun ix => (wLarge_binOk n ix).2.1
    specialIdle := fun ix => (wLarge_binOk n ix).2.2.1
    usedLive := fun ix => by rw [wLarge_usedBit, (wLarge_binOk n ix).2.2.2.1]
    summary := fun k hk => by
      rw [wLarge_used n k hk]
      exact (by decide +kernel : ∀ k < 64, (0x0000800000018001#64).getLsbD k = (wUsed k != 0#64)) k hk
    fractions := fun ix => (wLarge_binOk n ix).2.2.2.2
    addsRange := h
    nanForm := .inl rfl }

theorem witness_State_Inv : (wState 0#32).Inv ∧ (wState 2047#32).Inv :=
  ⟨{ addsRange := by decide, large := witness_Large_Inv _ (by decide), pendingHeld := by decide },
   { addsRange := by decide, large := witness_Large_Inv _ (by decide), pendingHeld := by decide }⟩

theorem witness_DecodeOfEncode : (Instr.lDot [(1, 2)]).wellFormed = true ∧ (Instr.sAddv []).wellFormed = true := by decide

theorem witness_DecodeReadsItsEncoding : decode [5, 1, 2, 3, 9] = .command (.sDot [(2, 3)]) [9] := by decide

theorem witness_StepRunsTheDecodedCommand : (Instr.sAdd1 9).wellFormed = true ∧
    ((wState 0#32).hostSend [9, 7]).pending ++ ((wState 0#32).hostSend [9, 7]).input = encode (.sAdd1 9) ++ [7] := by decide

theorem witness_IllegalWordIsRejected_rejected :
    (∀ w ∈ [0x00#64, 0x0C#64, 0x10#64, 0x1A#64, 0x101#64, 0xFFFFFFFFFFFFFFFF#64], ¬ LegalCommandWord w) ∧
    (State.reset.hostSend [0x10, 5]).pending ++ (State.reset.hostSend [0x10, 5]).input = 0x10 :: [5] := by
  unfold LegalCommandWord; exact ⟨forall_of_all (by decide +kernel), rfl⟩

theorem witness_IllegalWordIsRejected_legal :
    ∀ w ∈ [0x01#64, 0x0B#64, 0x11#64, 0x19#64], LegalCommandWord w := by
  unfold LegalCommandWord; exact forall_of_all (by decide +kernel)

theorem witness_IncompleteCommandIsHeld :
    (Instr.sAddv [8, 9]).wellFormed = true ∧ 0 < (encode (.sAddv [8, 9])).length ∧
    3 < (encode (.sAddv [8, 9])).length ∧ State.reset.pending ++ State.reset.input = (encode (.sAddv [8, 9])).take 0 ∧
    (State.reset.hostSend [3, 2, 8]).pending ++ (State.reset.hostSend [3, 2, 8]).input =
      (encode (.sAddv [8, 9])).take 3 := by decide

theorem witness_LaterWordsDoNotMatter : decode ((wState 0#32).pending ++ ((wState 0#32).hostSend [9]).input) ≠ .held ∧
    step { wState 0#32 with input := [9] } = .next (after (.sAdd1 9) { wState 0#32 with pending := [], input := [] }) :=
  ⟨by decide, rfl⟩

theorem witness_StepKeepsTheInvariant : (wState 0#32).Inv ∧ step (wState 0#32) = .next (wState 0#32) :=
  ⟨witness_State_Inv.1, rfl⟩

theorem witness_EvenBottomChunkIsKept : (Instr.sLoad (imageOf [(0, 0xFFFFFFFFFFFFFFFE)] 0)).EvenImage ∧
    exec (.sLoad (imageOf [(0, 0xFFFFFFFFFFFFFFFE)] 0)) (wState 0#32) =
      .next (after (.sLoad (imageOf [(0, 0xFFFFFFFFFFFFFFFE)] 0)) (wState 0#32)) ∧
    (wState 0#32).small.EvenBottom ∧ (wState 0#32).large.sacc.EvenBottom :=
  ⟨by unfold Instr.EvenImage; decide +kernel, rfl, by unfold Small.EvenBottom; decide +kernel,
    by unfold Small.EvenBottom; decide +kernel⟩

theorem witness_UnitsAreIndependent :
    exec (.sAdd1 9) (wState 0#32) = .next (after (.sAdd1 9) (wState 0#32)) ∧
    exec (.sAdd1 9) { wState 0#32 with large := Large.reset } =
      .next (after (.sAdd1 9) { wState 0#32 with large := Large.reset }) ∧
    exec (.lAdd1 9) (wState 0#32) = .next (after (.lAdd1 9) (wState 0#32)) ∧
    exec (.lAdd1 9) { wState 0#32 with small := Small.reset } =
      .next (after (.lAdd1 9) { wState 0#32 with small := Small.reset }) ∧
    (Instr.sAdd1 9).unitL = false ∧ (Instr.lAdd1 9).unitL = true := ⟨rfl, rfl, rfl, rfl, by decide, by decide⟩

theorem witness_InfPathOfHandler : posInf.toNat % 2 ^ 52 = 0 ∧ isInf posInf = true ∧ Small.reset.inf = 0#64 ∧
    (wState 0#32).small.inf = posInf ∧ negInf.toNat % 2 ^ 52 = 0 ∧ isInf negInf = true ∧
    (wState 0#32).small.inf ≠ 0#64 ∧ (wState 0#32).small.inf ≠ negInf ∧ (wState 0#32).small.nan = 0#64 := by
  decide +kernel

/-- R49, R126: a crafted image, whose Inf field is no infinity, cancels Inf to a NaN; it does not clear it. -/
theorem test_merge_crafted_inf_keeps_flag :
    isNaN (smallAddOther (wState 0#32).small { Small.reset with inf := 0x0010000000000000#64 }).inf = true :=
  isNaN_infCancelNaN _

theorem witness_NaNPathOfHandler : (0xFFF0000000000001#64).toNat % 2 ^ 52 ≠ 0 ∧
    (0x7FF0000000000001#64).toNat % 2 ^ 52 ≤ (0xFFF0000000000001#64).toNat % 2 ^ 52 ∧
    (0xFFF0000000000001#64).toNat % 2 ^ 52 < (0x7FF0000000000002#64).toNat % 2 ^ 52 ∧
    isNaN 0xFFF0000000000001#64 = true ∧ isNaN 0x7FF0000000000001#64 = true ∧ signBit 0x7FF0000000000001#64 = false ∧
    frac 0xFFF0000000000001#64 = frac 0x7FF0000000000001#64 ∧ Small.reset.nan = 0#64 := by decide +kernel

theorem witness_FlagsDoNotDependOnOrder :
    (∀ v ∈ [posInf, negInf, 0xFFF8000000000002#64], isInf v = true ∨ isNaN v = true) ∧
    (∃ v ∈ [posInf, negInf, 0xFFF8000000000002#64], isNaN v = true) ∧
    (∀ v ∈ [posInf], isNaN v = false) ∧ posInf ∉ [negInf] ∧ negInf ∉ [posInf] ∧
    posInf ∈ [posInf, negInf, 0xFFF8000000000002#64] ∧ negInf ∈ [posInf, negInf, 0xFFF8000000000002#64] ∧
    [posInf, negInf].Perm [negInf, posInf] :=
  ⟨forall_of_all (by decide +kernel), ⟨0xFFF8000000000002#64, by simp, by decide⟩, forall_of_all (by decide +kernel),
    by decide, by decide, by simp, by simp, List.Perm.swap _ _ _⟩

theorem witness_ProductIsCorrectlyRounded :
    isNaN 0x7FF0000000000001#64 = true ∧ (isInf negInf = true ∧ isZero signMask = true) ∧
    isNaN negInf = false ∧ isNaN 1#64 = false ∧ isZero 1#64 = false ∧
    isFinite 0x7FEFFFFFFFFFFFFF#64 = true ∧ isFinite 0x8000000000000001#64 = true := by decide +kernel

/-- (2^27 - 1) and (2^27 + 1) 2^970: the product is the overflow threshold itself. -/
theorem witness_ProductCorners : isNaN (fmul64 1#64 1#64) = false ∧ isZero signMask = true ∧
    isFinite 0x7FEFFFFFFFFFFFFF#64 = true ∧ isFinite 0x419FFFFFFC000000#64 = true ∧ isFinite 0x7E40000002000000#64 = true ∧
    overflowUnits * 2 ^ 1075 = |unitsOf 0x419FFFFFFC000000#64 * unitsOf 0x7E40000002000000#64| := by decide +kernel

theorem witness_WhenAValueRoundsToZero : (1 : Int) ≠ 0 ∧ (-1 : Int) ≠ 0 ∧ isZero (rne64 1) = true ∧
    isZero (rne64 2) = false := by decide +kernel

theorem witness_SRoundAnswers :
    ({ smallOf [(0, 1)] 0 with nan := 0x7FF0000000000001 } : Small).nan ≠ 0#64 ∧
    (wState 0#32).small.nan = 0#64 ∧ (wState 0#32).small.inf ≠ 0#64 ∧
    (smallOf [(3, 7)] 0).nan = 0#64 ∧ (smallOf [(3, 7)] 0).inf = 0#64 ∧ (smallOf [(3, 7)] 0).Carriable ∧
    (smallOf [(32, 0x7FF0000100000000)] 0).nan = 0#64 ∧ (smallOf [(32, 0x7FF0000100000000)] 0).inf = 0#64 ∧
    (smallOf [(32, 0x7FF0000100000000)] 0).Roomy ∧
    (carryPropagate (smallOf [(32, 0x7FF0000100000000)] 0)).1.nan = 0#64 ∧
    (carryPropagate (smallOf [(66, 0x10000000000)] 0)).1.nan ≠ 0#64 := by
  unfold Small.Carriable Small.Roomy Small.Bounded Small.NoWrap; decide +kernel

theorem witness_SRoundIsIdempotent : exec .sRound (stateS (smallOf [(32, 1)] 3)) =
      .next (after .sRound (stateS (smallOf [(32, 1)] 3))) ∧
    exec .sRound (after .sRound (stateS (smallOf [(32, 1)] 3))) =
      .next (after .sRound (after .sRound (stateS (smallOf [(32, 1)] 3)))) := ⟨rfl, rfl⟩

/-- The largest chunk that 2047 adds can leave is within the room; the bounds of a chunk that takes a carry. -/
theorem witness_PropagationKeepsTheValue :
    (smallOf [(32, 0x7FF0000100000000)] 0).Roomy ∧ (smallOf [(32, 0x800FFFFF00000000)] 0).Roomy ∧
    (smallOf [(66, 0x100000000)] 2047).Roomy ∧
    (carryPropagate (smallOf [(32, 0x7FF0000100000000)] 0)).1.nan ≠ 0x7FFFFFFFFFFFFFFF#64 ∧
    (smallOf [(0, 0x7FFFFFFEFFFFFFFF), (1, 0x8000000100000001), (66, 0x7FFFFFFF)] 0).Carriable := by
  unfold Small.Carriable Small.Roomy Small.Bounded Small.NoWrap; decide +kernel

theorem witness_CarryOutOfTheTopChunk :
    (∀ j < 66, (smallOf [(66, 0x100000000)] 0).get j = 0#64) ∧
    ¬(-(2 ^ 32) ≤ ((smallOf [(66, 0x100000000)] 0).get 66).toInt ∧
      ((smallOf [(66, 0x100000000)] 0).get 66).toInt < 2 ^ 32) ∧
    (∀ j < 66, (smallOf [(66, 0xFFFFFFFEFFFFFFFF)] 0).get j = 0#64) ∧
    ¬(-(2 ^ 32) ≤ ((smallOf [(66, 0xFFFFFFFEFFFFFFFF)] 0).get 66).toInt ∧
      ((smallOf [(66, 0xFFFFFFFEFFFFFFFF)] 0).get 66).toInt < 2 ^ 32) ∧ 66 < 67 := by decide +kernel

/-- The value divided by 2^2112 at both bounds of chunk 66, and one past each, with a carry from below. -/
theorem witness_CarryOutOfTheTopChunk_bounds :
    (smallOf [(65, 0x100000000), (66, 0xFFFFFFFE)] 0).NoWrap ∧
    (smallOf [(65, 0x100000000), (66, 0xFFFFFFFE)] 0).value / 2 ^ 2112 = 2 ^ 32 - 1 ∧
    (smallOf [(65, 0x100000000), (66, 0xFFFFFFFF)] 0).NoWrap ∧
    (smallOf [(65, 0x100000000), (66, 0xFFFFFFFF)] 0).value / 2 ^ 2112 = 2 ^ 32 ∧
    (smallOf [(66, 0xFFFFFFFF00000000)] 0).NoWrap ∧
    (smallOf [(66, 0xFFFFFFFF00000000)] 0).value / 2 ^ 2112 = -(2 ^ 32) ∧
    (smallOf [(65, 0xFFFFFFFFFFFFFFFF), (66, 0xFFFFFFFF00000000)] 0).NoWrap ∧
    (smallOf [(65, 0xFFFFFFFFFFFFFFFF), (66, 0xFFFFFFFF00000000)] 0).value / 2 ^ 2112 = -(2 ^ 32) - 1 := by
  unfold Small.NoWrap; decide +kernel

theorem witness_SPropagateNormalizes : (smallOf [(32, 0x7FF0000100000000)] 0).Roomy ∧
    (after .sPropagate (stateS (smallOf [(32, 0x7FF0000100000000)] 0))).small.nan ≠ 0x7FFFFFFFFFFFFFFF#64 := by
  unfold Small.Roomy Small.Bounded; decide +kernel

theorem witness_SAdd1AddsTwoParts : State.reset.small.adds ≠ 0#32 ∧ isFinite 0x000FFFFFFFFFFFFF#64 = true ∧
    isFinite 0xFFEFFFFFFFFFFFFF#64 = true ∧ (stateS (smallOf [] 1)).small.adds ≠ 0#32 := by decide +kernel

theorem witness_SAdd1OfSpecials : isFinite negInf = false ∧ isFinite 0xFFF0000000000001#64 = false ∧
    (stateS (smallOf [] 1)).small.adds ≠ 0#32 ∧ isInf negInf = true ∧ isNaN 0xFFF0000000000001#64 = true := by
  decide +kernel

theorem witness_SAdd1PropagatesFirst : (stateS (smallOf [(32, 0x3FF8000000000000)] 0)).small.adds = 0#32 := by
  decide +kernel

theorem witness_SVectorCommandsAddInOrder :
    exec (.sAddv ([1] ++ [2])) State.reset = .next (after (.sAddv [1, 2]) State.reset) ∧
    exec (.sAddv [1]) State.reset = .next (after (.sAddv [1]) State.reset) ∧
    exec (.sAdd1 2) (after (.sAddv [1]) State.reset) = .next (after (.sAdd1 2) (after (.sAddv [1]) State.reset)) :=
  ⟨rfl, rfl, rfl⟩

theorem witness_SAddaccMergesAnImage : State.reset.small.adds ≠ 0#32 ∧ (wState 0#32).small.adds = 0#32 ∧
    exec (.sAddacc { imageOf [(66, 1)] 9 with adds := 0xFFFFFFFF, pad := 1 }) State.reset =
      .next (after (.sAddacc { imageOf [(66, 1)] 9 with adds := 0xFFFFFFFF, pad := 1 }) State.reset) := ⟨by decide, by decide, rfl⟩

theorem witness_SLoadLoadsOrRejects :
    (0 ≤ (imageOf [] 0).adds.toInt ∧ (imageOf [] 0).adds.toInt ≤ 2047) ∧
    (0 ≤ (imageOf [] 2047).adds.toInt ∧ (imageOf [] 2047).adds.toInt ≤ 2047) ∧
    (imageOf [] 0xFFFFFFFF).adds.toInt < 0 ∧ 2047 < (imageOf [] 2048).adds.toInt := by decide +kernel

theorem witness_SAdd1IsExact : (smallOf [(66, 0xFFFFFFFF)] 0).Roomy ∧ State.reset.small.Roomy ∧
    State.reset.small.adds.toInt = 2047 ∧ isFinite 0x7FEFFFFFFFFFFFFF#64 = true ∧
    (after (.sAdd1 0x7FEFFFFFFFFFFFFF) (stateS (smallOf [(66, 0xFFFFFFFF)] 0))).small.nan = 0#64 := by
  unfold Small.Roomy Small.Bounded; decide +kernel

theorem witness_SSumIsCorrectlyRounded :
    (∀ x ∈ [0x3FF0000000000000#64, 0xBFB999999999999A#64], isFinite x = true) ∧
    exec (.sAddv [0x3FF0000000000000#64, 0xBFB999999999999A#64]) State.reset =
      .next (after (.sAddv [0x3FF0000000000000#64, 0xBFB999999999999A#64]) State.reset) ∧
    exec .sRound (after (.sAddv [0x3FF0000000000000#64, 0xBFB999999999999A#64]) State.reset) =
      .next (after .sRound (after (.sAddv [0x3FF0000000000000#64, 0xBFB999999999999A#64]) State.reset)) ∧
    (after .sRound (after (.sAddv [0x3FF0000000000000#64, 0xBFB999999999999A#64]) State.reset)).small.nan = 0#64 :=
  ⟨forall_of_all (by decide +kernel), rfl, rfl, by decide +kernel⟩

/-- An image with chunks at both bounds, and its merges into an S and an L.sacc with no add left. -/
def wImage : Image := imageOf [(0, 0xFFFFFFFFFFFFF), (66, 0xFFF0000000000001)] 3

theorem witness_SmallMergeIsExact : (smallOf [(5, 9)] 0).Roomy ∧ State.reset.small.Roomy ∧
    (∀ i (h : i < 67), |wImage.chunk[i].toInt| < 2 ^ 52) ∧ wImage.inf = 0#64 ∧ wImage.nan = 0#64 ∧
    (after (.sAddacc wImage) (stateS (smallOf [(5, 9)] 0))).small.nan = 0#64 ∧
    (after (.lAddsmall wImage) (stateL { Large.reset with sacc := smallOf [(5, 9)] 0 })).large.sacc.nan = 0#64 := by
  unfold Small.Roomy Small.Bounded; decide +kernel

theorem witness_LAdd1FillsItsBin : (wState 0#32).large.Inv ∧ isFinite posInf = false ∧
    isFinite 0x3FF0000000000001#64 = true ∧
    ((wState 0#32).large.bin (binIndex 0x3FF0000000000001#64)).count.toInt = 1 ∧
    ((wState 0#32).large.bin (binIndex 0x4010000000000000#64)).count.toInt = -1 ∧
    ((wState 0#32).large.bin (binIndex 0x4000000000000000#64)).count.toInt = 0 :=
  ⟨witness_Large_Inv _ (by decide), by decide +kernel, by decide +kernel, by decide +kernel, by decide +kernel,
    by decide +kernel⟩

theorem witness_LVectorCommandsAddInOrder :
    exec (.lAddv ([1] ++ [2])) State.reset = .next (after (.lAddv [1, 2]) State.reset) ∧
    exec (.lAddv [1]) State.reset = .next (after (.lAddv [1]) State.reset) ∧
    exec (.lAdd1 2) (after (.lAddv [1]) State.reset) = .next (after (.lAdd1 2) (after (.lAddv [1]) State.reset)) :=
  ⟨rfl, rfl, rfl⟩

/-- A subnormal, a full, and a negative bin. -/
theorem witness_CondenseAddsThreeChunks : (wLarge 1#32).Inv ∧
    (∀ ix ∈ [0x000#12, 0x3FF#12, 0x400#12, 0xBFE#12], binSpecial ix = false ∧ ((wLarge 1#32).bin ix).live = true) ∧
    (wLarge 1#32).sacc.adds ≠ 0#32 := ⟨witness_Large_Inv _ (by decide), forall_of_all (by decide +kernel), by decide⟩

theorem witness_CondenseKeepsTheValue : (wLarge 0#32).Inv ∧ (wLarge 0#32).sacc.Bounded ∧
    (∀ ix ∈ [0x000#12, 0x400#12, 0xBFE#12, 0x401#12, 0x7FE#12], binSpecial ix = false ∧
      (condense (wLarge 0#32) ix).sacc.nan = 0#64) :=
  ⟨witness_Large_Inv _ (by decide), by unfold Small.Bounded; decide +kernel, forall_of_all (by decide +kernel)⟩

theorem witness_LAdd1IsExact : (wState 0#32).large.Inv ∧ (wState 0#32).large.sacc.Bounded ∧
    isFinite 0x4000000000000000#64 = true ∧
    exec (.lAdd1 0x4000000000000000) (wState 0#32) = .next (after (.lAdd1 0x4000000000000000) (wState 0#32)) ∧
    (after (.lAdd1 0x4000000000000000) (wState 0#32)).large.sacc.nan = 0#64 :=
  ⟨witness_Large_Inv _ (by decide), by unfold Small.Bounded; decide +kernel, by decide, rfl, by decide +kernel⟩

/-- The three answers of L_ROUND: the rounded sum, the NaN field, the Inf field. -/
theorem witness_LRoundAnswers : (wState 0#32).large.Inv ∧ (wState 0#32).large.sacc.Bounded ∧
    (after .lRound (wState 0#32)).large.sacc.nan = 0#64 ∧ (after .lRound (wState 0#32)).large.sacc.inf = 0#64 ∧
    (after .lRound (stateL { Large.reset with sacc := { Small.reset with nan := 0x7FF0000000000001 } })).large.sacc.nan ≠
      0#64 ∧
    (after .lRound (stateL { Large.reset with sacc := { Small.reset with inf := posInf } })).large.sacc.inf ≠ 0#64 ∧
    (after .lRound (stateL { Large.reset with sacc := { Small.reset with inf := posInf } })).large.sacc.nan = 0#64 :=
  ⟨witness_Large_Inv _ (by decide), by unfold Small.Bounded; decide +kernel, by decide +kernel, by decide +kernel,
    by decide +kernel, by decide +kernel, by decide +kernel⟩

theorem witness_LSumIsCorrectlyRounded :
    (∀ x ∈ [0x3FF0000000000000#64, 0xBFB999999999999A#64], isFinite x = true) ∧
    exec (.lAddv [0x3FF0000000000000#64, 0xBFB999999999999A#64]) State.reset =
      .next (after (.lAddv [0x3FF0000000000000#64, 0xBFB999999999999A#64]) State.reset) ∧
    exec .lRound (after (.lAddv [0x3FF0000000000000#64, 0xBFB999999999999A#64]) State.reset) =
      .next (after .lRound (after (.lAddv [0x3FF0000000000000#64, 0xBFB999999999999A#64]) State.reset)) ∧
    (after .lRound (after (.lAddv [0x3FF0000000000000#64, 0xBFB999999999999A#64]) State.reset)).large.sacc.nan = 0#64 :=
  ⟨forall_of_all (by decide +kernel), rfl, rfl, by decide +kernel⟩

theorem witness_LRoundTwiceAnswersTheSame : (wState 0#32).large.Inv ∧
    exec .lRound (wState 0#32) = .next (after .lRound (wState 0#32)) ∧
    (after .lRound (wState 0#32)).large.sacc.nan = 0#64 ∧ (after .lRound (wState 0#32)).large.sacc.inf = 0#64 ∧
    exec .lRound (after .lRound (wState 0#32)) = .next (after .lRound (after .lRound (wState 0#32))) :=
  ⟨witness_Large_Inv _ (by decide), rfl, witness_LRoundAnswers.2.2.1, witness_LRoundAnswers.2.2.2.1, rfl⟩

/-- That L with an infinity and a NaN in L.sacc. -/
def wFlagged : Large :=
  { wLarge 5#32 with sacc := { Small.reset with inf := posInf, nan := 0x7FF0000000000001#64, adds := 5#32 } }

theorem wFlagged_inv : wFlagged.Inv :=
  have h := witness_Large_Inv 5#32 (by decide)
  { canonical := h.canonical, countRange := h.countRange, idleChunk := h.idleChunk, specialIdle := h.specialIdle,
    usedLive := h.usedLive, summary := h.summary, fractions := h.fractions, addsRange := by decide,
    nanForm := .inr (by decide) }

/-- The same from that L: no propagation of the second L_ROUND overflows. -/
theorem witness_LRoundTwiceAnswersTheSame_flags : wFlagged.Inv ∧
    (after .lRound (after .lRound (stateL wFlagged))).large.sacc.nan = (after .lRound (stateL wFlagged)).large.sacc.nan ∧
    (after .lRound (stateL wFlagged)).large.sacc.nan ≠ 0#64 ∧
    (after .lRound (stateL wFlagged)).large.sacc.inf ≠ 0#64 :=
  ⟨wFlagged_inv, by decide +kernel, by decide +kernel, by decide +kernel⟩

theorem witness_LRoundToSmallSendsSacc : (wState 0#32).large.Inv := witness_Large_Inv _ (by decide)

theorem witness_RoundToSmallThenRoundIsRound : (wState 0#32).large.Inv ∧
    exec .lRoundToSmall (wState 0#32) = .next (after .lRoundToSmall (wState 0#32)) ∧
    (∃ h', exec (.sLoad (answeredImage (wState 0#32) (after .lRoundToSmall (wState 0#32)))) State.reset = .next h' ∧
      exec .sRound h' = .next (after .sRound h')) ∧
    exec .lRound (wState 0#32) = .next (after .lRound (wState 0#32)) := by
  refine ⟨witness_Large_Inv _ (by decide), rfl, ?_, rfl⟩
  have hx : ∀ x, ∃ h', exec (.sLoad x) State.reset = .next h' := fun x => by
    by_cases h : addsInRange x.adds = true
    · exact ⟨_, exec_sLoad_of_range x _ h⟩
    · exact ⟨_, exec_sLoad_of_bad x _ (by simpa using h)⟩
  obtain ⟨h', e⟩ := hx (answeredImage (wState 0#32) (after .lRoundToSmall (wState 0#32)))
  exact ⟨h', e, rfl⟩

/-- An accepted and a rejected command, at the bounds of the counter. -/
theorem witness_EveryCommandAnswersOnce :
    (0 ≤ (imageOf [] 2047).adds.toInt ∧ (imageOf [] 2047).adds.toInt ≤ 2047) ∧
    (∃ x, Instr.sLoad (imageOf [] 2048) = .sLoad x ∧ ¬(0 ≤ x.adds.toInt ∧ x.adds.toInt ≤ 2047)) :=
  ⟨by decide +kernel, _, rfl, by decide +kernel⟩

theorem witness_LChunksCountsLiveBins : (wState 2047#32).large.Inv := witness_Large_Inv _ (by decide)

theorem witness_LAddsmallMergesAnImage : (wState 1#32).large.sacc.adds ≠ 0#32 ∧
    (wState 0#32).large.sacc.adds = 0#32 ∧
    exec (.lAddsmall { imageOf [(66, 1)] 9 with adds := 0xFFFFFFFF, pad := 1 }) State.reset =
      .next (after (.lAddsmall { imageOf [(66, 1)] 9 with adds := 0xFFFFFFFF, pad := 1 }) State.reset) := ⟨by decide, by decide, rfl⟩

theorem witness_AssembledLineIsOneCommand :
    assemble (.command "L_DOT" (.dot [.pattern 8] [.pattern 9])) = some [0x15, 1, 8, 9] ∧
    [0x15#64, 1, 8, 9].length < 2 ^ 64 ∧
    (Instr.lDot [(8, 9)]).operandsAre (.dot [.pattern 8] [.pattern 9]) ∧ Instr.sInit.operandsAre .none ∧
    (Instr.sLoad { imageOf [(1, 2)] 7 with pad := 3 }).operandsAre
      (.image { chunks := 0 :: 2 :: zeros 65, inf := 0, nan := 0, adds := 0x300000007 }) := by
  refine ⟨by decide +kernel, by decide, ⟨rfl, rfl, rfl⟩, rfl, ?_⟩
  show _ ∧ _ ∧ _ ∧ _
  decide +kernel

theorem witness_InstancesShareNothing :
    ([State.reset, wState 0#32] : System)[1]? = some (wState 0#32) ∧ (0 : Nat) ≠ 1 := ⟨rfl, by decide⟩

theorem witness_SCopyMakesEqual : (0 ≤ (wState 0#32).small.adds.toInt ∧ (wState 0#32).small.adds.toInt ≤ 2047) ∧
    (0 ≤ (wState 2047#32).small.adds.toInt ∧ (wState 2047#32).small.adds.toInt ≤ 2047) := by decide +kernel

end Sys2Proof.Tests
end

section
/-! SUPPORT. The byte view of words (R71) and of images (R72, R75): each byte of a word, of a list of words and of the
adds field, and the settlement of the statement about them. -/

namespace Sys2Proof.Machine

/-! ### The bytes of one word -/

@[simp] theorem wordBytes_length (w : Word) : (wordBytes w).length = 8 := by
  simp [wordBytes]

/-- Byte j of a word is w[8 j + 7 : 8 j] (R71). -/
theorem wordBytes_getElem? (w : Word) {j : Nat} (h : j < 8) : (wordBytes w)[j]? = some (w.extractLsb' (8 * j) 8) := by
  simp [wordBytes, h]

/-- The same byte as a quotient of the word's value. -/
theorem wordBytes_getElem?_toNat (w : Word) {j : Nat} (h : j < 8) :
    (wordBytes w)[j]? = some (BitVec.ofNat 8 (w.toNat / 2 ^ (8 * j))) := by
  rw [wordBytes_getElem? w h, BitVec.extractLsb', Nat.shiftRight_eq_div_pow]

/-- Bit i of the word that bytes stand for is bit i mod 8 of byte i / 8 (R71); bytes that are not there count as 0. -/
theorem getLsbD_wordOfBytes (bs : List Byte) {i : Nat} (h : i < 64) :
    (wordOfBytes bs).getLsbD i = (bs.getD (i / 8) 0#8).getLsbD (i % 8) := by
  induction bs generalizing i with
  | nil => simp [wordOfBytes]
  | cons b bs ih =>
    have hcons : wordOfBytes (b :: bs) = (wordOfBytes bs <<< 8) ||| b.setWidth 64 := rfl
    rw [hcons, BitVec.getLsbD_or, BitVec.getLsbD_shiftLeft, BitVec.getLsbD_setWidth]
    by_cases hi : i < 8
    · simp [h, hi, Nat.div_eq_of_lt hi, Nat.mod_eq_of_lt hi]
    · have hdiv : i / 8 = (i - 8) / 8 + 1 := by omega
      have hmod : i % 8 = (i - 8) % 8 := by omega
      rw [hdiv, hmod, List.getD_cons_succ, ← ih (by omega)]
      simp [h, hi, BitVec.getLsbD_of_ge b i (by omega)]

/-- The bytes of a word give it back. -/
@[simp] theorem wordOfBytes_wordBytes (w : Word) : wordOfBytes (wordBytes w) = w := by
  apply BitVec.eq_of_getLsbD_eq
  intro i hi
  have hbyte : (wordBytes w).getD (i / 8) 0#8 = w.extractLsb' (8 * (i / 8)) 8 := by
    rw [List.getD_eq_getElem?_getD, wordBytes_getElem? w (by omega), Option.getD_some]
  rw [getLsbD_wordOfBytes _ hi, hbyte, BitVec.getLsbD_extractLsb', Nat.div_add_mod]
  simp [Nat.mod_lt]

/-! ### The bytes of several words -/

@[simp] theorem bytesOfWords_length (ws : List Word) : (bytesOfWords ws).length = 8 * ws.length := by
  simp [bytesOfWords, List.length_flatMap, Nat.mul_comm]

/-- Byte 8 i + j of the words is byte j of word i. -/
theorem bytesOfWords_getElem? (ws : List Word) (i : Nat) {j : Nat} (h : j < 8) :
    (bytesOfWords ws)[8 * i + j]? = ws[i]?.bind fun w => (wordBytes w)[j]? := by
  induction ws generalizing i with
  | nil => simp [bytesOfWords]
  | cons w ws ih =>
    have hcons : bytesOfWords (w :: ws) = wordBytes w ++ bytesOfWords ws := rfl
    rw [hcons]
    cases i with
    | zero => simp [List.getElem?_append_left, h]
    | succ i =>
      have hsub : 8 * (i + 1) + j - 8 = 8 * i + j := by omega
      rw [List.getElem?_append_right (by simp; omega), wordBytes_length, hsub, ih, List.getElem?_cons_succ]

/-! ### The bytes of an image -/

@[simp] theorem imageSend_length (a : Small) : (imageSend a).length = 70 := a.image.toWords_length

/-- Word 69 of the image sent is the adds field under a zero pad (R72, R73). -/
theorem imageSend_getElem?_adds (a : Small) : (imageSend a)[69]? = some (a.adds.setWidth 64) := by
  have hpad : (imageSend a).getD 69 0#64 = 0#32 ++ a.adds := a.image.toWords_getD_tail 2
  rw [List.getD_eq_getElem _ _ (by simp)] at hpad
  rw [List.getElem?_eq_getElem (by simp), hpad, BitVec.setWidth_eq_append (by decide : 32 ≤ 64), BitVec.cast_eq]

/-- Bytes 552 to 559 of the image sent: the adds field, least significant byte first, then zeros (R75). -/
theorem imageSend_byte_adds (a : Small) {j : Nat} (h : j < 8) :
    (bytesOfWords (imageSend a))[552 + j]? = some (BitVec.ofNat 8 (a.adds.toNat / 2 ^ (8 * j))) := by
  have hval : (a.adds.setWidth 64).toNat = a.adds.toNat := BitVec.toNat_setWidth_of_le (by decide)
  rw [bytesOfWords_getElem? (imageSend a) 69 h, imageSend_getElem?_adds, Option.bind_some,
    wordBytes_getElem?_toNat _ h, hval]

end Sys2Proof.Machine

namespace Sys2Proof

open Machine

/-- Settles O11: the bytes of a word (R71), and with word 69 of the image the bytes of its adds field and pad (R75). -/
theorem bytesAreLittleEndian : Obligations.BytesAreLittleEndian := by
  unfold Obligations.BytesAreLittleEndian
  exact ⟨fun w => ⟨wordBytes_length w, fun _ => wordBytes_getElem?_toNat w, wordOfBytes_wordBytes w⟩,
    fun a => ⟨by simp, fun _ => imageSend_byte_adds a⟩⟩

end Sys2Proof
end

section
/-! SUPPORT. The fields of a binary64 pattern as quotients and remainders of its value, the classes of R22 in terms of
them, and the bin index of R122. -/

namespace Sys2Proof.Machine

/-! ### Fields -/

theorem bexp_toNat (u : Word) : (bexp u).toNat = u.toNat / 2 ^ 52 % 2 ^ 11 := by
  rw [bexp, BitVec.extractLsb'_toNat, Nat.shiftRight_eq_div_pow]

theorem frac_toNat (u : Word) : (frac u).toNat = u.toNat % 2 ^ 52 := by
  rw [frac, BitVec.extractLsb'_toNat, Nat.shiftRight_zero]

theorem signBit_eq_decide (u : Word) : signBit u = decide (2 ^ 63 ≤ u.toNat) :=
  BitVec.msb_eq_decide u

theorem binIndex_toNat (u : Word) : (binIndex u).toNat = u.toNat / 2 ^ 52 := by
  rw [binIndex, BitVec.extractLsb'_toNat, Nat.shiftRight_eq_div_pow]
  omega

/-! ### Classes -/

theorem isInf_iff {u : Word} : isInf u = true ↔ bexp u = 0x7FF#11 ∧ frac u = 0#52 := by
  simp [isInf]

theorem isNaN_iff {u : Word} : isNaN u = true ↔ bexp u = 0x7FF#11 ∧ frac u ≠ 0#52 := by
  simp [isNaN]

theorem isZero_iff {u : Word} : isZero u = true ↔ bexp u = 0#11 ∧ frac u = 0#52 := by
  simp [isZero]

theorem isFinite_iff {u : Word} : isFinite u = true ↔ bexp u ≠ 0x7FF#11 := by
  simp [isFinite]

/-- A biased exponent of all ones is that of an infinity or of a NaN (R22). -/
theorem isInf_or_isNaN_iff {u : Word} : (isInf u = true ∨ isNaN u = true) ↔ bexp u = 0x7FF#11 := by
  rw [isInf_iff, isNaN_iff]
  tauto

theorem isInf_eq_false_of_isFinite {u : Word} (h : isFinite u = true) : isInf u = false := by
  simp [isInf, isFinite_iff.mp h]

theorem isNaN_eq_false_of_isFinite {u : Word} (h : isFinite u = true) : isNaN u = false := by
  simp [isNaN, isFinite_iff.mp h]

theorem isZero_eq_false_of_isInf {u : Word} (h : isInf u = true) : isZero u = false := by
  simp [isZero, (isInf_iff.mp h).1]

/-! ### The bin index -/

theorem binExp_binIndex (u : Word) : binExp (binIndex u) = (bexp u).toNat := by
  rw [binExp, binIndex_toNat, bexp_toNat]
  rfl

theorem binNeg_binIndex (u : Word) : binNeg (binIndex u) = signBit u := by
  simp [binNeg, binIndex, signBit]

/-- Masking a bin index with 0x7FF leaves its biased exponent. -/
theorem toNat_and_binExp (ix : BinIndex) : (ix &&& 0x7FF#12).toNat = binExp ix :=
  Nat.and_two_pow_sub_one_eq_mod ix.toNat 11

/-- The masked index is all ones where the biased exponent is. -/
theorem binIndex_and_eq_iff (u : Word) : (binIndex u &&& 0x7FF#12) = 0x7FF#12 ↔ bexp u = 0x7FF#11 := by
  rw [← BitVec.toNat_inj, ← BitVec.toNat_inj, toNat_and_binExp, binExp_binIndex]
  rfl

end Sys2Proof.Machine

namespace Sys2Proof

open Machine

/-- Settles O18: the index and the fields are quotients of one number, and all ones is the exponent of the specials. -/
theorem binIndexOfPattern : Obligations.BinIndexOfPattern := by
  unfold Obligations.BinIndexOfPattern
  exact fun u => ⟨binIndex_toNat u, binNeg_binIndex u, binExp_binIndex u,
    (binIndex_and_eq_iff u).trans isInf_or_isNaN_iff.symm⟩

end Sys2Proof
end

section
/-! SUPPORT. The NaN path of the flag handler with its masks read as remainders (R126, R128). -/

namespace Sys2Proof.Machine

theorem toNat_and_mantMask (u : Word) : (u &&& mantMask).toNat = u.toNat % 2 ^ 52 :=
  Nat.and_two_pow_sub_one_eq_mod u.toNat 52

theorem toNat_and_not_signMask (u : Word) : (u &&& ~~~signMask).toNat = u.toNat % 2 ^ 63 :=
  Nat.and_two_pow_sub_one_eq_mod u.toNat 63

/-- A value with a payload takes the NaN path, which writes NaN alone (R126). -/
theorem addInfNaN_eq_of_payload (a : Small) {v : Word} (h : v.toNat % 2 ^ 52 ≠ 0) :
    addInfNaN a v =
      { a with nan := if a.nan.toNat % 2 ^ 52 ≤ v.toNat % 2 ^ 52 then v &&& ~~~signMask else a.nan } := by
  have hmask : v &&& mantMask ≠ 0#64 := fun h0 => h (by rw [← toNat_and_mantMask, h0]; rfl)
  simp only [addInfNaN_of_payload a hmask, BitVec.le_def, toNat_and_mantMask]

/-- Clearing the sign of a NaN gives the NaN of the same payload whose sign is clear (R22). -/
theorem and_not_signMask_eq_of_frac_eq {v p : Word} (hv : isNaN v = true) (hp : isNaN p = true)
    (hs : signBit p = false) (hf : frac v = frac p) : v &&& ~~~signMask = p := by
  have hexp : (bexp v).toNat = (bexp p).toNat := by rw [(isNaN_iff.mp hv).1, (isNaN_iff.mp hp).1]
  have hfrac : (frac v).toNat = (frac p).toNat := by rw [hf]
  rw [bexp_toNat, bexp_toNat] at hexp
  rw [frac_toNat, frac_toNat] at hfrac
  have hsign : ¬ 2 ^ 63 ≤ p.toNat := by simpa [signBit_eq_decide] using hs
  apply BitVec.eq_of_toNat_eq
  rw [toNat_and_not_signMask]
  omega

section
variable (a : Small) {v : Word} (hv : v.toNat % 2 ^ 52 ≠ 0)
include hv

/-- A payload at least the field's replaces the field, its sign cleared (R128). -/
theorem addInfNaN_nan_of_payload_ge (h : a.nan.toNat % 2 ^ 52 ≤ v.toNat % 2 ^ 52) :
    (addInfNaN a v).nan = v &&& ~~~signMask := by
  rw [addInfNaN_eq_of_payload a hv, if_pos h]

/-- A smaller payload changes nothing (R128). -/
theorem addInfNaN_of_payload_lt (h : v.toNat % 2 ^ 52 < a.nan.toNat % 2 ^ 52) : addInfNaN a v = a := by
  rw [addInfNaN_eq_of_payload a hv, if_neg (Nat.not_le.mpr h)]

/-- A value on the NaN path never leaves the field clear (R49). -/
theorem addInfNaN_nan_ne_zero : (addInfNaN a v).nan ≠ 0#64 := by
  intro h0
  obtain hge | hlt := le_or_gt (a.nan.toNat % 2 ^ 52) (v.toNat % 2 ^ 52)
  · rw [addInfNaN_nan_of_payload_ge a hv hge, ← BitVec.toNat_inj, toNat_and_not_signMask] at h0
    simp only [BitVec.toNat_ofNat] at h0
    omega
  · rw [addInfNaN_of_payload_lt a hv hlt] at h0
    simp [h0] at hlt

end

end Sys2Proof.Machine

namespace Sys2Proof

open Machine

/-- Settles O20: the two outcomes of the comparison of payloads; an equal NaN payload rewrites its own pattern. -/
theorem naNPathOfHandler : Obligations.NaNPathOfHandler := by
  unfold Obligations.NaNPathOfHandler
  intro a v hv
  have hreplaced (h : a.nan.toNat % 2 ^ 52 ≤ v.toNat % 2 ^ 52) : (addInfNaN a v).nan.toNat = v.toNat % 2 ^ 63 := by
    rw [addInfNaN_nan_of_payload_ge a hv h, toNat_and_not_signMask]
  refine ⟨?frame, hreplaced, addInfNaN_of_payload_lt a hv, ?equal, ?clear, addInfNaN_nan_ne_zero a hv⟩
  case frame => rw [addInfNaN_eq_of_payload a hv]; exact ⟨rfl, rfl, rfl⟩
  case equal =>
    intro hnan hfield hsign hfrac
    simp [addInfNaN_eq_of_payload a hv, and_not_signMask_eq_of_frac_eq hnan hfield hsign hfrac]
  case clear => exact fun h0 => hreplaced (by simp [h0])

end Sys2Proof
end

section
/-! SUPPORT. Packing a sign, an exponent and a fraction into a pattern, and reading them and the exact value back (R22,
R120). -/

namespace Sys2Proof.Machine

/-! ### Packing -/

section
variable (neg : Bool) {e f : Nat}

theorem packBinary64_toNat (he : e < 2 ^ 11) (hf : f < 2 ^ 52) :
    (packBinary64 neg e f).toNat = (if neg then 2 ^ 63 else 0) + e * 2 ^ 52 + f := by
  rw [packBinary64, BitVec.toNat_ofNat, Nat.mod_eq_of_lt]
  split <;> omega

theorem signBit_packBinary64 (he : e < 2 ^ 11) (hf : f < 2 ^ 52) : signBit (packBinary64 neg e f) = neg := by
  rw [signBit_eq_decide, packBinary64_toNat neg he hf]
  cases neg <;> simp <;> omega

theorem bexp_packBinary64 (he : e < 2 ^ 11) (hf : f < 2 ^ 52) : (bexp (packBinary64 neg e f)).toNat = e := by
  rw [bexp_toNat, packBinary64_toNat neg he hf]
  split <;> omega

theorem frac_packBinary64 (he : e < 2 ^ 11) (hf : f < 2 ^ 52) : (frac (packBinary64 neg e f)).toNat = f := by
  rw [frac_toNat, packBinary64_toNat neg he hf]
  split <;> omega

end

theorem packBinary64_infinity (neg : Bool) : packBinary64 neg 0x7FF 0 = if neg then negInf else posInf := by
  cases neg <;> rfl

/-! ### The exact value -/

/-- The class of an infinity (R120). -/
theorem decompose_kind_of_isInf {u : Word} (h : isInf u = true) : (decompose u).kind = .infNaN := by
  simp [decompose, isInf_iff.mp h]

/-- A finite pattern's magnitude, one formula for zeros, subnormal and normal values (R120). -/
theorem finiteMagnitude_eq {u : Word} (h : isFinite u = true) : finiteMagnitude u = effMant u * 2 ^ effExp u := by
  have hlt : (bexp u).toNat < 0x7FF := by
    have hne : (bexp u).toNat ≠ 0x7FF := fun h0 => isFinite_iff.mp h (BitVec.eq_of_toNat_eq h0)
    have := (bexp u).isLt
    omega
  unfold finiteMagnitude decompose effMant effExp
  simp only
  by_cases h0 : (bexp u).toNat = 0
  · by_cases hf : (frac u).toNat = 0 <;> simp [h0, hf]
  · simp [h0, Nat.pos_of_ne_zero h0, hlt]

theorem finiteMagnitude_eq_zero_of_isZero {u : Word} (h : isZero u = true) : finiteMagnitude u = 0 := by
  simp [finiteMagnitude, decompose, isZero_iff.mp h]

/-- A sign as a factor. -/
def signOf (neg : Bool) : Int := if neg then -1 else 1

@[simp] theorem abs_signOf_mul (neg : Bool) (n : Int) : |signOf neg * n| = |n| := by
  cases neg <;> simp [signOf]

theorem signOf_mul_signOf (s t : Bool) : signOf s * signOf t = signOf (s != t) := by
  cases s <;> cases t <;> rfl

@[simp] theorem signOf_mul_self_mul (neg : Bool) (n : Int) : signOf neg * (signOf neg * n) = n := by
  cases neg <;> simp [signOf]

/-- A sign can be moved from one end of a distance to the other. -/
theorem abs_signOf_mul_sub (neg : Bool) (n k : Int) : |signOf neg * n - k| = |n - signOf neg * k| := by
  rw [← abs_signOf_mul neg, mul_sub, signOf_mul_self_mul]

theorem unitsOf_eq (u : Word) : unitsOf u = signOf (signBit u) * finiteMagnitude u := by
  unfold unitsOf signOf
  split <;> simp

theorem abs_unitsOf (u : Word) : |unitsOf u| = finiteMagnitude u := by
  rw [unitsOf_eq, abs_signOf_mul, Nat.abs_cast]

/-- v is in magnitude an integer of at most 53 bits times 2^e with e at least 1: the values a binary64 could have if its
exponent had no upper bound, in units of 2^-1075 (R22, R120). -/
def Representable (v : Int) : Prop := ∃ k e : Nat, k < 2 ^ 53 ∧ 1 ≤ e ∧ |v| = k * 2 ^ e

/-- Every finite pattern has such a value. -/
theorem representable_unitsOf {u : Word} (h : isFinite u = true) : Representable (unitsOf u) := by
  refine ⟨effMant u, effExp u, ?_, ?_, ?_⟩
  · have := (frac u).isLt
    unfold effMant
    split <;> omega
  · unfold effExp
    split <;> omega
  · rw [abs_unitsOf, finiteMagnitude_eq h]
    norm_cast

theorem Representable.signOf_mul {v : Int} (hv : Representable v) (neg : Bool) : Representable (signOf neg * v) := by
  obtain ⟨k, e, hk, he, hv⟩ := hv
  exact ⟨k, e, hk, he, by rw [abs_signOf_mul, hv]⟩

section
variable (neg : Bool) {e f : Nat}

theorem isFinite_packBinary64 (he : e < 0x7FF) (hf : f < 2 ^ 52) : isFinite (packBinary64 neg e f) = true := by
  rw [isFinite_iff, ← BitVec.toNat_inj.ne, bexp_packBinary64 neg (by omega) hf]
  exact he.ne

/-- A subnormal value or a zero, packed (R120). -/
theorem finiteMagnitude_packBinary64_zero (hf : f < 2 ^ 52) : finiteMagnitude (packBinary64 neg 0 f) = f * 2 := by
  rw [finiteMagnitude_eq (isFinite_packBinary64 neg (by decide) hf), effMant, effExp,
    bexp_packBinary64 neg (by decide) hf, frac_packBinary64 neg (by decide) hf]
  rfl

/-- A normal value, packed (R120). -/
theorem finiteMagnitude_packBinary64 (h0 : 1 ≤ e) (he : e < 0x7FF) (hf : f < 2 ^ 52) :
    finiteMagnitude (packBinary64 neg e f) = (f + 2 ^ 52) * 2 ^ e := by
  have hne : e ≠ 0 := by omega
  rw [finiteMagnitude_eq (isFinite_packBinary64 neg he hf), effMant, effExp,
    bexp_packBinary64 neg (by omega) hf, frac_packBinary64 neg (by omega) hf, if_neg hne, if_neg hne]

end

end Sys2Proof.Machine
end

section
/-! SUPPORT. The shared rounding of a ratio m / d (R205; entry 8) is correct for every d: its shift and its integer
significand, nearest-even among the multiples of one unit, then among all values of 53 significant bits, and the
threshold of overflow (R208). -/

namespace Sys2Proof.Machine

/-! ### Rounding to an integer -/

section
variable (m : Nat) {d : Nat} (hd : 0 < d)
include hd

/-- The rounded quotient is within half of m / d, and even where it is half away. -/
theorem roundHalfEven_near : 2 * |(m : Int) - roundHalfEven m d * d| ≤ d ∧
    (2 * |(m : Int) - roundHalfEven m d * d| = d → roundHalfEven m d % 2 = 0) := by
  have hm : (m : Int) = (m / d : Nat) * d + (m % d : Nat) := by exact_mod_cast (Nat.div_add_mod' m d).symm
  have hr : m % d < d := Nat.mod_lt m hd
  unfold roundHalfEven
  simp only
  split
  · have hδ : (m : Int) - (m / d + 1 : Nat) * d = (m % d : Nat) - d := by rw [hm]; push_cast; ring
    rw [hδ, abs_of_nonpos (by omega)]
    omega
  · have hδ : (m : Int) - (m / d : Nat) * d = (m % d : Nat) := by rw [hm]; ring
    rw [hδ, abs_of_nonneg (by omega)]
    omega

/-- No multiple of d is nearer to m than the rounded one; another as near leaves it even. -/
theorem roundHalfEven_nearest (j : Int) :
    |(m : Int) - roundHalfEven m d * d| ≤ |(m : Int) - j * d| ∧
    (j ≠ roundHalfEven m d → |(m : Int) - roundHalfEven m d * d| = |(m : Int) - j * d| →
      roundHalfEven m d % 2 = 0) := by
  obtain ⟨hnear, htie⟩ := roundHalfEven_near m hd
  by_cases hj : j = roundHalfEven m d
  · exact ⟨by rw [hj], fun h => absurd hj h⟩
  · have hapart : (d : Int) ≤ |((roundHalfEven m d : Int) - j) * d| := by
      rw [abs_mul, Nat.abs_cast]
      exact le_mul_of_one_le_left (by omega) (Int.one_le_abs (sub_ne_zero.mpr (Ne.symm hj)))
    have hsum : |((roundHalfEven m d : Int) - j) * d| ≤
        |(m : Int) - roundHalfEven m d * d| + |(m : Int) - j * d| := by
      have hsplit : ((roundHalfEven m d : Int) - j) * d = (m - j * d) - (m - roundHalfEven m d * d) := by ring
      rw [hsplit, add_comm]
      exact abs_sub _ _
    exact ⟨by omega, fun _ heq => htie (by omega)⟩

/-- The rounded quotient reaches an even n exactly from the midpoint below n. -/
theorem le_roundHalfEven_iff {n : Nat} (hn : n % 2 = 0) : n ≤ roundHalfEven m d ↔ 2 * (n * d) ≤ 2 * m + d := by
  obtain ⟨hnear, htie⟩ := roundHalfEven_near m hd
  generalize roundHalfEven m d = q at *
  constructor
  · intro hq
    have hmul : n * d ≤ q * d := Nat.mul_le_mul_right d hq
    have habs := neg_abs_le ((m : Int) - q * d)
    zify at hmul ⊢
    omega
  · intro h
    by_contra! hlt
    have hmul : (q + 1) * d ≤ n * d := Nat.mul_le_mul_right d hlt
    have habs := le_abs_self ((m : Int) - q * d)
    have hlast : n * d < (q + 2) * d := by
      zify at *
      linarith
    have hnext : n < q + 2 := lt_of_mul_lt_mul_right hlast (Nat.zero_le d)
    have heven : q % 2 = 0 := htie (by zify at *; linarith)
    omega

theorem roundHalfEven_le {n : Nat} (h : m ≤ n * d) : roundHalfEven m d ≤ n := by
  obtain ⟨hnear, -⟩ := roundHalfEven_near m hd
  by_contra! hlt
  have hmul : (n + 1) * d ≤ roundHalfEven m d * d := Nat.mul_le_mul_right d hlt
  have habs := neg_abs_le ((m : Int) - roundHalfEven m d * d)
  zify at *
  linarith

end

/-! ### The unit and the significand -/

/-- The exponent of the unit that m / d is rounded to: 53 significant bits, but never below the unit of a subnormal
(R205). -/
def roundShift (m d : Nat) : Nat := max ((m / d).log2 - 52) 1

/-- m / d rounded to a whole number of those units (R205). -/
def roundSig (m d : Nat) : Nat := roundHalfEven m (d * 2 ^ roundShift m d)

/-- The magnitude that m / d is rounded to while the exponent has no upper bound. -/
def roundMag (m d : Nat) : Nat := roundSig m d * 2 ^ roundShift m d

/-- `roundRatio` in these terms: subnormal, carried to the next exponent, or normal, each of the last two an infinity
where the exponent is too large (R205). -/
theorem roundRatio_eq (neg : Bool) (m d : Nat) : roundRatio neg m d =
    if roundSig m d < 2 ^ 52 then packBinary64 neg 0 (roundSig m d)
    else if roundSig m d = 2 ^ 53 then
      if 0x7FF ≤ roundShift m d + 1 then packBinary64 neg 0x7FF 0 else packBinary64 neg (roundShift m d + 1) 0
    else if 0x7FF ≤ roundShift m d then packBinary64 neg 0x7FF 0
    else packBinary64 neg (roundShift m d) (roundSig m d - 2 ^ 52) := by
  unfold roundRatio roundSig roundShift
  dsimp only
  generalize max ((m / d).log2 - 52) 1 = sh
  generalize roundHalfEven m (d * 2 ^ sh) = q
  by_cases hc : q = 2 ^ 53
  · simp [hc]
  · simp only [if_neg hc]

theorem one_le_roundShift (m d : Nat) : 1 ≤ roundShift m d := le_max_right _ _

section
variable (m : Nat) {d : Nat} (hd : 0 < d)
include hd

theorem roundUnit_pos : 0 < d * 2 ^ roundShift m d := Nat.mul_pos hd (Nat.two_pow_pos _)

/-- The ratio has at most 53 bits above the unit. -/
theorem lt_roundUnit : m < 2 ^ 53 * (d * 2 ^ roundShift m d) := by
  have hlog : m / d < 2 ^ ((m / d).log2 + 1) := Nat.lt_log2_self
  have hexp : (m / d).log2 + 1 ≤ 53 + roundShift m d := by unfold roundShift; omega
  have hdiv : m / d < 2 ^ (53 + roundShift m d) := hlog.trans_le (Nat.pow_le_pow_right (by decide) hexp)
  rw [Nat.div_lt_iff_lt_mul hd, pow_add] at hdiv
  linarith

/-- The ratio has 53 bits above the unit, except where the unit is that of a subnormal. -/
theorem roundUnit_le (h : roundShift m d ≠ 1) : 2 ^ 52 * (d * 2 ^ roundShift m d) ≤ m := by
  have hexp : 52 + roundShift m d = (m / d).log2 := by unfold roundShift at *; omega
  have hne : m / d ≠ 0 := by
    intro h0
    simp [h0] at hexp
  have hdiv : 2 ^ (52 + roundShift m d) ≤ m / d := hexp ▸ Nat.log2_self_le hne
  rw [Nat.le_div_iff_mul_le hd, pow_add] at hdiv
  linarith

theorem roundSig_le : roundSig m d ≤ 2 ^ 53 :=
  roundHalfEven_le m (roundUnit_pos m hd) (lt_roundUnit m hd).le

theorem le_roundSig (h : roundShift m d ≠ 1) : 2 ^ 52 ≤ roundSig m d := by
  have hle := roundUnit_le m hd h
  exact (le_roundHalfEven_iff m (roundUnit_pos m hd) (by decide)).mpr (by omega)

/-! ### The nearest value of 53 significant bits -/

omit hd in
/-- A value of 53 significant bits is a multiple of a unit 2^s, or smaller than 2^52 units. -/
theorem Representable.cases {v : Int} (hv : Representable v) (s : Nat) :
    (∃ j : Int, v = j * 2 ^ s) ∨ (s ≠ 1 ∧ |v| < 2 ^ 52 * 2 ^ s) := by
  obtain ⟨k, e, hk, he, hv⟩ := hv
  obtain hse | hes := le_or_gt s e
  · have hdvd : (2 : Int) ^ s ∣ |v| := hv ▸ Dvd.dvd.mul_left (pow_dvd_pow 2 hse) _
    obtain ⟨j, hj⟩ := (dvd_abs _ _).mp hdvd
    exact .inl ⟨j, by rw [hj, mul_comm]⟩
  · refine .inr ⟨by omega, ?_⟩
    have hpow : (2 : Int) ^ e * 2 ≤ 2 ^ s := by
      rw [← pow_succ]
      exact pow_le_pow_right₀ (by decide) hes
    have hk' : (k : Int) < 2 ^ 53 := by exact_mod_cast hk
    calc |v| = k * 2 ^ e := hv
      _ < 2 ^ 53 * 2 ^ e := mul_lt_mul_of_pos_right hk' (by positivity)
      _ ≤ 2 ^ 52 * 2 ^ s := by linarith

/-- No value of 53 significant bits is nearer to m / d than the rounded one; another as near leaves the significand
even (R205). -/
theorem roundMag_nearest {v : Int} (hv : Representable v) :
    |(m : Int) - roundMag m d * d| ≤ |(m : Int) - v * d| ∧
    (v ≠ roundMag m d → |(m : Int) - roundMag m d * d| = |(m : Int) - v * d| → roundSig m d % 2 = 0) := by
  have hnear := roundHalfEven_nearest m (roundUnit_pos m hd)
  rw [← roundSig] at hnear
  have hmag : (roundMag m d : Int) * d = roundSig m d * (d * 2 ^ roundShift m d : Nat) := by
    unfold roundMag; push_cast; ring
  rw [hmag]
  obtain ⟨j, rfl⟩ | ⟨hs, hsmall⟩ := hv.cases (roundShift m d)
  · have hj : j * 2 ^ roundShift m d * d = j * (d * 2 ^ roundShift m d : Nat) := by push_cast; ring
    rw [hj]
    exact ⟨(hnear j).1, fun hne => (hnear j).2 fun h => hne (by rw [h, roundMag]; push_cast; rfl)⟩
  · have hfloor : (2 ^ 52 * (d * 2 ^ roundShift m d : Nat) : Int) ≤ m := by exact_mod_cast roundUnit_le m hd hs
    have hbelow : v * d < 2 ^ 52 * (d * 2 ^ roundShift m d : Nat) := by
      have hmul := mul_lt_mul_of_pos_right ((le_abs_self v).trans_lt hsmall) (Int.natCast_pos.mpr hd)
      push_cast
      linarith
    have hlt : |(m : Int) - roundSig m d * (d * 2 ^ roundShift m d : Nat)| < |(m : Int) - v * d| := by
      refine (hnear (2 ^ 52)).1.trans_lt ?_
      rw [abs_of_nonneg (by linarith), abs_of_nonneg (by linarith)]
      linarith
    exact ⟨hlt.le, fun _ h => absurd h hlt.ne⟩

/-! ### The overflow threshold -/

/-- The rounded magnitude reaches 2^(53 + E) exactly from half a unit 2^E below it (R208). -/
theorem le_roundMag_iff {E : Nat} (hE : 1 ≤ E) :
    2 ^ 53 * 2 ^ E ≤ roundMag m d ↔ 2 ^ 54 * (d * 2 ^ E) ≤ 2 * m + d * 2 ^ E := by
  have hlt := lt_roundUnit m hd
  have hpos := roundUnit_pos m hd
  unfold roundMag
  obtain hs | rfl | hs := lt_trichotomy (roundShift m d) E
  · have hpow : 2 * 2 ^ roundShift m d ≤ 2 ^ E := by
      rw [← pow_succ']
      exact Nat.pow_le_pow_right (by decide) hs
    have hunit : 2 * (d * 2 ^ roundShift m d) ≤ d * 2 ^ E := by
      rw [Nat.mul_left_comm]
      exact Nat.mul_le_mul_left d hpow
    have hsig := Nat.mul_le_mul_right (2 ^ roundShift m d) (roundSig_le m hd)
    have hpow_pos : 0 < 2 ^ roundShift m d := Nat.two_pow_pos _
    constructor <;> intro <;> omega
  · rw [Nat.mul_le_mul_right_iff (Nat.two_pow_pos _), roundSig, le_roundHalfEven_iff m hpos (by decide)]
    omega
  · have hpow : 2 * 2 ^ E ≤ 2 ^ roundShift m d := by
      rw [← pow_succ']
      exact Nat.pow_le_pow_right (by decide) hs
    have hunit : 2 * (d * 2 ^ E) ≤ d * 2 ^ roundShift m d := by
      rw [Nat.mul_left_comm]
      exact Nat.mul_le_mul_left d hpow
    have hs1 : roundShift m d ≠ 1 := by omega
    have hsig := Nat.mul_le_mul_right (2 ^ roundShift m d) (le_roundSig m hd hs1)
    have hle := roundUnit_le m hd hs1
    constructor <;> intro <;> omega

end

/-! ### The pattern -/

/-- r is the pattern of q 2^e with a sign: a finite one, its fraction as even as q, or from 2^1024 up an infinity
(R205, R208, R209). -/
def IsPatternOf (neg : Bool) (q e : Nat) (r : Word) : Prop :=
  signBit r = neg ∧
  (q * 2 ^ e < 2 ^ 53 * 2 ^ 2046 → isFinite r = true ∧ finiteMagnitude r = q * 2 ^ e ∧ (frac r).toNat % 2 = q % 2) ∧
  (2 ^ 53 * 2 ^ 2046 ≤ q * 2 ^ e → r = if neg then negInf else posInf)

section
variable {q e n k : Nat}

theorem mul_two_pow_lt (hq : q < n) (he : e ≤ k) : q * 2 ^ e < n * 2 ^ k :=
  (Nat.mul_lt_mul_of_pos_right hq (Nat.two_pow_pos e)).trans_le
    (Nat.mul_le_mul_left n (Nat.pow_le_pow_right (by decide) he))

theorem le_mul_two_pow_of_lt (hq : 2 ^ 52 ≤ q) (he : k < e) : 2 ^ 53 * 2 ^ k ≤ q * 2 ^ e :=
  calc 2 ^ 53 * 2 ^ k = 2 ^ 52 * 2 ^ (k + 1) := by rw [pow_succ']; omega
    _ ≤ q * 2 ^ e := Nat.mul_le_mul hq (Nat.pow_le_pow_right (by decide) he)

end

section
variable (neg : Bool) {q e : Nat}

theorem isPatternOf_subnormal (hq : q < 2 ^ 52) : IsPatternOf neg q 1 (packBinary64 neg 0 q) := by
  refine ⟨signBit_packBinary64 neg (by decide) hq, fun _ => ⟨isFinite_packBinary64 neg (by decide) hq,
    finiteMagnitude_packBinary64_zero neg hq, by rw [frac_packBinary64 neg (by decide) hq]⟩, fun hle => ?_⟩
  have hlt : q * 2 ^ 1 < 2 ^ 53 * 2 ^ 2046 := mul_two_pow_lt (by omega) (by decide)
  exact absurd hle hlt.not_ge

theorem isPatternOf_normal (hlow : 2 ^ 52 ≤ q) (hhigh : q < 2 ^ 53) (he : 1 ≤ e) (hmax : e < 0x7FF) :
    IsPatternOf neg q e (packBinary64 neg e (q - 2 ^ 52)) := by
  have hf : q - 2 ^ 52 < 2 ^ 52 := by omega
  have hlt : q * 2 ^ e < 2 ^ 53 * 2 ^ 2046 := mul_two_pow_lt hhigh (by omega)
  refine ⟨signBit_packBinary64 neg (by omega) hf, fun _ => ⟨isFinite_packBinary64 neg hmax hf, ?_, ?_⟩,
    fun hle => absurd hle hlt.not_ge⟩
  · rw [finiteMagnitude_packBinary64 neg he hmax hf, Nat.sub_add_cancel hlow]
  · rw [frac_packBinary64 neg (by omega) hf]
    omega

theorem isPatternOf_infinity (hlow : 2 ^ 52 ≤ q) (hmax : 0x7FF ≤ e) :
    IsPatternOf neg q e (packBinary64 neg 0x7FF 0) := by
  have hle : 2 ^ 53 * 2 ^ 2046 ≤ q * 2 ^ e := le_mul_two_pow_of_lt hlow (by omega)
  exact ⟨signBit_packBinary64 neg (by decide) (by decide), fun hlt => absurd hle hlt.not_ge,
    fun _ => packBinary64_infinity neg⟩

/-- A significand carried to 2^53 is 2^52 at the next exponent. -/
theorem IsPatternOf.of_carried {r : Word} (h : IsPatternOf neg (2 ^ 52) (e + 1) r) : IsPatternOf neg (2 ^ 53) e r := by
  have hval : 2 ^ 52 * 2 ^ (e + 1) = 2 ^ 53 * 2 ^ e := by rw [pow_succ']; omega
  unfold IsPatternOf at *
  rwa [hval] at h

/-- What `roundRatio` answers (R205). -/
theorem roundRatio_isPatternOf (m : Nat) {d : Nat} (hd : 0 < d) :
    IsPatternOf neg (roundSig m d) (roundShift m d) (roundRatio neg m d) := by
  have hsh := one_le_roundShift m d
  have hsig := roundSig_le m hd
  have hsub := mt (le_roundSig m hd)
  rw [roundRatio_eq]
  generalize roundSig m d = q at *
  generalize roundShift m d = sh at *
  split_ifs with hlt hcarried hmax hmax
  · obtain rfl : sh = 1 := by simpa using hsub (by omega)
    exact isPatternOf_subnormal neg hlt
  · subst hcarried
    exact (isPatternOf_infinity neg le_rfl hmax).of_carried
  · subst hcarried
    exact (isPatternOf_normal neg le_rfl (by decide) (by omega) (by omega)).of_carried
  · exact isPatternOf_infinity neg (by omega) hmax
  · exact isPatternOf_normal neg (by omega) (by omega) hsh (by omega)

end

/-! ### Correct rounding -/

/-- The overflow threshold is half a unit of the last finite value below 2^1024 (R208). -/
theorem overflowUnits_eq : 2 * overflowUnits + 2 ^ 2046 = 2 ^ 54 * 2 ^ 2046 := by
  unfold overflowUnits
  have h1024 : (2 : Int) ^ 1024 = 2 ^ 54 * 2 ^ 970 := by rw [← pow_add]
  have h2046 : (2 : Int) ^ 2046 = 2 * (2 ^ 970 * 2 ^ 1075) := by rw [← pow_add, ← pow_succ']
  rw [h1024, h2046]
  generalize (2 : Int) ^ 970 = x
  generalize (2 : Int) ^ 1075 = y
  ring

/-- The same for a threshold given as an integer, T. -/
theorem threshold_mul_le_iff (m : Nat) {d : Nat} (hd : 0 < d) {T : Int} {E : Nat} (hE : 1 ≤ E)
    (hT : 2 * T + 2 ^ E = 2 ^ 54 * 2 ^ E) : T * d ≤ m ↔ 2 ^ 53 * 2 ^ E ≤ roundMag m d := by
  have hmul : 2 * (T * d) + ((d * 2 ^ E : Nat) : Int) = 2 ^ 54 * (d * 2 ^ E : Nat) := by
    push_cast
    linear_combination (d : Int) * hT
  rw [le_roundMag_iff m hd hE]
  zify at *
  rw [← hmul]
  constructor <;> intro <;> linarith

/-- A ratio of integers reaches the overflow threshold where its rounded magnitude reaches 2^1024 (R208). -/
theorem overflowUnits_mul_le_iff (m : Nat) {d : Nat} (hd : 0 < d) :
    overflowUnits * d ≤ m ↔ 2 ^ 53 * 2 ^ 2046 ≤ roundMag m d :=
  threshold_mul_le_iff m hd (by decide) overflowUnits_eq

/-- `roundRatio` is the correctly rounded binary64 of m / d with a sign, for every d (R205, R208, R209; entry 8). -/
theorem roundRatio_correctlyRounded (neg : Bool) (m : Nat) {d : Nat} (hd : 0 < d) :
    CorrectlyRounded neg (signOf neg * m) d (roundRatio neg m d) := by
  obtain ⟨hsign, hfinite, hinf⟩ := roundRatio_isPatternOf neg m hd
  have hthreshold := overflowUnits_mul_le_iff m hd
  rw [← roundMag] at hfinite hinf
  refine ⟨hsign, fun h => ?_, fun h => ?_⟩
  · rw [abs_signOf_mul, Nat.abs_cast, hthreshold] at h
    exact hinf h
  · rw [abs_signOf_mul, Nat.abs_cast, ← not_le, hthreshold, not_le] at h
    obtain ⟨hfin, hmag, hparity⟩ := hfinite h
    have hvalue : unitsOf (roundRatio neg m d) = signOf neg * roundMag m d := by rw [unitsOf_eq, hsign, hmag]
    have hnearest {y : Word} (hy : isFinite y = true) :=
      roundMag_nearest m hd ((representable_unitsOf hy).signOf_mul neg)
    have hdist (v : Int) : |signOf neg * m - v * d| = |(m : Int) - signOf neg * v * d| := by
      rw [abs_signOf_mul_sub, mul_assoc]
    rw [hvalue]
    simp only [hdist, signOf_mul_self_mul]
    refine ⟨hfin, fun y hy => (hnearest hy).1, fun y hy hne heq => ?_⟩
    have hne' : signOf neg * unitsOf y ≠ roundMag m d := fun h => hne (by rw [← h, signOf_mul_self_mul])
    have heven := (hnearest hy).2 hne' heq
    rw [BitVec.getLsbD, Nat.testBit_zero, hparity, heven]
    rfl

end Sys2Proof.Machine
end

section
/-! SUPPORT. The product of R131, one equation per class of its operands, its sign, and the settlements of the
statements about it. -/

namespace Sys2Proof.Machine

/-- Rounding in a unit finer by a power of two, as a product needs it (R131). -/
theorem roundRatio_two_pow_correctlyRounded (neg : Bool) (m k : Nat) :
    CorrectlyRounded neg (signOf neg * m) (2 ^ k) (roundRatio neg m (2 ^ k)) := by
  exact_mod_cast roundRatio_correctlyRounded neg m (Nat.two_pow_pos k)

section
variable {a b : Word}

/-- A NaN operand, or an infinity times a zero, gives P_MUL_NAN (R131). -/
theorem fmul64_of_invalid (h : isNaN a = true ∨ isNaN b = true ∨ (isInf a = true ∧ isZero b = true) ∨
    (isZero a = true ∧ isInf b = true)) : fmul64 a b = mulNaN a b := by
  unfold fmul64
  obtain ha | hb | ⟨ha, hb⟩ | ⟨ha, hb⟩ := h
  · simp [ha]
  · simp [hb]
  · simp [ha, hb]
  · simp [ha, hb]

/-- An infinity times anything but a NaN or a zero is an infinity of the product's sign (R131). -/
theorem fmul64_of_infinity (ha : isNaN a = false) (hb : isNaN b = false)
    (h : (isInf a = true ∧ isZero b = false) ∨ (isInf b = true ∧ isZero a = false)) :
    fmul64 a b = packBinary64 (signBit a != signBit b) 0x7FF 0 := by
  unfold fmul64
  obtain ⟨hi, hz⟩ | ⟨hi, hz⟩ := h <;> simp [ha, hb, hi, hz, isZero_eq_false_of_isInf hi]

/-- The product of finite operands is rounded once, from the exact product of the magnitudes (R131). -/
theorem fmul64_of_finite (ha : isFinite a = true) (hb : isFinite b = true) : fmul64 a b =
    roundRatio (signBit a != signBit b) (finiteMagnitude a * finiteMagnitude b) (2 ^ 1075) := by
  unfold fmul64
  simp only [isNaN_eq_false_of_isFinite ha, isNaN_eq_false_of_isFinite hb, isInf_eq_false_of_isFinite ha,
    isInf_eq_false_of_isFinite hb, Bool.or_self, Bool.false_eq_true, if_false]

/-- A product that is no NaN has the sign of its operands' signs (R131). -/
theorem signBit_fmul64 (h : isNaN (fmul64 a b) = false) : signBit (fmul64 a b) = (signBit a != signBit b) := by
  unfold fmul64 at *
  dsimp only at *
  split_ifs at h ⊢
  · simp at h
  · simp at h
  · exact signBit_packBinary64 _ (by decide) (by decide)
  · exact (roundRatio_two_pow_correctlyRounded _ _ 1075).1

/-- The product of finite operands is the correctly rounded binary64 of the exact product (R131). -/
theorem fmul64_correctlyRounded (ha : isFinite a = true) (hb : isFinite b = true) :
    CorrectlyRounded (signBit a != signBit b) (unitsOf a * unitsOf b) (2 ^ 1075) (fmul64 a b) := by
  have hexact : unitsOf a * unitsOf b =
      signOf (signBit a != signBit b) * (finiteMagnitude a * finiteMagnitude b : Nat) := by
    rw [unitsOf_eq a, unitsOf_eq b, ← signOf_mul_signOf, Nat.cast_mul]
    ring
  rw [fmul64_of_finite ha hb, hexact]
  exact roundRatio_two_pow_correctlyRounded _ _ 1075

/-- A zero times a finite value is a zero of the product's sign (R132). -/
theorem fmul64_of_zero (ha : isZero a = true) (hb : isFinite b = true) :
    fmul64 a b = packBinary64 (signBit a != signBit b) 0 0 := by
  have hfin : isFinite a = true := isFinite_iff.mpr (by rw [(isZero_iff.mp ha).1]; decide)
  rw [fmul64_of_finite hfin hb, finiteMagnitude_eq_zero_of_isZero ha, Nat.zero_mul]
  have hsig (d : Nat) : roundSig 0 d = 0 := by simp [roundSig, roundHalfEven]
  rw [roundRatio_eq, hsig, if_pos (by decide)]

/-- A product of finite operands from the overflow threshold up is an infinity (R132). -/
theorem isInf_fmul64_of_overflow (ha : isFinite a = true) (hb : isFinite b = true)
    (h : overflowUnits * 2 ^ 1075 ≤ |unitsOf a * unitsOf b|) : isInf (fmul64 a b) = true := by
  obtain ⟨-, hinf, -⟩ := fmul64_correctlyRounded ha hb
  rw [hinf h]
  split <;> decide

end

end Sys2Proof.Machine

namespace Sys2Proof

open Machine

/-- Settles O22: the three classes of operands; rounding the exact product is correct because `roundRatio` is. -/
theorem productIsCorrectlyRounded : Obligations.ProductIsCorrectlyRounded := by
  unfold Obligations.ProductIsCorrectlyRounded
  intro a b
  refine ⟨fun h => ?invalid, fun ha hb h => ?infinity, fmul64_correctlyRounded⟩
  case invalid =>
    rw [fmul64_of_invalid h]
    exact ⟨rfl, isNaN_mulNaN a b⟩
  case infinity =>
    rw [fmul64_of_infinity ha hb h, packBinary64_infinity]
    cases signBit a <;> cases signBit b <;> rfl

/-- Settles O23: the sign of a square, the product of a zero, and the threshold of R208 for a product. -/
theorem productCorners : Obligations.ProductCorners := by
  unfold Obligations.ProductCorners
  refine ⟨fun v hv => ?square, fun z f hz hf => ?zero, fun a b ha hb h => ?overflow⟩
  case square => rw [signBit_fmul64 hv, bne_self_eq_false]
  case zero =>
    rw [fmul64_of_zero hz hf]
    cases signBit z <;> cases signBit f <;> exact ⟨rfl, rfl⟩
  case overflow =>
    have hinf := isInf_fmul64_of_overflow ha hb h
    exact ⟨hinf, decompose_kind_of_isInf hinf⟩

end Sys2Proof
end

section
/-! SUPPORT. The commands that read S out or load it (R171 to R173): the chunks as a list, the count of the nonzero
ones, the words of an image one by one, and the settlements of the statements about the three commands. -/

namespace Sys2Proof.Machine

/-! ### Counting the chunks -/

/-- The chunk register file as the list of its reads, lowest chunk first. -/
theorem Small.chunk_toList_eq_map_get (a : Small) : a.chunk.toList = (List.range 67).map a.get := by
  apply List.ext_getElem
  · simp
  · intro i hi _
    have hlt : i < 67 := by simpa using hi
    simp [Small.get_eq a hlt]

/-- The chunks counted one by one are as many as the indices of the nonzero ones (R171). -/
theorem Small.chunksUsed_eq_card (a : Small) :
    a.chunksUsed = ((Finset.range 67).filter fun i => a.get i ≠ 0#64).card := by
  rw [← Nat.count_eq_card_filter_range, Nat.count, Small.chunksUsed, Small.chunk_toList_eq_map_get, List.countP_map]
  refine List.countP_congr fun i _ => ?_
  simp

/-! ### The words of an image sent -/

/-- A word of the image sent, from its read with a default. -/
theorem imageSend_getElem?_of_getD (a : Small) {i : Nat} (h : i < 70) {w : Word}
    (hw : (imageSend a).getD i 0#64 = w) : (imageSend a)[i]? = some w := by
  have hlt : i < (imageSend a).length := by simpa using h
  rw [List.getElem?_eq_getElem hlt, ← hw, List.getD_eq_getElem _ _ hlt]

/-- Words 0 to 66 of the image sent are the chunks (R73). -/
theorem imageSend_getElem?_chunk (a : Small) {i : Nat} (h : i < 67) : (imageSend a)[i]? = some (a.get i) := by
  have hword : (imageSend a).getD i 0#64 = a.get i := (a.image.toWords_getD_chunk h).trans (a.get_eq h).symm
  exact imageSend_getElem?_of_getD a (by omega) hword

/-- Word 67 of the image sent is the Inf field (R73). -/
theorem imageSend_getElem?_inf (a : Small) : (imageSend a)[67]? = some a.inf :=
  imageSend_getElem?_of_getD a (by decide) (a.image.toWords_getD_tail 0)

/-- Word 68 of the image sent is the NaN field (R73). -/
theorem imageSend_getElem?_nan (a : Small) : (imageSend a)[68]? = some a.nan :=
  imageSend_getElem?_of_getD a (by decide) (a.image.toWords_getD_tail 1)

/-! ### Responses that leave the units alone -/

/-- A command that only answers changes the response stream and nothing else (R95). -/
theorem State.complete_eq (s : State) (opc : BitVec 8) (ws : List Word) :
    s.complete opc ws = { s with output := s.output ++ statusWord opc .ok :: ws } := by
  simp [State.complete, State.respond, State.send]

/-- The range test of R173 on the counter of an image, read as a signed integer. -/
theorem addsInRange_iff {n : BitVec 32} : addsInRange n = true ↔ 0 ≤ n.toInt ∧ n.toInt ≤ 2047 :=
  decide_eq_true_iff

end Sys2Proof.Machine

namespace Sys2Proof

open Machine

/-- Settles O37: the count of nonzero chunks is a cardinality, and the command only answers. -/
theorem sChunksCountsNonzero : Obligations.SChunksCountsNonzero := by
  unfold Obligations.SChunksCountsNonzero
  intro s
  rw [exec_sChunks, State.complete_eq, Small.chunksUsed_eq_card]
  rfl

/-- Settles O38: the words of the image, field by field, and the command only answers. -/
theorem sStoreSendsTheImage : Obligations.SStoreSendsTheImage := by
  unfold Obligations.SStoreSendsTheImage
  intro s
  refine ⟨imageSend s.small, ?answers, imageSend_length _, fun _ => imageSend_getElem?_chunk _,
    imageSend_getElem?_inf _, imageSend_getElem?_nan _, ?adds⟩
  case answers =>
    rw [exec_sStore, State.complete_eq]
    rfl
  case adds => rw [imageSend_getElem?_adds, BitVec.ofNat_toNat]

/-- Settles O39: the two sides of the range test of R173. -/
theorem sLoadLoadsOrRejects : Obligations.SLoadLoadsOrRejects := by
  unfold Obligations.SLoadLoadsOrRejects
  refine fun x s => ⟨fun hlow hhigh => ?loaded, fun hout => ?rejected⟩
  case loaded =>
    refine ⟨_, exec_sLoad_of_range x s (addsInRange_iff.mpr ⟨hlow, hhigh⟩), ⟨rfl, rfl, rfl⟩,
      State.complete_output _ _ _, rfl, rfl, rfl, rfl⟩
  case rejected =>
    have hrange : addsInRange x.adds = false := by
      rw [Bool.eq_false_iff, ne_eq, addsInRange_iff]
      omega
    exact exec_sLoad_of_bad x s hrange

end Sys2Proof
end

section
/-! SUPPORT. Carry propagation (R156) branch by branch, the normalized form it leaves (R37, R160), that it changes
nothing of that form, and the settlement of the statement that a second propagation changes nothing (R161). -/

namespace Sys2Proof.Machine

/-! ### The carry of a chunk -/

section
variable {c : Word}

theorem carryOf_toInt (c : Word) : (carryOf c).toInt = c.toInt / 2 ^ 32 := by
  rw [carryOf, BitVec.toInt_sshiftRight, Int.shiftRight_eq_div_pow]
  rfl

theorem carryOf_eq_zero_iff : carryOf c = 0#64 ↔ 0 ≤ c.toInt ∧ c.toInt < 2 ^ 32 := by
  rw [← BitVec.toInt_inj, carryOf_toInt, BitVec.toInt_zero]
  omega

theorem carryOf_eq_minusOne_iff : carryOf c = minusOne ↔ -(2 ^ 32) ≤ c.toInt ∧ c.toInt < 0 := by
  have hone : minusOne.toInt = -1 := by decide
  rw [← BitVec.toInt_inj, carryOf_toInt, hone]
  omega

/-- A zero chunk gives no carry. -/
theorem ne_zero_of_carryOf_ne_zero (h : carryOf c ≠ 0#64) : c ≠ 0#64 := by
  rintro rfl
  exact h (by decide)

theorem ne_zero_of_carryOf_eq_minusOne (h : carryOf c = minusOne) : c ≠ 0#64 :=
  ne_zero_of_carryOf_ne_zero (by rw [h]; decide)

/-- The low half of a chunk is its value modulo 2^32. -/
theorem toInt_and_lowMask (c : Word) : (c &&& lowMask).toInt = c.toNat % 2 ^ 32 := by
  have hnat : (c &&& lowMask).toNat = c.toNat % 2 ^ 32 := Nat.and_two_pow_sub_one_eq_mod c.toNat 32
  rw [BitVec.toInt_eq_toNat_of_lt (by omega), hnat]
  rfl

/-- The low half that a chunk keeps gives no carry. -/
@[simp] theorem carryOf_and_lowMask (c : Word) : carryOf (c &&& lowMask) = 0#64 := by
  rw [carryOf_eq_zero_iff, toInt_and_lowMask]
  omega

/-- A chunk that gives no carry takes a top chunk of -1 without a wrap (step 3 of R156). -/
theorem toInt_add_minusTwoPow32 (h : carryOf c = 0#64) : (c + minusTwoPow32).toInt = c.toInt - 2 ^ 32 := by
  obtain ⟨hlow, hhigh⟩ := carryOf_eq_zero_iff.mp h
  have hd : minusTwoPow32.toInt = -(2 ^ 32) := by decide
  rw [BitVec.toInt_add, hd, Int.bmod_eq_of_le (by omega) (by omega)]
  omega

end

/-! ### The uppermost nonzero chunk -/

section
variable {a b : Small} {n k : Nat}

theorem topNonzero_succ_of_ne (h : a.get n ≠ 0#64) : topNonzero a (n + 1) = some n := if_pos h

theorem topNonzero_succ_of_eq (h : a.get n = 0#64) : topNonzero a (n + 1) = topNonzero a n := if_neg (by simpa using h)

theorem topNonzero_eq_none_iff : topNonzero a n = none ↔ ∀ j < n, a.get j = 0#64 := by
  induction n with
  | zero => simp [topNonzero]
  | succ n ih =>
    rw [Nat.forall_lt_succ_right, ← ih]
    by_cases hn : a.get n = 0#64
    · simp [topNonzero_succ_of_eq hn, hn]
    · simp [topNonzero_succ_of_ne hn, hn]

theorem topNonzero_eq_some_iff :
    topNonzero a n = some k ↔ k < n ∧ a.get k ≠ 0#64 ∧ ∀ j, k < j → j < n → a.get j = 0#64 := by
  induction n with
  | zero => simp [topNonzero]
  | succ n ih =>
    by_cases hn : a.get n = 0#64
    · rw [topNonzero_succ_of_eq hn, ih]
      grind
    · rw [topNonzero_succ_of_ne hn]
      grind

/-- Only the chunks below the bound count. -/
theorem topNonzero_congr (h : ∀ j < n, a.get j = b.get j) : topNonzero a n = topNonzero b n := by
  induction n with
  | zero => rfl
  | succ n ih => rw [topNonzero, topNonzero, h n n.lt_succ_self, ih fun j hj => h j (by omega)]

/-- Zero chunks from the bound up do not count. -/
theorem topNonzero_of_zero_above {m : Nat} (h : ∀ j, n ≤ j → a.get j = 0#64) (hle : n ≤ m) :
    topNonzero a m = topNonzero a n := by
  induction m, hle using Nat.le_induction with
  | base => rfl
  | succ m hm ih => simpa [topNonzero, h m hm] using ih

end

/-! ### The branches of the loop -/

section
variable {a : Small} {turns i u : Nat}

/-- The loop ends above the uppermost index to visit. -/
theorem carryLoop_of_lt (h : u < i) (w : Option Nat) : carryLoop turns a i u w = (a, w) := by
  cases turns with
  | zero => rfl
  | succ turns => exact if_pos h

/-- A chunk that gives no carry is passed, and is the witness if it is not zero. -/
theorem carryLoop_of_no_carry (h : i ≤ u) (hc : carryOf (a.get i) = 0#64) :
    carryLoop (turns + 1) a i u (topNonzero a i) = carryLoop turns a (i + 1) u (topNonzero a (i + 1)) := by
  have hu : ¬u < i := by omega
  by_cases hz : a.get i = 0#64 <;> simp [carryLoop, topNonzero, hu, hz, hc]

/-- The loop ends at an uppermost chunk whose carry is -1. -/
theorem carryLoop_of_negative_top (hc : carryOf (a.get u) = minusOne) (w : Option Nat) :
    carryLoop (turns + 1) a u u w = (a, some u) := by
  have hz : a.get u ≠ 0#64 := ne_zero_of_carryOf_eq_minusOne hc
  have hone : minusOne ≠ 0#64 := by decide
  simp [carryLoop, hz, hc, hone]

/-- A chunk gives its carry to the next and keeps its low half; the carry out of chunk 66 is an overflow
(R156, R159). -/
def Small.giveCarry (a : Small) (i : Nat) : Small :=
  if 67 ≤ i + 1 then chunkOverflow (a.set i (a.get i &&& lowMask))
  else (a.set i (a.get i &&& lowMask)).addAt (i + 1) (carryOf (a.get i))

theorem Small.giveCarry_get_of_ne {j : Nat} (h : i ≠ j) (h' : i + 1 ≠ j) : (a.giveCarry i).get j = a.get j := by
  unfold Small.giveCarry
  split <;> simp [h, h']

@[simp] theorem Small.giveCarry_get_self (h : i < 67) : (a.giveCarry i).get i = a.get i &&& lowMask := by
  unfold Small.giveCarry
  split <;> simp [h]

/-- A chunk that gives a carry, and does not end the loop, hands it on; a carry out of the uppermost chunk to visit
makes the next chunk the uppermost, if there is one. -/
theorem carryLoop_of_carry (h : i ≤ u) (hu : u ≤ 66) (hc : carryOf (a.get i) ≠ 0#64)
    (htop : i = u → carryOf (a.get i) ≠ minusOne) :
    carryLoop (turns + 1) a i u (topNonzero a i) =
      carryLoop turns (a.giveCarry i) (i + 1) (min (max u (i + 1)) 66) (topNonzero (a.giveCarry i) (i + 1)) := by
  have hz : a.get i ≠ 0#64 := ne_zero_of_carryOf_ne_zero hc
  have hle : ¬u < i := by omega
  have hend : ¬(i = u ∧ carryOf (a.get i) = minusOne) := fun hend => htop hend.1 hend.2
  have hbelow : topNonzero (a.giveCarry i) i = topNonzero a i :=
    topNonzero_congr fun j hj => Small.giveCarry_get_of_ne (by omega) (by omega)
  have hwitness : topNonzero (a.giveCarry i) (i + 1) =
      if a.get i &&& lowMask ≠ 0#64 then some i else topNonzero a i := by
    rw [topNonzero, Small.giveCarry_get_self (by omega), hbelow]
  rw [hwitness, Small.giveCarry]
  simp only [carryLoop, if_neg hle, if_neg hz, if_neg hc, if_neg hend]
  by_cases hlast : 67 ≤ i + 1
  · obtain rfl : i = 66 := by omega
    simp
  · have hnext : (if i = u then i + 1 else u) = min (max u (i + 1)) 66 := by split <;> omega
    rw [if_neg hlast, if_neg hlast, hnext]

end

/-! ### The form the loop leaves -/

/-- Chunks carried up to an index: no chunk below it gives a carry (R160). -/
def Small.CarriedBelow (a : Small) (i : Nat) : Prop := ∀ j < i, carryOf (a.get j) = 0#64

/-- Chunks carried up to a top chunk, whose own carry is 0 or -1 (R160). -/
def Small.CarriedTo (a : Small) (k : Nat) : Prop :=
  a.CarriedBelow k ∧ (carryOf (a.get k) = 0#64 ∨ carryOf (a.get k) = minusOne)

/-- What step 2 of R156 leaves: the witness is the uppermost nonzero chunk, and the chunks are carried up to it. -/
structure LeavesCarried (r : Small × Option Nat) : Prop where
  top : topNonzero r.1 67 = r.2
  carried : ∀ k, r.2 = some k → r.1.CarriedTo k

section
variable {a : Small} {i u : Nat}

theorem Small.CarriedBelow.mono {j : Nat} (h : a.CarriedBelow i) (hj : j ≤ i) : a.CarriedBelow j :=
  fun m hm => h m (by omega)

theorem Small.CarriedBelow.succ (h : a.CarriedBelow i) (hi : carryOf (a.get i) = 0#64) : a.CarriedBelow (i + 1) :=
  Nat.forall_lt_succ_right.mpr ⟨h, hi⟩

theorem Small.CarriedBelow.giveCarry (h : a.CarriedBelow i) (hi : i < 67) :
    (a.giveCarry i).CarriedBelow (i + 1) := by
  refine Small.CarriedBelow.succ (fun j hj => ?_) (by simp [hi])
  rw [Small.giveCarry_get_of_ne (by omega) (by omega)]
  exact h j hj

theorem leavesCarried_of_carriedBelow (hlow : a.CarriedBelow i) (habove : ∀ j, i ≤ j → a.get j = 0#64)
    (hi : i ≤ 67) : LeavesCarried (a, topNonzero a i) where
  top := topNonzero_of_zero_above habove hi
  carried k hk := by
    obtain ⟨hki, -, -⟩ := topNonzero_eq_some_iff.mp hk
    exact ⟨hlow.mono (by omega), .inl (hlow k hki)⟩

theorem leavesCarried_of_negative_top (hlow : a.CarriedBelow u) (habove : ∀ j, u < j → a.get j = 0#64)
    (hu : u ≤ 66) (hc : carryOf (a.get u) = minusOne) : LeavesCarried (a, some u) where
  top := topNonzero_eq_some_iff.mpr ⟨by omega, ne_zero_of_carryOf_eq_minusOne hc, fun j hj _ => habove j hj⟩
  carried k hk := by
    cases hk
    exact ⟨hlow, .inr hc⟩

/-- The loop answers the uppermost nonzero chunk, with the chunks carried up to it: each turn carries one chunk more,
and there are turns enough to pass chunk u. -/
theorem carryLoop_leavesCarried (turns : Nat) (hlow : a.CarriedBelow i) (habove : ∀ j, u < j → a.get j = 0#64)
    (hu : u ≤ 66) (hi : i ≤ u + 1) (hturns : 68 ≤ turns + i) :
    LeavesCarried (carryLoop turns a i u (topNonzero a i)) := by
  induction turns generalizing a i u with
  | zero => omega
  | succ turns ih =>
    by_cases hend : u < i
    · rw [carryLoop_of_lt hend]
      exact leavesCarried_of_carriedBelow hlow (fun j hj => habove j (by omega)) (by omega)
    have hle : i ≤ u := by omega
    by_cases hc : carryOf (a.get i) = 0#64
    · rw [carryLoop_of_no_carry hle hc]
      exact ih (hlow.succ hc) habove hu (by omega) (by omega)
    by_cases htop : i = u ∧ carryOf (a.get i) = minusOne
    · obtain ⟨rfl, hneg⟩ := htop
      rw [carryLoop_of_negative_top hneg]
      exact leavesCarried_of_negative_top hlow habove hu hneg
    · rw [carryLoop_of_carry hle hu hc fun hiu hneg => htop ⟨hiu, hneg⟩]
      refine ih (hlow.giveCarry (by omega)) (fun j hj => ?_) (by omega) (by omega) (by omega)
      by_cases hj67 : 67 ≤ j
      · exact Small.get_of_ge _ hj67
      · rw [Small.giveCarry_get_of_ne (by omega) (by omega), habove j (by omega)]

end

/-! ### Moving a top chunk of -1 down -/

section
variable {a : Small} {n k u : Nat}

/-- The normalized form of R160 with a nonzero top chunk, in terms of carries. -/
theorem Small.normalized_iff_of_ne (hne : a.get u ≠ 0#64) :
    a.Normalized u ↔ topNonzero a 67 = some u ∧ a.CarriedTo u ∧ (a.get u = minusOne → u = 0) := by
  have hrange : carryOf (a.get u) = 0#64 ∨ carryOf (a.get u) = minusOne ↔
      -(2 ^ 32) ≤ (a.get u).toInt ∧ (a.get u).toInt < 2 ^ 32 := by
    rw [carryOf_eq_zero_iff, carryOf_eq_minusOne_iff]
    omega
  rw [topNonzero_eq_some_iff, Small.CarriedTo, hrange, Small.CarriedBelow]
  simp only [carryOf_eq_zero_iff, Small.Normalized]
  constructor
  · rintro ⟨hu, habove, hbelow, hlow, hhigh, hone⟩
    exact ⟨⟨by omega, hne, fun j hj hj67 => habove j hj67 hj⟩, ⟨hbelow, hlow, hhigh⟩, hone⟩
  · rintro ⟨⟨hu, -, habove⟩, ⟨hbelow, hlow, hhigh⟩, hone⟩
    exact ⟨by omega, fun j hj67 hj => habove j hj hj67, hbelow, hlow, hhigh, hone⟩

/-- The chunks after one turn of step 3 of R156: the top chunk of -1 goes, and the chunk below it loses 2^32. -/
def Small.absorbAt (a : Small) (n : Nat) : Small := (a.addAt n minusTwoPow32).set (n + 1) 0#64

theorem Small.absorbAt_get_of_ne {j : Nat} (h : n ≠ j) (h' : n + 1 ≠ j) : (a.absorbAt n).get j = a.get j := by
  simp [Small.absorbAt, h, h']

theorem absorbTop_of_minusOne (h : a.get (n + 1) = minusOne) : absorbTop a (n + 1) = absorbTop (a.absorbAt n) n :=
  if_pos h

theorem absorbTop_of_normal_top (h : a.get k = minusOne → k = 0) : absorbTop a k = (a, k) := by
  cases k with
  | zero => rfl
  | succ n => exact if_neg fun hone => absurd (h hone) (by omega)

/-- The chunk that takes a top chunk of -1 gave no carry, and then gives a carry of -1. -/
theorem carryOf_absorbAt (hn : n < 67) (hc : carryOf (a.get n) = 0#64) :
    carryOf ((a.absorbAt n).get n) = minusOne := by
  obtain ⟨hlow, hhigh⟩ := carryOf_eq_zero_iff.mp hc
  rw [carryOf_eq_minusOne_iff, Small.absorbAt, Small.get_set_other _ (by omega), Small.get_addAt_same _ hn,
    toInt_add_minusTwoPow32 hc]
  omega

theorem Small.CarriedTo.absorbAt (h : a.CarriedTo (n + 1)) (hn : n < 67) : (a.absorbAt n).CarriedTo n := by
  obtain ⟨hbelow, -⟩ := h
  refine ⟨fun j hj => ?_, .inr (carryOf_absorbAt hn (hbelow n (by omega)))⟩
  rw [Small.absorbAt_get_of_ne (by omega) (by omega)]
  exact hbelow j (by omega)

theorem topNonzero_absorbAt (hk : topNonzero a 67 = some (n + 1)) (h : a.CarriedTo (n + 1)) :
    topNonzero (a.absorbAt n) 67 = some n := by
  obtain ⟨hn, -, habove⟩ := topNonzero_eq_some_iff.mp hk
  have hcarry := carryOf_absorbAt (a := a) (n := n) (by omega) (h.1 n (by omega))
  refine topNonzero_eq_some_iff.mpr ⟨by omega, ne_zero_of_carryOf_eq_minusOne hcarry, fun j hj hj67 => ?_⟩
  by_cases hjn : n + 1 = j
  · subst hjn
    exact Small.get_set_same _ hn _
  · rw [Small.absorbAt_get_of_ne (by omega) hjn]
    exact habove j (by omega) hj67

/-- Step 3 of R156 ends in the normalized form of R160 with a nonzero top chunk. -/
theorem absorbTop_normalized (hk : topNonzero a 67 = some k) (h : a.CarriedTo k) :
    (absorbTop a k).1.Normalized (absorbTop a k).2 ∧ (absorbTop a k).1.get (absorbTop a k).2 ≠ 0#64 := by
  induction k generalizing a with
  | zero =>
    obtain ⟨-, hne, -⟩ := topNonzero_eq_some_iff.mp hk
    exact ⟨(Small.normalized_iff_of_ne hne).mpr ⟨hk, h, fun _ => rfl⟩, hne⟩
  | succ n ih =>
    obtain ⟨hn, hne, -⟩ := topNonzero_eq_some_iff.mp hk
    by_cases hone : a.get (n + 1) = minusOne
    · rw [absorbTop_of_minusOne hone]
      exact ih (topNonzero_absorbAt hk h) (h.absorbAt (by omega))
    · rw [absorbTop_of_normal_top fun h1 => absurd h1 hone]
      exact ⟨(Small.normalized_iff_of_ne hne).mpr ⟨hk, h, fun h1 => absurd h1 hone⟩, hne⟩

end

/-! ### The form a propagation leaves, and keeps -/

section
variable {a : Small} {i u : Nat}

/-- What carry propagation can do: it ends with every chunk zero and index 0, or it moves the top chunk of -1 down in
chunks carried up to their uppermost nonzero chunk (R156). -/
theorem carryPropagate_cases (a : Small) :
    (∃ b, topNonzero b 67 = none ∧ carryPropagate a = (b.refill, 0)) ∨
      ∃ b k, topNonzero b 67 = some k ∧ b.CarriedTo k ∧
        carryPropagate a = ((absorbTop b k).1.refill, (absorbTop b k).2) := by
  unfold carryPropagate
  split
  case h_1 hnone => exact .inl ⟨a, hnone, rfl⟩
  case h_2 u hsome =>
    obtain ⟨hu, -, habove⟩ := topNonzero_eq_some_iff.mp hsome
    have hzero : ∀ j, u < j → a.get j = 0#64 := fun j hj =>
      if h : j < 67 then habove j hj h else Small.get_of_ge a (by omega)
    have hloop : LeavesCarried (carryLoop 68 a 0 u none) :=
      carryLoop_leavesCarried 68 (fun j hj => absurd hj j.not_lt_zero) hzero (by omega) (by omega) (by omega)
    split
    case h_1 b hb =>
      rw [hb] at hloop
      exact .inl ⟨b, hloop.top, rfl⟩
    case h_2 b k hb =>
      rw [hb] at hloop
      exact .inr ⟨b, k, hloop.top, hloop.carried k rfl, rfl⟩

/-- Where every chunk is zero the normalized form has index 0 (R37). -/
theorem Small.normalized_of_topNonzero_eq_none (h : topNonzero a 67 = none) : a.Normalized 0 := by
  have hzero := topNonzero_eq_none_iff.mp h
  refine ⟨by omega, fun j hj _ => hzero j hj, fun j hj => absurd hj j.not_lt_zero, ?_⟩
  rw [hzero 0 (by omega)]
  decide

/-- A propagation leaves the normalized form, with the index it answers; the chunk at that index is zero only where the
index is 0 (R37, R156, R160). -/
theorem carryPropagate_normalized (a : Small) :
    (carryPropagate a).1.Normalized (carryPropagate a).2 ∧
      ((carryPropagate a).1.get (carryPropagate a).2 = 0#64 → (carryPropagate a).2 = 0) := by
  obtain ⟨b, hnone, heq⟩ | ⟨b, k, hk, hcarried, heq⟩ := carryPropagate_cases a
  · rw [heq]
    exact ⟨Small.normalized_of_topNonzero_eq_none hnone, fun _ => rfl⟩
  · obtain ⟨hnorm, hne⟩ := absorbTop_normalized hk hcarried
    rw [heq]
    exact ⟨hnorm, fun h => absurd h hne⟩

/-- The loop passes chunks carried up to u without a write, and answers u. -/
theorem carryLoop_of_carriedTo (turns : Nat) (h : a.CarriedTo u) (hne : a.get u ≠ 0#64) (hi : i ≤ u)
    (hturns : u < turns + i) : carryLoop turns a i u (topNonzero a i) = (a, some u) := by
  obtain ⟨hbelow, hcarry⟩ := h
  induction turns generalizing i with
  | zero => omega
  | succ turns ih =>
    by_cases hlt : i < u
    · rw [carryLoop_of_no_carry hi (hbelow i hlt)]
      exact ih hlt (by omega)
    · obtain rfl : i = u := by omega
      obtain hc | hc := hcarry
      · rw [carryLoop_of_no_carry hi hc, carryLoop_of_lt (Nat.lt_succ_self i), topNonzero_succ_of_ne hne]
      · exact carryLoop_of_negative_top hc _

/-- A propagation of chunks in normalized form sets adds and does nothing else (R161). -/
theorem carryPropagate_of_normalized (h : a.Normalized u) (h0 : a.get u = 0#64 → u = 0) :
    carryPropagate a = (a.refill, u) := by
  by_cases hne : a.get u = 0#64
  · obtain rfl := h0 hne
    obtain ⟨-, habove, -⟩ := h
    have hnone : topNonzero a 67 = none := topNonzero_eq_none_iff.mpr fun j hj =>
      j.eq_zero_or_pos.elim (fun hj0 => hj0 ▸ hne) (habove j hj)
    rw [carryPropagate, hnone]
  · obtain ⟨htop, hcarried, hone⟩ := (Small.normalized_iff_of_ne hne).mp h
    have hu : u < 67 := (topNonzero_eq_some_iff.mp htop).1
    have hloop : carryLoop 68 a 0 u none = (a, some u) :=
      carryLoop_of_carriedTo 68 hcarried hne u.zero_le (by omega)
    simp only [carryPropagate, htop, hloop, absorbTop_of_normal_top hone]

theorem Small.refill_eq_self (h : a.adds = 2046#32) : a.refill = a :=
  Small.ext_get (fun _ _ => rfl) rfl rfl h.symm

end

end Sys2Proof.Machine

namespace Sys2Proof

open Machine

/-- Settles O30: the first propagation leaves the normalized form, of which the second changes nothing. -/
theorem propagationIsIdempotent : Obligations.PropagationIsIdempotent := by
  unfold Obligations.PropagationIsIdempotent
  intro a
  obtain ⟨hnorm, hzero⟩ := carryPropagate_normalized a
  have hagain : carryPropagate (carryPropagate a).1 = carryPropagate a := by
    rw [carryPropagate_of_normalized hnorm hzero, Small.refill_eq_self (carryPropagate_adds a)]
  exact ⟨by rw [hagain], by rw [hagain], carryPropagate_adds _⟩

end Sys2Proof
end

section
/-! SUPPORT. Rounding an exact value and rounding S (R205, R206, R214): the ratios that `roundRatio` takes to a zero, that
rounding a small accumulator again changes nothing, and the settlements of the statements about both. -/

namespace Sys2Proof.Machine

/-! ### An exact value -/

theorem signOf_mul_natAbs (n : Int) : signOf (decide (n < 0)) * n.natAbs = n := by
  by_cases hn : n < 0
  · rw [decide_eq_true hn, signOf, if_pos rfl]
    omega
  · rw [decide_eq_false hn, signOf, if_neg Bool.false_ne_true]
    omega

/-- RNE64 is the case d = 1 of the shared rounding (R205; entry 8). -/
theorem rne64_correctlyRounded (n : Int) : CorrectlyRounded (decide (n < 0)) n 1 (rne64 n) := by
  have hround := roundRatio_correctlyRounded (decide (n < 0)) n.natAbs Nat.one_pos
  rwa [signOf_mul_natAbs, Nat.cast_one] at hround

/-! ### Rounding to a zero -/

section
variable (neg : Bool) (m : Nat) {d : Nat} (hd : 0 < d)
include hd

/-- The rounded quotient is 0 up to half of the divisor, the half itself included because 0 is even. -/
theorem roundHalfEven_eq_zero_iff : roundHalfEven m d = 0 ↔ 2 * m ≤ d := by
  obtain ⟨hnear, htie⟩ := roundHalfEven_near m hd
  constructor
  · intro h0
    simp only [h0, Nat.cast_zero, zero_mul, sub_zero, Nat.abs_cast] at hnear
    omega
  · intro hm
    have hle : roundHalfEven m d ≤ 1 := roundHalfEven_le m hd (by omega)
    by_contra hne
    have h1 : roundHalfEven m d = 1 := by omega
    rw [h1, Nat.cast_one, one_mul, abs_of_nonpos (by omega)] at hnear htie
    exact absurd (htie (by omega)) (by decide)

/-- The significand is 0 up to half of the smallest subnormal, which is one unit of 2^-1075 (R206). -/
theorem roundSig_eq_zero_iff : roundSig m d = 0 ↔ m ≤ d := by
  by_cases hs : roundShift m d = 1
  · rw [roundSig, hs, roundHalfEven_eq_zero_iff m (by omega)]
    omega
  · have hsig := le_roundSig m hd hs
    have hunit := roundUnit_le m hd hs
    have hpow : d * 1 ≤ d * 2 ^ roundShift m d := Nat.mul_le_mul_left d Nat.one_le_two_pow
    constructor <;> intro <;> omega

/-- A ratio of at most one unit rounds to the zero of its sign (R206, R209). -/
theorem roundRatio_of_le (h : m ≤ d) : roundRatio neg m d = packBinary64 neg 0 0 := by
  rw [roundRatio_eq, (roundSig_eq_zero_iff m hd).mpr h, if_pos (by decide)]

/-- Nothing else rounds to a zero: a pattern with a nonzero significand is a nonzero value or an infinity (R206). -/
theorem isZero_roundRatio_iff : isZero (roundRatio neg m d) = true ↔ m ≤ d := by
  constructor
  · intro hz
    obtain ⟨-, hfinite, hinf⟩ := roundRatio_isPatternOf neg m hd
    rw [← roundSig_eq_zero_iff m hd]
    obtain hlt | hle := lt_or_ge (roundSig m d * 2 ^ roundShift m d) (2 ^ 53 * 2 ^ 2046)
    · obtain ⟨-, hmag, -⟩ := hfinite hlt
      rw [finiteMagnitude_eq_zero_of_isZero hz] at hmag
      exact (Nat.mul_eq_zero.mp hmag.symm).resolve_right (Nat.two_pow_pos _).ne'
    · rw [hinf hle] at hz
      cases neg <;> exact absurd hz (by decide)
  · intro h
    rw [roundRatio_of_le neg m hd h]
    cases neg <;> decide

end

/-! ### Rounding a small accumulator again -/

/-- A second propagation leaves what the first left and answers the same index (R161). -/
theorem carryPropagate_carryPropagate (a : Small) : carryPropagate (carryPropagate a).1 = carryPropagate a := by
  obtain ⟨hindex, hsmall, -⟩ := propagationIsIdempotent a
  exact Prod.ext hsmall hindex

/-- Rounding leaves the accumulator as it was or as a propagation leaves it (R200). -/
theorem roundSmall_fst (a : Small) : (roundSmall a).1 = a ∨ (roundSmall a).1 = (carryPropagate a).1 := by
  obtain ⟨-, h⟩ | ⟨-, -, h⟩ | ⟨-, -, -, h⟩ | ⟨-, -, -, h⟩ := roundSmall_cases a
  · exact .inl (by rw [h])
  · exact .inl (by rw [h])
  · exact .inr (by rw [h])
  · exact .inr (by rw [h])

theorem roundSmall_of_nan {a : Small} (h : a.nan ≠ 0#64) : roundSmall a = (a, a.nan) := if_pos h

/-- Rounding what a propagation left, the flags clear before it, answers what rounding before it answers (R161, R200). -/
theorem roundSmall_carryPropagate {a : Small} (hnan : a.nan = 0#64) (hinf : a.inf = 0#64) :
    roundSmall (carryPropagate a).1 = roundSmall a := by
  by_cases hp : (carryPropagate a).1.nan = 0#64
  · simp [roundSmall, hnan, hinf, hp, carryPropagate_carryPropagate]
  · rw [roundSmall_of_nan hp]
    simp [roundSmall, hnan, hinf, hp]

/-- Rounding again leaves the accumulator as it is and answers the same pattern (R214). -/
theorem roundSmall_roundSmall (a : Small) : roundSmall (roundSmall a).1 = roundSmall a := by
  obtain ⟨-, h⟩ | ⟨-, -, h⟩ | ⟨hnan, hinf, -, h⟩ | ⟨hnan, hinf, -, h⟩ := roundSmall_cases a
  case inl | inr.inl => rw [congrArg Prod.fst h]
  case inr.inr.inl | inr.inr.inr => rw [congrArg Prod.fst h, roundSmall_carryPropagate hnan hinf]

/-- What S_ROUND leaves and answers (R200, R213). -/
theorem small_and_output_of_exec_sRound {s t : State} (h : exec .sRound s = .next t) :
    t.small = (roundSmall s.small).1 ∧ t.output = s.output ++ [0x07#64, (roundSmall s.small).2] := by
  cases h
  exact ⟨rfl, State.complete_output ..⟩

end Sys2Proof.Machine

namespace Sys2Proof

open Machine

/-- Settles O24: RNE64 is the shared rounding of a ratio, whose correctness is proved for every denominator. -/
theorem roundingIsCorrect : Obligations.RoundingIsCorrect := by
  unfold Obligations.RoundingIsCorrect
  exact rne64_correctlyRounded

/-- Settles O25: the magnitudes that round to a zero are 0 and 1, and the zero has the sign given to the rounding. -/
theorem whenAValueRoundsToZero : Obligations.WhenAValueRoundsToZero := by
  unfold Obligations.WhenAValueRoundsToZero
  refine ⟨roundRatio_of_le false 0 Nat.one_pos (by decide), fun n hn => ?nonzero,
    roundRatio_of_le false 1 Nat.one_pos le_rfl, roundRatio_of_le true 1 Nat.one_pos le_rfl⟩
  case nonzero =>
    rw [rne64, isZero_roundRatio_iff _ _ Nat.one_pos, Int.abs_eq_natAbs]
    omega

/-- Settles O27: S_ROUND is `roundSmall` on S, and rounding what it leaves gives the same again. -/
theorem sRoundIsIdempotent : Obligations.SRoundIsIdempotent := by
  unfold Obligations.SRoundIsIdempotent
  intro s t u hst htu
  obtain ⟨htsmall, htout⟩ := small_and_output_of_exec_sRound hst
  obtain ⟨husmall, huout⟩ := small_and_output_of_exec_sRound htu
  have hagain : roundSmall t.small = roundSmall s.small := by rw [htsmall, roundSmall_roundSmall]
  rw [hagain] at husmall huout
  rw [← htsmall] at husmall
  exact ⟨⟨_, htout, huout⟩, husmall, htsmall ▸ roundSmall_fst s.small⟩

end Sys2Proof
end

section
/-! SUPPORT. L_CHUNKS (R254): the bins counted index by index as a cardinality, the bound that the two special bins give
(R43), and the settlement of the statement about the command. -/

namespace Sys2Proof.Machine

/-! ### Counting the bins -/

/-- A bin is live when and only when its count is not negative (R41). -/
theorem Bin.live_iff {b : Bin} : b.live = true ↔ 0 ≤ b.count.toInt := by
  simp [Bin.live, BitVec.msb_eq_toInt]

/-- The indices of the live bins (R41), whose number L_CHUNKS answers (R254). -/
def Large.liveBins (l : Large) : Finset BinIndex := Finset.univ.filter fun ix => 0 ≤ (l.bin ix).count.toInt

@[simp] theorem Large.mem_liveBins {l : Large} {ix : BinIndex} : ix ∈ l.liveBins ↔ (l.bin ix).live = true := by
  simp [Large.liveBins, Bin.live_iff]

/-- The bins counted one by one are as many as the live ones: an index of 12 bits and its number in [0, 4096) determine
each other (R17, R254). -/
theorem Large.binsLive_eq_card (l : Large) : l.binsLive = l.liveBins.card := by
  have hcount : l.binsLive = Nat.count (fun n => (l.bin (BitVec.ofNat 12 n)).live = true) 4096 := by
    simp [Large.binsLive, Nat.count]
  rw [hcount, Nat.count_eq_card_filter_range]
  refine Finset.card_nbij' (BitVec.ofNat 12) BitVec.toNat ?toBin ?toNumber ?number ?bin
  case toBin =>
    intro n hn
    simpa using (Finset.mem_filter.mp hn).2
  case toNumber =>
    intro ix hix
    have hlt : ix.toNat < 4096 := ix.isLt
    simpa [hlt] using hix
  case number =>
    intro n hn
    have hlt : n < 4096 := Finset.mem_range.mp (Finset.mem_filter.mp hn).1
    simpa using Nat.mod_eq_of_lt hlt
  case bin =>
    intro ix _
    simp

/-! ### The special bins -/

/-- The two special bins, of the positive and of the negative infinities and NaNs (R43). -/
def specialBins : Finset BinIndex := {0x7FF#12, 0xFFF#12}

theorem binSpecial_of_mem_specialBins {ix : BinIndex} (h : ix ∈ specialBins) : binSpecial ix = true := by
  obtain rfl | rfl : ix = 0x7FF#12 ∨ ix = 0xFFF#12 := by simpa [specialBins] using h
  · rfl
  · rfl

/-- There are 2^12 bins, and two of them are special. -/
theorem card_compl_specialBins : specialBinsᶜ.card = 4094 := by
  have hbins : Fintype.card BinIndex = 4096 := FinEnum.card_eq_fintypeCard.symm.trans (FinEnum.card_bitVec 12)
  have hspecial : specialBins.card = 2 := rfl
  rw [Finset.card_compl, hbins, hspecial]

/-- Under the invariant no special bin is live, so at most 4094 bins are (R43, R254). -/
theorem Large.Inv.card_liveBins_le {l : Large} (h : l.Inv) : l.liveBins.card ≤ 4094 := by
  have hidle : l.liveBins ⊆ specialBinsᶜ := by
    intro ix hlive
    rw [Finset.mem_compl]
    intro hmem
    rw [Large.mem_liveBins, h.specialIdle ix (binSpecial_of_mem_specialBins hmem), Bin.unused_live] at hlive
    contradiction
  exact card_compl_specialBins ▸ Finset.card_le_card hidle

end Sys2Proof.Machine

namespace Sys2Proof

open Machine

/-- Settles O54: the count of live bins is a cardinality, the command only answers, and the two special bins are never
counted. -/
theorem lChunksCountsLiveBins : Obligations.LChunksCountsLiveBins := by
  unfold Obligations.LChunksCountsLiveBins
  intro s
  refine ⟨?answer, Large.Inv.card_liveBins_le⟩
  case answer =>
    rw [exec_lChunks, State.complete_eq, Large.binsLive_eq_card]
    rfl

end Sys2Proof
end

section
/-! SUPPORT. Illegal command words (R91, R92, R97, R282): the words of the opcode map are the legal ones, the decoder
names a word illegal exactly when it is none of them, and the answer to such a word written as one state update. -/

namespace Sys2Proof

/-! ### The words of the opcode map -/

/-- The command words of the opcode map are the two ranges of R92, with RSVD 0 (R91). -/
theorem mem_opcodeMap_words_iff {w : Word} : w ∈ opcodeMap.map Prod.fst ↔ LegalCommandWord w := by
  simp only [opcodeMap, List.map_cons, List.map_nil, List.mem_cons, List.not_mem_nil, or_false, BitVec.toNat_eq,
    BitVec.toNat_ofNat, LegalCommandWord]
  omega

theorem opcodeMap_lookup_eq_none_iff {w : Word} : opcodeMap.lookup w = none ↔ ¬ LegalCommandWord w := by
  rw [List.lookup_eq_none_iff, ← mem_opcodeMap_words_iff, List.mem_map]
  simp only [bne_iff_ne, not_exists, not_and]
  exact forall₂_congr fun _ _ => ne_comm

/-! ### The decoder -/

/-- The operand words of a command complete it or leave it held; they are never answered ILLEGAL (R96, R98). -/
theorem decodeOperands_ne_illegal (shape : OperandShape) (ws : List Word) (w : Word) (rest : List Word) :
    decodeOperands shape ws ≠ .illegal w rest := by
  cases shape with
  | none i => simp [decodeOperands]
  | image f =>
    rw [decodeOperands]
    split <;> simp
  | pattern f => cases ws <;> simp [decodeOperands]
  | vector f | pairs f =>
    cases ws with
    | nil => simp [decodeOperands]
    | cons n ws =>
      rw [decodeOperands]
      split <;> simp

/-- The decoder names a command word illegal exactly when it is no legal one; it takes that word alone (R97). -/
theorem decode_cons_eq_illegal_iff {w w' : Word} {ws rest : List Word} :
    decode (w :: ws) = .illegal w' rest ↔ ¬ LegalCommandWord w ∧ w' = w ∧ rest = ws := by
  rw [← opcodeMap_lookup_eq_none_iff, decode]
  cases hl : opcodeMap.lookup w with
  | none => simp [eq_comm]
  | some shape => simp [decodeOperands_ne_illegal]

end Sys2Proof

namespace Sys2Proof.Machine

/-! ### The answer -/

/-- The fields of a status word as a sum (R94). -/
theorem statusWord_toNat (opc : BitVec 8) (err : ErrorCode) :
    (statusWord opc err).toNat = 256 * err.code.toNat + opc.toNat := by
  rw [statusWord, BitVec.toNat_append, ← Nat.shiftLeft_add_eq_or_of_lt opc.isLt, BitVec.toNat_append]
  simp [Nat.shiftLeft_eq, Nat.mul_comm]

/-- The status word of an illegal command word echoes its low 8 bits (R94, R97, R282). -/
theorem statusWord_illegal (w : Word) :
    statusWord (w.setWidth 8) .illegal = BitVec.ofNat 64 (0x100 + w.toNat % 256) := by
  apply BitVec.eq_of_toNat_eq
  rw [statusWord_toNat, BitVec.toNat_setWidth, BitVec.toNat_ofNat]
  simp only [ErrorCode.code, BitVec.toNat_ofNat]
  omega

theorem State.rejectIllegal_eq (s : State) (w : Word) (rest : List Word) : s.rejectIllegal w rest =
    { s with
      pending := [], input := rest, output := s.output ++ [BitVec.ofNat 64 (0x100 + w.toNat % 256)] } := by
  rw [← statusWord_illegal]
  rfl

theorem step_of_fetch_illegal {s : State} {w : Word} {rest : List Word} (h : s.fetch = .illegal w rest) :
    step s = .next (s.rejectIllegal w rest) := by
  rw [step, h]

end Sys2Proof.Machine

namespace Sys2Proof

open Machine

/-- Settles O5: the decoder names exactly the words outside the opcode map illegal, and the step on such a word only
receives it and answers. -/
theorem illegalWordIsRejected : Obligations.IllegalWordIsRejected := by
  unfold Obligations.IllegalWordIsRejected
  refine ⟨?rejected, ?legal⟩
  case rejected =>
    intro s w rest harrived hw
    have hfetch : s.fetch = .illegal w rest := by
      rw [State.fetch, State.arrived, harrived]
      exact decode_cons_eq_illegal_iff.mpr ⟨hw, rfl, rfl⟩
    rw [step_of_fetch_illegal hfetch, State.rejectIllegal_eq]
  case legal =>
    intro w w' ws rest hw hdecode
    obtain ⟨hillegal, -, -⟩ := decode_cons_eq_illegal_iff.mp hdecode
    exact hillegal hw

end Sys2Proof
end

section
/-! SUPPORT. Reset (R300 to R302): the fields of the reset state, the counters as signed integers, the two
initialisation commands written as one state update each, and the settlements of the statements about reset. -/

namespace Sys2Proof.Machine

/-! ### The reset state -/

@[simp] theorem State.reset_small : State.reset.small = Small.reset := rfl
@[simp] theorem State.reset_large : State.reset.large = Large.reset := rfl
@[simp] theorem State.reset_pending : State.reset.pending = [] := rfl
@[simp] theorem State.reset_input : State.reset.input = [] := rfl
@[simp] theorem State.reset_output : State.reset.output = [] := rfl

/-- A small accumulator has all its adds left at reset (R35, R301). -/
theorem Small.reset_adds_toInt : Small.reset.adds.toInt = 2047 := by
  rw [Small.reset_adds]
  decide

/-- The counter of a bin not in use is -1 (R41, R301). -/
theorem Bin.unused_count_toInt : Bin.unused.count.toInt = -1 := by
  rw [Bin.unused_count]
  decide

/-- No bin is marked in use at reset (R42, R301). -/
theorem Large.reset_used_getElem? {k : Nat} (h : k < 64) : Large.reset.used[k]? = some 0#64 := by
  simp [Large.reset, h]

/-! ### The initialisation commands -/

/-- S_INIT writes S and answers, and changes nothing else (R163, R302). -/
theorem exec_sInit_eq (s : State) : exec .sInit s =
    .next { s with small := State.reset.small, output := s.output ++ [0x01#64] } := by
  rw [exec_sInit, State.complete_eq]
  rfl

/-- L_INIT writes L and answers, and changes nothing else (R245, R302). -/
theorem exec_lInit_eq (s : State) : exec .lInit s =
    .next { s with large := State.reset.large, output := s.output ++ [0x11#64] } := by
  rw [exec_lInit, State.complete_eq]
  rfl

end Sys2Proof.Machine

namespace Sys2Proof

open Machine

/-- Settles O12: the rows of R301 in their order, S and L.sacc by the same lemmas. -/
theorem resetValues : Obligations.ResetValues := by
  unfold Obligations.ResetValues
  simp only [State.reset_small, State.reset_large, Large.reset_bin, Large.reset_sacc]
  have hchunks : ∀ i < 67, Small.reset.get i = 0#64 := fun i _ => Small.reset_get i
  exact ⟨hchunks, Small.reset_inf, Small.reset_nan, Small.reset_adds_toInt,
    fun _ => ⟨Bin.unused_chunk, Bin.unused_count_toInt⟩, fun _ => Large.reset_used_getElem?, Large.reset_usedUsed,
    hchunks, Small.reset_inf, Small.reset_nan, Small.reset_adds_toInt,
    State.reset_pending, State.reset_input, State.reset_output⟩

/-- Settles O13: each command as one state update; at reset the unit written already has its reset value, so only the
status word remains of the update. -/
theorem initCommandsResetOneUnit : Obligations.InitCommandsResetOneUnit := by
  unfold Obligations.InitCommandsResetOneUnit
  refine ⟨exec_sInit_eq, exec_lInit_eq, ?sAtReset, ?lAtReset⟩
  case sAtReset => rw [exec_sInit_eq, State.reset_output, List.nil_append]
  case lAtReset => rw [exec_lInit_eq, State.reset_output, List.nil_append]

end Sys2Proof
end

section
/-! SUPPORT. The command encoding read both ways: the operand words of each shape (R93), the rows of the opcode map
(R92), and the settlements of the statements about decoding, the command stream and the responses. -/

namespace Sys2Proof

/-! ### The operand words of a shape -/

/-- ops are the operand words, of the shape of R93, that complete the command i; a length word counts what follows it
(R101). -/
inductive OperandShape.Reads : OperandShape → List Word → Instr → Prop where
  | none (i : Instr) : Reads (.none i) [] i
  | pattern (f : Word → Instr) (x : Word) : Reads (.pattern f) [x] (f x)
  | vector (f : List Word → Instr) (v : List Word) (h : v.length < 2 ^ 64) :
      Reads (.vector f) (BitVec.ofNat 64 v.length :: v) (f v)
  | pairs (f : List (Word × Word) → Instr) (ab : List (Word × Word)) (h : ab.length < 2 ^ 64) :
      Reads (.pairs f) (BitVec.ofNat 64 ab.length :: interleave ab) (f ab)
  | image (f : Image → Instr) (x : Image) : Reads (.image f) x.toWords (f x)

/-- A length below 2^64 is its own length word (R101). -/
theorem toNat_lengthWord {n : Nat} (h : n < 2 ^ 64) : (BitVec.ofNat 64 n).toNat = n := by
  rw [BitVec.toNat_ofNat, Nat.mod_eq_of_lt h]

theorem takeWords_append_of_length {k : Nat} {v rest : List Word} (h : v.length = k) :
    takeWords k (v ++ rest) = some (v, rest) :=
  takeWords_eq_some.mpr ⟨rfl, h⟩

/-- The operand words complete their command, whatever follows them (R93). -/
theorem OperandShape.Reads.decodeOperands {shape : OperandShape} {ops : List Word} {i : Instr} (h : shape.Reads ops i)
    (rest : List Word) : decodeOperands shape (ops ++ rest) = .command i rest := by
  cases h with
  | none i => rfl
  | pattern f x => rfl
  | vector f v hv =>
    rw [List.cons_append, Sys2Proof.decodeOperands, takeWords_append_of_length (toNat_lengthWord hv).symm]
  | pairs f ab hab =>
    have hlen : (interleave ab).length = 2 * (BitVec.ofNat 64 ab.length).toNat := by
      rw [toNat_lengthWord hab, interleave_length]
    rw [List.cons_append, Sys2Proof.decodeOperands, takeWords_append_of_length hlen]
    simp
  | image f x =>
    rw [Sys2Proof.decodeOperands, takeWords_append_of_length x.toWords_length]
    simp

/-- What the decoder takes are the operand words of the command it answers, and no more (R93). -/
theorem OperandShape.reads_of_decodeOperands {shape : OperandShape} {ws rest : List Word} {i : Instr}
    (h : Sys2Proof.decodeOperands shape ws = .command i rest) : ∃ ops, shape.Reads ops i ∧ ws = ops ++ rest := by
  cases shape with
  | none j =>
    cases h
    exact ⟨[], .none i, rfl⟩
  | pattern f =>
    cases ws with
    | nil => cases h
    | cons x ws =>
      cases h
      exact ⟨[x], .pattern f x, rfl⟩
  | vector f =>
    cases ws with
    | nil => cases h
    | cons n ws =>
      rw [Sys2Proof.decodeOperands] at h
      split at h
      · cases h
      · rename_i v rest' htake
        cases h
        obtain ⟨rfl, hlen⟩ := takeWords_eq_some.mp htake
        have hn : n = BitVec.ofNat 64 v.length := by rw [hlen, BitVec.ofNat_toNat, BitVec.setWidth_eq]
        exact ⟨n :: v, hn ▸ .vector f v (hlen ▸ n.isLt), rfl⟩
  | pairs f =>
    cases ws with
    | nil => cases h
    | cons n ws =>
      rw [Sys2Proof.decodeOperands] at h
      split at h
      · cases h
      · rename_i v rest' htake
        cases h
        obtain ⟨rfl, hlen⟩ := takeWords_eq_some.mp htake
        obtain ⟨hwords, hpairs⟩ := interleave_pairUp hlen
        have hn : n = BitVec.ofNat 64 (pairUp v).length := by rw [hpairs, BitVec.ofNat_toNat, BitVec.setWidth_eq]
        refine ⟨n :: v, ?_, rfl⟩
        have hreads := OperandShape.Reads.pairs f (pairUp v) (hpairs ▸ n.isLt)
        rwa [hwords, ← hn] at hreads
  | image f =>
    rw [Sys2Proof.decodeOperands] at h
    split at h
    · cases h
    · rename_i v rest' htake
      cases h
      obtain ⟨rfl, hlen⟩ := takeWords_eq_some.mp htake
      refine ⟨v, ?_, rfl⟩
      have hreads := OperandShape.Reads.image f (imageOfWords v)
      rwa [toWords_imageOfWords hlen] at hreads

/-! ### The rows of the opcode map -/

/-- The commands of a row of the opcode map are well formed where their length is a length word, and the encoder writes
for them the command word of the row and then their operand words (R92, R93, R101). -/
def OperandShape.EncodedAs (w : Word) : OperandShape → Prop
  | .none i => i.wellFormed = true ∧ encode i = [w]
  | .pattern f => ∀ x, (f x).wellFormed = true ∧ encode (f x) = [w, x]
  | .vector f => ∀ v, v.length < 2 ^ 64 →
      (f v).wellFormed = true ∧ encode (f v) = w :: BitVec.ofNat 64 v.length :: v
  | .pairs f => ∀ ab, ab.length < 2 ^ 64 →
      (f ab).wellFormed = true ∧ encode (f ab) = w :: BitVec.ofNat 64 ab.length :: interleave ab
  | .image f => ∀ x, (f x).wellFormed = true ∧ encode (f x) = w :: x.toWords

/-- The rows of R92, S_INIT to S_LOAD and L_INIT to L_CHUNKS. -/
theorem encodedAs_of_mem_opcodeMap : ∀ row ∈ opcodeMap, row.2.EncodedAs row.1 := by
  simp only [opcodeMap, List.forall_mem_cons, List.not_mem_nil, false_imp_iff, implies_true, and_true]
  exact ⟨⟨rfl, rfl⟩, fun _ => ⟨rfl, rfl⟩, fun _ h => ⟨decide_eq_true h, rfl⟩, fun _ h => ⟨decide_eq_true h, rfl⟩,
    fun _ h => ⟨decide_eq_true h, rfl⟩, fun _ => ⟨rfl, rfl⟩, ⟨rfl, rfl⟩, ⟨rfl, rfl⟩, ⟨rfl, rfl⟩, ⟨rfl, rfl⟩,
    fun _ => ⟨rfl, rfl⟩, ⟨rfl, rfl⟩, fun _ => ⟨rfl, rfl⟩, fun _ h => ⟨decide_eq_true h, rfl⟩,
    fun _ h => ⟨decide_eq_true h, rfl⟩, fun _ h => ⟨decide_eq_true h, rfl⟩, fun _ => ⟨rfl, rfl⟩, ⟨rfl, rfl⟩,
    ⟨rfl, rfl⟩, ⟨rfl, rfl⟩⟩

/-- The encoder writes the command word of the row, then the operand words (R92, R93). -/
theorem encode_of_reads {w : Word} {shape : OperandShape} {ops : List Word} {i : Instr}
    (hrow : (w, shape) ∈ opcodeMap) (h : shape.Reads ops i) : i.wellFormed = true ∧ encode i = w :: ops := by
  have henc := encodedAs_of_mem_opcodeMap _ hrow
  cases h with
  | none => exact henc
  | pattern _ x => exact henc x
  | vector _ v hv => exact henc v hv
  | pairs _ ab hab => exact henc ab hab
  | image _ x => exact henc x

/-- Every well-formed command has a row, whose shape reads its operand words (R92, R93). -/
theorem exists_row_of_wellFormed {i : Instr} (h : i.wellFormed = true) :
    ∃ w shape ops, opcodeMap.lookup w = some shape ∧ shape.Reads ops i ∧ encode i = w :: ops := by
  cases i with
  | sInit | sRound | sPropagate | sChunks | sStore | lInit | lRound | lRoundToSmall | lChunks =>
    exact ⟨_, _, _, rfl, .none _, rfl⟩
  | sAdd1 x | lAdd1 x => exact ⟨_, _, _, rfl, .pattern _ x, rfl⟩
  | sAddv v | sSqnorm v | lAddv v | lSqnorm v => exact ⟨_, _, _, rfl, .vector _ v (of_decide_eq_true h), rfl⟩
  | sDot ab | lDot ab => exact ⟨_, _, _, rfl, .pairs _ ab (of_decide_eq_true h), rfl⟩
  | sAddacc x | sLoad x | lAddsmall x => exact ⟨_, _, _, rfl, .image _ x, rfl⟩

theorem mem_opcodeMap_of_lookup {w : Word} {shape : OperandShape} (h : opcodeMap.lookup w = some shape) :
    (w, shape) ∈ opcodeMap := by
  obtain ⟨l₁, l₂, hmap, -⟩ := List.lookup_eq_some_iff.mp h
  simp [hmap]

/-! ### The decoder -/

/-- Decoding the words of a well-formed command gives it back (R92, R93, R101). -/
theorem decode_encode_append {i : Instr} (h : i.wellFormed = true) (rest : List Word) :
    decode (encode i ++ rest) = .command i rest := by
  obtain ⟨w, shape, ops, hlookup, hreads, hencode⟩ := exists_row_of_wellFormed h
  rw [hencode, List.cons_append, decode, hlookup]
  exact hreads.decodeOperands rest

/-- A command read is well formed, and its words stand at the front (R90, R93). -/
theorem eq_encode_append_of_decode {ws rest : List Word} {i : Instr} (h : decode ws = .command i rest) :
    i.wellFormed = true ∧ ws = encode i ++ rest := by
  cases ws with
  | nil => cases h
  | cons w ws =>
    rw [decode] at h
    split at h
    · cases h
    · rename_i shape hlookup
      obtain ⟨ops, hreads, rfl⟩ := OperandShape.reads_of_decodeOperands h
      obtain ⟨hwf, hencode⟩ := encode_of_reads (mem_opcodeMap_of_lookup hlookup) hreads
      exact ⟨hwf, by rw [hencode, List.cons_append]⟩

/-- The command word of a command is legal (R91, R92). -/
theorem encode_eq_cons_of_wellFormed {i : Instr} (h : i.wellFormed = true) :
    ∃ w ops, encode i = w :: ops ∧ LegalCommandWord w := by
  obtain ⟨w, shape, ops, hlookup, -, hencode⟩ := exists_row_of_wellFormed h
  refine ⟨w, ops, hencode, ?_⟩
  by_contra hw
  rw [opcodeMap_lookup_eq_none_iff.mpr hw] at hlookup
  cases hlookup

/-- A command with a word missing is held: were it read as a command, that command with the missing words after it
would be read from the whole, which is the command itself with nothing after it (R96). -/
theorem decode_take_encode {i : Instr} {k : Nat} (h : i.wellFormed = true) (hk : k < (encode i).length) :
    decode ((encode i).take k) = .held := by
  cases hd : decode ((encode i).take k) with
  | held => rfl
  | command j rest =>
    obtain ⟨hj, hwords⟩ := eq_encode_append_of_decode hd
    have hwhole : encode i ++ [] = encode j ++ (rest ++ (encode i).drop k) := by
      rw [← List.append_assoc, ← hwords, List.take_append_drop, List.append_nil]
    have hdecode := decode_encode_append h []
    rw [hwhole, decode_encode_append hj] at hdecode
    obtain ⟨-, -, hdrop⟩ : j = i ∧ rest = [] ∧ (encode i).length ≤ k := by simpa using hdecode
    omega
  | illegal w rest =>
    obtain ⟨v, ops, hencode, hlegal⟩ := encode_eq_cons_of_wellFormed h
    cases k with
    | zero => simp [decode] at hd
    | succ k =>
      rw [hencode, List.take_succ_cons] at hd
      exact absurd hlegal (decode_cons_eq_illegal_iff.mp hd).1

/-- Words after a command or an illegal word are left on the stream (R77, R90). -/
theorem decode_append_of_command {ws rest : List Word} {i : Instr} (h : decode ws = .command i rest)
    (more : List Word) : decode (ws ++ more) = .command i (rest ++ more) := by
  obtain ⟨hwf, rfl⟩ := eq_encode_append_of_decode h
  rw [List.append_assoc, decode_encode_append hwf]

theorem decode_append_of_illegal {ws rest : List Word} {w : Word} (h : decode ws = .illegal w rest)
    (more : List Word) : decode (ws ++ more) = .illegal w (rest ++ more) := by
  cases ws with
  | nil => cases h
  | cons v ws =>
    obtain ⟨hillegal, rfl, rfl⟩ := decode_cons_eq_illegal_iff.mp h
    exact decode_cons_eq_illegal_iff.mpr ⟨hillegal, rfl, rfl⟩

end Sys2Proof

namespace Sys2Proof

open Machine

/-- Settles O1: the row of the command in the opcode map reads its operand words back. -/
theorem decodeOfEncode : Obligations.DecodeOfEncode := by
  unfold Obligations.DecodeOfEncode
  exact fun i rest h => decode_encode_append h rest

/-- Settles O2: the operand words taken are those of the row's shape, and the encoder writes the row. -/
theorem decodeReadsItsEncoding : Obligations.DecodeReadsItsEncoding := by
  unfold Obligations.DecodeReadsItsEncoding
  exact fun ws i rest h => eq_encode_append_of_decode h

end Sys2Proof
end

section
/-! SUPPORT. The command and response streams: what every command answers (R94, R95, R280, R281), that no command reads
the streams, that the two units do not see each other (R30), systems of several blocks (R290), and the settlements of the
statements about them. -/

namespace Sys2Proof.Machine

/-! ### Every command answers -/

/-- Every command but a rejected S_LOAD completes: it writes the units, and answers the status word of its opcode with
as many result words as R95 gives it. -/
theorem exec_eq_complete {i : Instr} (h : ∀ x, i = .sLoad x → addsInRange x.adds = true) (s : State) :
    ∃ (a : Small) (l : Large) (results : List Word),
      exec i s = .next (((s.setSmall a).setLarge l).complete i.opcode results) ∧ results.length = i.resultCount := by
  cases i with
  | sLoad x => exact ⟨_, s.large, _, exec_sLoad_of_range x s (h x rfl), rfl⟩
  | sInit | sAdd1 | sAddv | sSqnorm | sDot | sAddacc | sRound | sPropagate => exact ⟨_, s.large, _, rfl, rfl⟩
  | sChunks => exact ⟨s.small, s.large, _, rfl, rfl⟩
  | sStore => exact ⟨s.small, s.large, _, rfl, Image.toWords_length _⟩
  | lInit | lAdd1 | lAddv | lSqnorm | lDot | lAddsmall | lRound => exact ⟨s.small, _, _, rfl, rfl⟩
  | lRoundToSmall => exact ⟨s.small, _, _, rfl, Image.toWords_length _⟩
  | lChunks => exact ⟨s.small, s.large, _, rfl, rfl⟩

theorem not_addsInRange_iff {n : BitVec 32} : addsInRange n = false ↔ ¬(0 ≤ n.toInt ∧ n.toInt ≤ 2047) := by
  rw [← addsInRange_iff, Bool.not_eq_true]

/-- A command either completes or is an S_LOAD of a bad image (R280, R283). -/
theorem badImage_or_accepted (i : Instr) :
    (∃ x, i = .sLoad x ∧ addsInRange x.adds = false) ∨ ∀ x, i = .sLoad x → addsInRange x.adds = true := by
  by_cases h : ∃ x, i = .sLoad x ∧ addsInRange x.adds = false
  · exact .inl h
  · refine .inr fun x hx => ?_
    by_contra hbad
    exact h ⟨x, hx, by simpa using hbad⟩

/-- Every command answers a next state (R280, R286). -/
theorem exists_exec_eq_next (i : Instr) (s : State) : ∃ t, exec i s = .next t := by
  obtain ⟨x, rfl, hx⟩ | haccepted := badImage_or_accepted i
  · exact ⟨_, exec_sLoad_of_bad x s hx⟩
  · obtain ⟨a, l, results, hexec, -⟩ := exec_eq_complete haccepted s
    exact ⟨_, hexec⟩

theorem exists_step_eq_next (s : State) : ∃ t, step s = .next t := by
  unfold step
  split
  · exact exists_exec_eq_next _ _
  · exact ⟨_, rfl⟩
  · exact ⟨_, rfl⟩

/-! ### What a command does not read -/

/-- A command reads neither the pending words nor the input stream (R77, R80). -/
theorem exec_of_other_input {i : Instr} {s t : State} (h : exec i s = .next t) (pending input : List Word) :
    exec i { s with pending := pending, input := input } = .next { t with pending := pending, input := input } := by
  cases i with
  | sLoad x =>
    cases hx : addsInRange x.adds with
    | true => rw [exec_sLoad_of_range x _ hx] at h ⊢; cases h; rfl
    | false => rw [exec_sLoad_of_bad x _ hx] at h ⊢; cases h; rfl
  | _ => cases h; rfl

/-- A command of S leaves L alone, and what it leaves in S and answers is a function of S and the response stream
(R30). -/
theorem exec_small_unit {i : Instr} (hi : i.unitL = false) {s s' t t' : State} (h : exec i s = .next t)
    (h' : exec i s' = .next t') (hout : s.output = s'.output) :
    t.large = s.large ∧ (s.small = s'.small → t.small = t'.small ∧ t.output = t'.output) := by
  cases i with
  | sLoad x =>
    cases hx : addsInRange x.adds with
    | true =>
      rw [exec_sLoad_of_range x _ hx] at h h'
      cases h; cases h'
      exact ⟨rfl, fun _ => ⟨rfl, by simp [hout]⟩⟩
    | false =>
      rw [exec_sLoad_of_bad x _ hx] at h h'
      cases h; cases h'
      exact ⟨rfl, fun hsmall => ⟨hsmall, by simp [hout]⟩⟩
  | lInit | lAdd1 | lAddv | lSqnorm | lDot | lAddsmall | lRound | lRoundToSmall | lChunks =>
    simp [Instr.unitL, encode] at hi
  | _ =>
    cases h; cases h'
    exact ⟨rfl, fun hsmall => ⟨by simp [hsmall], by simp [hout, hsmall]⟩⟩

/-- A command of L leaves S alone, and what it leaves in L and answers is a function of L and the response stream
(R44). -/
theorem exec_large_unit {i : Instr} (hi : i.unitL = true) {s s' t t' : State} (h : exec i s = .next t)
    (h' : exec i s' = .next t') (hout : s.output = s'.output) :
    t.small = s.small ∧ (s.large = s'.large → t.large = t'.large ∧ t.output = t'.output) := by
  cases i with
  | lInit | lAdd1 | lAddv | lSqnorm | lDot | lAddsmall | lRound | lRoundToSmall | lChunks =>
    cases h; cases h'
    exact ⟨rfl, fun hlarge => ⟨by simp [hlarge], by simp [hout, hlarge]⟩⟩
  | _ => simp [Instr.unitL, encode] at hi

/-! ### The three kinds of step -/

theorem step_of_fetch_command {s : State} {i : Instr} {rest : List Word} (h : s.fetch = .command i rest) :
    step s = exec i (s.consume rest) := by
  rw [step, h]

theorem step_of_fetch_held {s : State} (h : s.fetch = .held) : step s = .next s.hold := by
  rw [step, h]

/-- Words sent later stand after those that have arrived, and what the step receives is the same (R77, R308). -/
theorem step_hostSend {s t : State} (hheld : s.fetch ≠ .held) (h : step s = .next t) (ws : List Word) :
    step (s.hostSend ws) = .next (t.hostSend ws) := by
  obtain ⟨i, rest, hfetch, hexec⟩ | ⟨w, rest, hfetch, rfl⟩ | ⟨hfetch, -⟩ := step_cases h
  · have hfetch' : (s.hostSend ws).fetch = .command i (rest ++ ws) := by
      rw [State.fetch, State.hostSend_arrived]
      exact decode_append_of_command hfetch ws
    obtain ⟨hpending, hinput, -⟩ := exec_streams hexec
    rw [State.consume_pending] at hpending
    rw [State.consume_input] at hinput
    have hsent : t.hostSend ws = { t with pending := [], input := rest ++ ws } := by
      rw [State.hostSend, hpending, hinput]
    rw [step_of_fetch_command hfetch', hsent]
    exact exec_of_other_input hexec [] (rest ++ ws)
  · have hfetch' : (s.hostSend ws).fetch = .illegal w (rest ++ ws) := by
      rw [State.fetch, State.hostSend_arrived]
      exact decode_append_of_illegal hfetch ws
    rw [step_of_fetch_illegal hfetch']
    rfl
  · exact absurd hfetch hheld

end Sys2Proof.Machine

namespace Sys2Proof

open Machine

/-- Settles O6: a command with a word missing is held, and what a held block keeps are the same words again. -/
theorem incompleteCommandIsHeld : Obligations.IncompleteCommandIsHeld := by
  unfold Obligations.IncompleteCommandIsHeld
  intro s i k hwf hk harrived
  have hheld {t : State} (ht : t.pending ++ t.input = (encode i).take k) :
      step t = .next { t with pending := (encode i).take k, input := [] } := by
    have hfetch : t.fetch = .held := by rw [State.fetch, State.arrived, ht, decode_take_encode hwf hk]
    rw [step_of_fetch_held hfetch, State.hold, State.arrived, ht]
  exact ⟨hheld harrived, hheld (List.append_nil _)⟩

/-- Settles O8: the later words stand after what the step receives, and no command reads the stream. -/
theorem laterWordsDoNotMatter : Obligations.LaterWordsDoNotMatter := by
  unfold Obligations.LaterWordsDoNotMatter
  exact fun s t ws hheld h => step_hostSend hheld h ws

/-- Settles O9: a command completes, or is an S_LOAD of a bad image, which answers its status word alone. -/
theorem everyCommandAnswersOnce : Obligations.EveryCommandAnswersOnce := by
  unfold Obligations.EveryCommandAnswersOnce
  intro i s
  obtain ⟨x, rfl, hbad⟩ | haccepted := badImage_or_accepted i
  · exact ⟨_, .badImage, [], exec_sLoad_of_bad x s hbad, rfl, rfl, rfl, (fun h => nomatch h), fun _ => ⟨rfl, rfl, rfl, rfl⟩,
      fun _ => ⟨x, rfl, not_addsInRange_iff.mp hbad⟩, fun _ => by decide⟩
  · obtain ⟨a, l, results, hexec, hcount⟩ := exec_eq_complete haccepted s
    refine ⟨_, .ok, results, hexec, rfl, rfl, State.complete_output .., fun _ => hcount, fun h => absurd rfl h,
      fun h => absurd rfl h, ?_⟩
    rintro ⟨x, rfl, hx⟩
    rw [← not_addsInRange_iff, haccepted x rfl] at hx
    cases hx

/-- Settles O17: for a command of either unit, the unit left alone and the unit it is a function of. -/
theorem unitsAreIndependent : Obligations.UnitsAreIndependent := by
  unfold Obligations.UnitsAreIndependent
  exact fun i s s' t t' h h' hout => ⟨fun hi => exec_small_unit hi h h' hout, fun hi => exec_large_unit hi h h' hout⟩

/-- Settles O3: the words written out are those of the encoder, which decode to their commands. -/
theorem wordsOfTheTablesDecode : Obligations.WordsOfTheTablesDecode := by
  unfold Obligations.WordsOfTheTablesDecode
  exact ⟨decode_encode_append (i := .sInit) rfl [],
    decode_encode_append (i := .sAdd1 0x3FF0000000000000) rfl [0x07],
    decode_encode_append (i := .sAddv [0x3FF0000000000000, 0xBFF0000000000000]) rfl [],
    decode_encode_append (i := .sDot [(0x4000000000000000, 0xBFE0000000000000)]) rfl [0x08],
    decode_encode_append (i := .lSqnorm []) rfl [],
    decode_encode_append (i := .lRoundToSmall) rfl [],
    decode_encode_append (i := .sLoad { chunk := Vector.replicate 67 5, inf := 6, nan := 7, adds := 7, pad := 0xABCD0000 })
      rfl []⟩

/-- Settles O4: the front of the words that have arrived decodes to the command (O1). -/
theorem stepRunsTheDecodedCommand : Obligations.StepRunsTheDecodedCommand := by
  unfold Obligations.StepRunsTheDecodedCommand
  intro s i rest hwf harrived
  have hfetch : s.fetch = .command i rest := by
    rw [State.fetch, State.arrived, harrived, decode_encode_append hwf]
  exact step_of_fetch_command hfetch

/-- Settles O7: a command, an illegal word and a held block each have a next state. -/
theorem stepAlwaysAnswersNext : Obligations.StepAlwaysAnswersNext := by
  unfold Obligations.StepAlwaysAnswersNext
  exact exists_step_eq_next

/-- Settles O10: the fields of the status word as a sum, and the codes of R281. -/
theorem statusWordLayout : Obligations.StatusWordLayout := by
  unfold Obligations.StatusWordLayout
  intro s opc err
  refine ⟨rfl, ?_⟩
  rw [statusWord_toNat, Nat.add_comm]
  cases err <;> rfl

/-- Settles O58: a step always has a next state, which takes its place in the list. -/
theorem instancesShareNothing : Obligations.InstancesShareNothing := by
  unfold Obligations.InstancesShareNothing
  intro sys k j
  unfold System.stepAt
  cases hk : sys[k]? with
  | none => exact ⟨sys, rfl, rfl, fun _ => rfl, fun s hs => by cases hs⟩
  | some s =>
    obtain ⟨t, ht⟩ := exists_step_eq_next s
    obtain ⟨hlt, -⟩ := List.getElem?_eq_some_iff.mp hk
    simp only [ht]
    refine ⟨sys.set k t, rfl, List.length_set, fun hj => List.getElem?_set_ne hj.symm, fun s' hs => ?_⟩
    cases hs
    exact ⟨t, ht, List.getElem?_set_self hlt⟩

end Sys2Proof
end

section
/-! SUPPORT. The Inf path of the flag handler (R126, R127), the flags after a sequence of infinities and NaNs (R130), and
the settlements of the statements about both. -/

namespace Sys2Proof.Machine

/-! ### The Inf path -/

/-- What the Inf path leaves in the field x for the value v (R127). -/
def infAfter (x v : Word) : Word := if x = 0#64 then v else if x = v then x else infCancelNaN v

/-- A value without a payload takes the Inf path, which writes Inf alone (R126). -/
theorem addInfNaN_eq_of_no_payload (a : Small) {v : Word} (h : v.toNat % 2 ^ 52 = 0) :
    addInfNaN a v = { a with inf := infAfter a.inf v } := by
  have hmask : v &&& mantMask = 0#64 := by
    apply BitVec.eq_of_toNat_eq
    rw [toNat_and_mantMask, h]
    rfl
  exact addInfNaN_of_no_payload a hmask

theorem infAfter_self (x : Word) : infAfter x x = x := by simp [infAfter]

theorem infAfter_of_ne {x v : Word} (h0 : x ≠ 0#64) (hv : x ≠ v) : infAfter x v = infCancelNaN v := by
  simp [infAfter, h0, hv]

/-- A field once set is never cleared (R49, R127). -/
theorem infAfter_ne_zero {x : Word} (h0 : x ≠ 0#64) (v : Word) : infAfter x v ≠ 0#64 := by
  by_cases hv : x = v
  · rwa [← hv, infAfter_self]
  · rw [infAfter_of_ne h0 hv]
    exact ne_zero_of_isNaN (isNaN_infCancelNaN v)

/-- Rounding answers the Inf field where it is set and the NaN field is clear (R200). -/
theorem roundSmall_of_inf {a : Small} (hnan : a.nan = 0#64) (hinf : a.inf ≠ 0#64) : roundSmall a = (a, a.inf) := by
  simp [roundSmall, hnan, hinf]

/-! ### Infinities and NaNs -/

theorem eq_posInf_or_negInf {v : Word} (h : isInf v = true) : v = posInf ∨ v = negInf := by
  obtain ⟨hexp, hfrac⟩ := isInf_iff.mp h
  have he := bexp_toNat v
  have hf := frac_toNat v
  rw [hexp] at he
  rw [hfrac] at hf
  simp only [BitVec.toNat_ofNat] at he hf
  rcases lt_or_ge v.toNat (2 ^ 63) with hs | hs
  · left
    apply BitVec.eq_of_toNat_eq
    simp only [posInf, BitVec.toNat_ofNat]
    omega
  · right
    apply BitVec.eq_of_toNat_eq
    simp only [negInf, BitVec.toNat_ofNat]
    omega

theorem payload_of_isInf {v : Word} (h : isInf v = true) : v.toNat % 2 ^ 52 = 0 := by
  rw [← frac_toNat, (isInf_iff.mp h).2]
  rfl

theorem payload_of_isNaN {v : Word} (h : isNaN v = true) : v.toNat % 2 ^ 52 ≠ 0 := by
  rw [← frac_toNat]
  exact fun h0 => (isNaN_iff.mp h).2 (BitVec.eq_of_toNat_eq h0)

/-- A NaN whose sign is clear, by its payload (R128). -/
def positiveNaN (f : BitVec 52) : Word := 0x7FF#12 ++ f

theorem positiveNaN_toNat (f : BitVec 52) : (positiveNaN f).toNat = 0x7FF * 2 ^ 52 + f.toNat := by
  rw [positiveNaN, BitVec.toNat_append, ← Nat.shiftLeft_add_eq_or_of_lt f.isLt, Nat.shiftLeft_eq]
  rfl

theorem payload_positiveNaN (f : BitVec 52) : (positiveNaN f).toNat % 2 ^ 52 = f.toNat := by
  have := f.isLt
  rw [positiveNaN_toNat]
  omega

/-- Clearing the sign of a NaN leaves its payload (R128). -/
theorem and_not_signMask_of_isNaN {v : Word} (h : isNaN v = true) : v &&& ~~~signMask = positiveNaN (frac v) := by
  have hexp := bexp_toNat v
  rw [(isNaN_iff.mp h).1] at hexp
  apply BitVec.eq_of_toNat_eq
  rw [toNat_and_not_signMask, positiveNaN_toNat, frac_toNat]
  simp only [BitVec.toNat_ofNat] at hexp
  omega

/-- What the NaN path leaves for a NaN (R128). -/
theorem addInfNaN_eq_of_isNaN (a : Small) {v : Word} (h : isNaN v = true) : addInfNaN a v =
    { a with nan := if (frac a.nan).toNat ≤ (frac v).toNat then positiveNaN (frac v) else a.nan } := by
  rw [addInfNaN_eq_of_payload a (payload_of_isNaN h), and_not_signMask_of_isNaN h, frac_toNat, frac_toNat]

/-- What the Inf path leaves for an infinity (R127). -/
theorem addInfNaN_eq_of_isInf (a : Small) {v : Word} (h : isInf v = true) :
    addInfNaN a v = { a with inf := infAfter a.inf v } :=
  addInfNaN_eq_of_no_payload a (payload_of_isInf h)

theorem isNaN_eq_false_of_isInf {v : Word} (h : isInf v = true) : isNaN v = false := by
  simp [isNaN, (isInf_iff.mp h).2]

theorem isNaN_posInf : isNaN posInf = false := by decide
theorem isNaN_negInf : isNaN negInf = false := by decide

/-! ### The flags after a sequence -/

/-- The flags after the values vs from reset (R130). -/
def flagsAfter (vs : List Word) : Small := vs.foldl addInfNaN Small.reset

theorem flagsAfter_append_singleton (vs : List Word) (v : Word) :
    flagsAfter (vs ++ [v]) = addInfNaN (flagsAfter vs) v := by
  simp [flagsAfter]

/-- n is 0 and vs holds no NaN, or n is the sign-cleared NaN of a largest payload in vs (R130). -/
def IsLargestNaN (vs : List Word) (n : Word) : Prop :=
  ((∀ v ∈ vs, isNaN v = false) ∧ n = 0#64) ∨
  ∃ v ∈ vs, isNaN v = true ∧ n = positiveNaN (frac v) ∧ ∀ w ∈ vs, isNaN w = true → (frac w).toNat ≤ (frac v).toNat

theorem frac_positiveNaN (f : BitVec 52) : frac (positiveNaN f) = f := by
  apply BitVec.eq_of_toNat_eq
  rw [frac_toNat, payload_positiveNaN]

theorem IsLargestNaN.append_of_isNaN {vs : List Word} {n v : Word} (h : IsLargestNaN vs n) (hv : isNaN v = true) :
    IsLargestNaN (vs ++ [v]) (if (frac n).toNat ≤ (frac v).toNat then positiveNaN (frac v) else n) := by
  right
  obtain ⟨hnone, rfl⟩ | ⟨w, hw, hwn, rfl, hmax⟩ := h
  · refine ⟨v, by simp, hv, by simp [frac], fun u hu hun => ?_⟩
    rcases List.mem_append.mp hu with hu | hu
    · simp [hnone u hu] at hun
    · rw [List.mem_singleton.mp hu]
  · rw [frac_positiveNaN]
    by_cases hle : (frac w).toNat ≤ (frac v).toNat
    · refine ⟨v, by simp, hv, if_pos hle, fun u hu hun => ?_⟩
      rcases List.mem_append.mp hu with hu | hu
      · exact (hmax u hu hun).trans hle
      · rw [List.mem_singleton.mp hu]
    · refine ⟨w, by simp [hw], hwn, if_neg hle, fun u hu hun => ?_⟩
      rcases List.mem_append.mp hu with hu | hu
      · exact hmax u hu hun
      · rw [List.mem_singleton.mp hu]
        omega

theorem IsLargestNaN.append_of_not_isNaN {vs : List Word} {n v : Word} (h : IsLargestNaN vs n)
    (hv : isNaN v = false) : IsLargestNaN (vs ++ [v]) n := by
  obtain ⟨hnone, rfl⟩ | ⟨w, hw, hwn, rfl, hmax⟩ := h
  · refine .inl ⟨fun u hu => ?_, rfl⟩
    rcases List.mem_append.mp hu with hu | hu
    · exact hnone u hu
    · rwa [List.mem_singleton.mp hu]
  · refine .inr ⟨w, by simp [hw], hwn, rfl, fun u hu hun => ?_⟩
    rcases List.mem_append.mp hu with hu | hu
    · exact hmax u hu hun
    · rw [List.mem_singleton.mp hu, hv] at hun
      cases hun

/-- The largest NaN of a sequence does not depend on its order (R130). -/
theorem IsLargestNaN.unique {vs ws : List Word} {n k : Word} (hperm : vs.Perm ws) (hn : IsLargestNaN vs n)
    (hk : IsLargestNaN ws k) : k = n := by
  obtain ⟨hnone, rfl⟩ | ⟨v, hv, hvn, rfl, hvmax⟩ := hn <;> obtain ⟨hnone', rfl⟩ | ⟨w, hw, hwn, rfl, hwmax⟩ := hk
  · rfl
  · simp [hnone w (hperm.mem_iff.mpr hw)] at hwn
  · simp [hnone' v (hperm.mem_iff.mp hv)] at hvn
  · have hwv := hvmax w (hperm.mem_iff.mpr hw) hwn
    have hvw := hwmax v (hperm.mem_iff.mp hv) hvn
    rw [BitVec.eq_of_toNat_eq (Nat.le_antisymm hwv hvw)]

/-- The Inf field x after a sequence in which p and q are the infinities (R130). -/
structure IsInfOf (p q : Word) (vs : List Word) (x : Word) : Prop where
  neither : p ∉ vs → q ∉ vs → x = 0#64
  left : p ∈ vs → q ∉ vs → x = p
  right : p ∉ vs → q ∈ vs → x = q
  both : p ∈ vs → q ∈ vs → x = infCancelNaN p ∨ x = infCancelNaN q

theorem IsInfOf.symm {p q : Word} {vs : List Word} {x : Word} (h : IsInfOf p q vs x) : IsInfOf q p vs x where
  neither hq hp := h.neither hp hq
  left hq hp := h.right hp hq
  right hq hp := h.left hp hq
  both hq hp := (h.both hp hq).symm

/-- A value that is no infinity leaves the field (R126). -/
theorem IsInfOf.append_other {p q : Word} {vs : List Word} {x v : Word} (h : IsInfOf p q vs x) (hp : p ≠ v)
    (hq : q ≠ v) : IsInfOf p q (vs ++ [v]) x := by
  have hmem {y : Word} (hy : y ≠ v) : y ∈ vs ++ [v] ↔ y ∈ vs := by simp [hy]
  exact ⟨by simpa [hmem hp, hmem hq] using h.neither, by simpa [hmem hp, hmem hq] using h.left,
    by simpa [hmem hp, hmem hq] using h.right, by simpa [hmem hp, hmem hq] using h.both⟩

/-- One more of the infinity p: adopted, kept, or cancelled to a NaN (R127). -/
theorem IsInfOf.append_left {p q : Word} {vs : List Word} {x : Word} (h : IsInfOf p q vs x) (hp : isInf p = true)
    (hq : isInf q = true) (hpq : p ≠ q) : IsInfOf p q (vs ++ [p]) (infAfter x p) := by
  have hp0 : p ≠ 0#64 := by rintro rfl; revert hp; decide
  have hq0 : q ≠ 0#64 := by rintro rfl; revert hq; decide
  have hcancel (y : Word) : infCancelNaN y ≠ p := fun hy => by
    have hnan := isNaN_infCancelNaN y
    rw [hy, isNaN_eq_false_of_isInf hp] at hnan
    cases hnan
  have hcancel0 (y : Word) : infCancelNaN y ≠ 0#64 := ne_zero_of_isNaN (isNaN_infCancelNaN y)
  have hp' : p ∈ vs ++ [p] := by simp
  have hq' : q ∈ vs ++ [p] ↔ q ∈ vs := by simp [hpq.symm]
  refine ⟨fun hn => absurd hp' hn, fun _ hn => ?_, fun hn => absurd hp' hn, fun _ hm => .inl ?_⟩
  · rw [hq'] at hn
    by_cases hm : p ∈ vs
    · rw [h.left hm hn, infAfter_self]
    · rw [h.neither hm hn, infAfter, if_pos rfl]
  · rw [hq'] at hm
    by_cases hpm : p ∈ vs
    · obtain rfl | rfl := h.both hpm hm
      · exact infAfter_of_ne (hcancel0 _) (hcancel _)
      · exact infAfter_of_ne (hcancel0 _) (hcancel _)
    · rw [h.right hpm hm]
      exact infAfter_of_ne hq0 hpq.symm

/-- Both flags after a sequence of infinities and NaNs (R130). -/
theorem flagsAfter_spec {vs : List Word} (h : ∀ v ∈ vs, isInf v = true ∨ isNaN v = true) :
    IsLargestNaN vs (flagsAfter vs).nan ∧ IsInfOf posInf negInf vs (flagsAfter vs).inf := by
  induction vs using List.reverseRecOn with
  | nil => exact ⟨.inl ⟨by simp, rfl⟩, ⟨fun _ _ => rfl, by simp, by simp, by simp⟩⟩
  | append_singleton vs v ih =>
    obtain ⟨hnan, hinf⟩ := ih fun u hu => h u (by simp [hu])
    rw [flagsAfter_append_singleton]
    obtain hv | hv := h v (by simp)
    · rw [addInfNaN_eq_of_isInf _ hv]
      refine ⟨hnan.append_of_not_isNaN (isNaN_eq_false_of_isInf hv), ?_⟩
      obtain rfl | rfl := eq_posInf_or_negInf hv
      · exact hinf.append_left (by decide) (by decide) (by decide)
      · exact (hinf.symm.append_left (by decide) (by decide) (by decide)).symm
    · have hne {p : Word} (hp : isNaN p = false) : p ≠ v := by rintro rfl; simp [hp] at hv
      rw [addInfNaN_eq_of_isNaN _ hv]
      exact ⟨hnan.append_of_isNaN hv, hinf.append_other (hne isNaN_posInf) (hne isNaN_negInf)⟩

end Sys2Proof.Machine

namespace Sys2Proof

open Machine

/-- Settles O19: the three outcomes of `infAfter`, and rounding of a set field. -/
theorem infPathOfHandler : Obligations.InfPathOfHandler := by
  unfold Obligations.InfPathOfHandler
  intro a v hv
  rw [addInfNaN_eq_of_no_payload a hv]
  refine ⟨⟨rfl, rfl, rfl⟩, fun h0 => ?adopt, fun hsame => ?keep, fun h0 hne => ?cancel,
    fun h0 => infAfter_ne_zero h0 v, fun hnan hinf => ?round⟩
  case adopt => exact if_pos h0
  case keep => rw [← hsame, infAfter_self]
  case cancel =>
    have hcancel : infAfter a.inf v = infCancelNaN v := infAfter_of_ne h0 hne
    exact ⟨hcancel, by simp only [hcancel, isNaN_infCancelNaN]⟩
  case round => rw [roundSmall_of_inf (a := { a with inf := infAfter a.inf v }) hnan (ne_zero_of_isNaN hinf)]

/-- Settles O21: the NaN field is a largest NaN and the Inf field one of four cases, for every order of the sequence. -/
theorem flagsDoNotDependOnOrder : Obligations.FlagsDoNotDependOnOrder := by
  unfold Obligations.FlagsDoNotDependOnOrder
  intro vs hvs
  obtain ⟨hnan, hinf⟩ := flagsAfter_spec hvs
  refine ⟨fun hnone => ?noNaN, fun hsome => ?someNaN, hinf.neither, hinf.left, hinf.right, fun hp hq => ?both,
    fun ws hperm => ?order⟩
  case noNaN =>
    obtain ⟨-, h0⟩ | ⟨v, hv, hvn, -⟩ := hnan
    · exact h0
    · simp [hnone v hv] at hvn
  case someNaN =>
    obtain ⟨hnone, -⟩ | hlargest := hnan
    · obtain ⟨v, hv, hvn⟩ := hsome
      simp [hnone v hv] at hvn
    · exact hlargest
  case both =>
    refine ⟨?_, hinf.both hp hq⟩
    change isNaN (flagsAfter vs).inf = true
    obtain h | h := hinf.both hp hq <;> rw [h] <;> exact isNaN_infCancelNaN _
  case order =>
    obtain ⟨hnan', hinf'⟩ := flagsAfter_spec fun w hw => hvs w (hperm.mem_iff.mpr hw)
    refine ⟨hnan.unique hperm hnan', fun hsame => ?_⟩
    change (flagsAfter ws).inf = (flagsAfter vs).inf
    by_cases hp : posInf ∈ vs <;> by_cases hq : negInf ∈ vs
    · have h := hinf.both hp hq
      have h' := hinf'.both (hperm.mem_iff.mp hp) (hperm.mem_iff.mp hq)
      rw [← hsame, or_self] at h h'
      rw [h, h']
    · rw [hinf.left hp hq, hinf'.left (hperm.mem_iff.mp hp) (mt hperm.mem_iff.mpr hq)]
    · rw [hinf.right hp hq, hinf'.right (mt hperm.mem_iff.mpr hp) (hperm.mem_iff.mp hq)]
    · rw [hinf.neither hp hq, hinf'.neither (mt hperm.mem_iff.mpr hp) (mt hperm.mem_iff.mpr hq)]

end Sys2Proof
end

section
/-! SUPPORT. Carry propagation and the value (R156 to R160): the value below a chunk, a carry given without a wrap, the
two outcomes of a propagation, and the settlements of the statements about propagation and S_ROUND. -/

namespace Sys2Proof.Machine

/-! ### The value below a chunk -/

/-- The value of the chunks below index n, in units of 2^-1075 (R19). -/
def Small.valueBelow (a : Small) (n : Nat) : Int := ∑ j ∈ Finset.range n, (a.get j).toInt * 2 ^ (32 * j)

section
variable {a : Small} {i m n : Nat}

theorem Small.valueBelow_succ (a : Small) (n : Nat) :
    a.valueBelow (n + 1) = a.valueBelow n + (a.get n).toInt * 2 ^ (32 * n) := Finset.sum_range_succ _ n

theorem Small.value_eq_valueBelow (a : Small) : a.value = a.valueBelow 67 := a.value_eq_sum

theorem two_pow_mul_succ (n : Nat) : (2 : Int) ^ (32 * (n + 1)) = 2 ^ 32 * 2 ^ (32 * n) := by
  rw [Nat.mul_add, pow_add, mul_comm]

/-- Chunks that give no carry are digits, so their value is below the weight of the next chunk. -/
theorem Small.CarriedBelow.valueBelow_mem (h : a.CarriedBelow n) :
    0 ≤ a.valueBelow n ∧ a.valueBelow n < 2 ^ (32 * n) := by
  induction n with
  | zero => simp [Small.valueBelow]
  | succ n ih =>
    obtain ⟨hlow, hhigh⟩ := ih (h.mono n.le_succ)
    obtain ⟨h0, h32⟩ := carryOf_eq_zero_iff.mp (h n n.lt_succ_self)
    have hw : (0 : Int) < 2 ^ (32 * n) := by positivity
    rw [Small.valueBelow_succ, two_pow_mul_succ]
    constructor <;> nlinarith

/-- The chunks from an index up add a multiple of its weight. -/
theorem Small.exists_valueBelow_eq (a : Small) (h : m ≤ n) :
    ∃ q : Int, a.valueBelow n = a.valueBelow m + 2 ^ (32 * m) * q := by
  induction n, h using Nat.le_induction with
  | base => exact ⟨0, by ring⟩
  | succ n hmn ih =>
    obtain ⟨q, hq⟩ := ih
    refine ⟨q + (a.get n).toInt * 2 ^ (32 * (n - m)), ?_⟩
    have hpow : (2 : Int) ^ (32 * n) = 2 ^ (32 * m) * 2 ^ (32 * (n - m)) := by
      rw [← pow_add]
      congr 1
      omega
    rw [Small.valueBelow_succ, hq, hpow]
    ring

/-- Zero chunks from an index up add nothing. -/
theorem Small.valueBelow_of_zero_above (h : ∀ j, m ≤ j → j < n → a.get j = 0#64) (hmn : m ≤ n) :
    a.valueBelow n = a.valueBelow m := by
  induction n, hmn using Nat.le_induction with
  | base => rfl
  | succ n hmn ih =>
    rw [Small.valueBelow_succ, ih fun j hj hjn => h j hj (by omega), h n hmn n.lt_succ_self]
    simp

/-- The chunks of a carried accumulator are the 32-bit digits of its value (R160). -/
theorem Small.CarriedBelow.get_toInt_eq_digit (h : a.CarriedBelow 67) (hi : i < 67) :
    (a.get i).toInt = a.value / 2 ^ (32 * i) % 2 ^ 32 := by
  obtain ⟨q, hq⟩ := a.exists_valueBelow_eq (m := i + 1) (n := 67) hi
  obtain ⟨hlow, hhigh⟩ := (h.mono hi.le).valueBelow_mem
  obtain ⟨h0, h32⟩ := carryOf_eq_zero_iff.mp (h i hi)
  have hw : (2 : Int) ^ (32 * i) ≠ 0 := by positivity
  have hsplit : a.value = a.valueBelow i + ((a.get i).toInt + 2 ^ 32 * q) * 2 ^ (32 * i) := by
    rw [Small.value_eq_valueBelow, hq, Small.valueBelow_succ, two_pow_mul_succ]
    ring
  rw [hsplit, Int.add_mul_ediv_right _ _ hw, Int.ediv_eq_zero_of_lt hlow hhigh]
  omega

/-! ### Room for a carry -/

/-- Every chunk above index i takes a carry without a wrap (R156). -/
def Small.NoWrapAbove (a : Small) (i : Nat) : Prop := ∀ j, i < j → j < 67 → |(a.get j).toInt| < 2 ^ 63 - 2 ^ 32

theorem Small.NoWrap.noWrapAbove (h : a.NoWrap) (i : Nat) : a.NoWrapAbove i := fun j _ hj => h j hj

theorem Small.NoWrapAbove.succ (h : a.NoWrapAbove i) : a.NoWrapAbove (i + 1) := fun j hj => h j (by omega)

/-- A chunk is its low half and its carry. -/
theorem toInt_and_lowMask_eq (c : Word) : (c &&& lowMask).toInt = c.toInt - 2 ^ 32 * (carryOf c).toInt := by
  rw [toInt_and_lowMask, carryOf_toInt, BitVec.toInt_eq_toNat_bmod, Int.bmod]
  omega

/-- The low half of a chunk as its value modulo 2^32. -/
theorem ofInt_emod (c : Word) : BitVec.ofInt 64 (c.toInt % 2 ^ 32) = c &&& lowMask := by
  have hmod : c.toInt % 2 ^ 32 = (c &&& lowMask).toInt := by
    rw [toInt_and_lowMask_eq, carryOf_toInt]
    omega
  rw [hmod, BitVec.ofInt_toInt]

/-- A sum of words that stays in range does not wrap (R14). -/
theorem toInt_add_of_range {c d : Word} (hlow : -(2 ^ 63) ≤ c.toInt + d.toInt) (hhigh : c.toInt + d.toInt < 2 ^ 63) :
    (c + d).toInt = c.toInt + d.toInt := by
  rw [BitVec.toInt_add, Int.bmod_eq_of_le (by omega) (by omega)]

/-- The carry of any chunk is added without a wrap where there is room (R156). -/
theorem toInt_add_carryOf {c d : Word} (h : |d.toInt| < 2 ^ 63 - 2 ^ 32) :
    (d + carryOf c).toInt = d.toInt + (carryOf c).toInt := by
  have hlow := BitVec.le_toInt c
  have hhigh := BitVec.toInt_lt (x := c)
  rw [abs_lt] at h
  obtain ⟨h1, h2⟩ := h
  apply toInt_add_of_range <;> rw [carryOf_toInt] <;> omega

/-- A carry below chunk 66 keeps the value: what the chunk loses the next gains (R156). -/
theorem Small.NoWrapAbove.giveCarry_value (h : a.NoWrapAbove i) (hi : i < 66) : (a.giveCarry i).value = a.value := by
  have hne : i ≠ i + 1 := by omega
  have hnowrap := toInt_add_carryOf (c := a.get i) (h (i + 1) i.lt_succ_self (by omega))
  rw [Small.giveCarry, if_neg (by omega), Small.value_addAt _ (by omega), Small.value_set _ (by omega),
    toInt_and_lowMask_eq, two_pow_mul_succ]
  · ring
  · rwa [Small.get_set_other _ hne]

theorem Small.NoWrapAbove.giveCarry (h : a.NoWrapAbove i) : (a.giveCarry i).NoWrapAbove (i + 1) := by
  intro j hj hj67
  rw [Small.giveCarry_get_of_ne (by omega) (by omega)]
  exact h j (by omega) hj67

theorem Small.giveCarry_nan (hi : i < 66) : (a.giveCarry i).nan = a.nan := by
  rw [Small.giveCarry, if_neg (by omega)]
  rfl

/-- A carry out of chunk 66 is dropped and shows in the NaN field (R159). -/
theorem Small.giveCarry_top (a : Small) : (a.giveCarry 66).nan = overflowNaN ∧
    (a.giveCarry 66).value = a.value - (carryOf (a.get 66)).toInt * 2 ^ (32 * 67) := by
  have hvalue (b : Small) : (chunkOverflow b).value = b.value := addInfNaN_value b overflowNaN
  rw [Small.giveCarry, if_pos le_rfl, hvalue, Small.value_set _ (by decide), toInt_and_lowMask_eq]
  refine ⟨chunkOverflow_nan _, ?_⟩
  rw [two_pow_mul_succ 66]
  generalize (2 : Int) ^ (32 * 66) = w
  ring

/-! ### The top chunk of a value -/

/-- The value needs no more than a normalized chunk 66: the value divided by its weight is in [-2^32, 2^32) (R159). -/
def FitsTop (v : Int) : Prop := -(2 ^ 32) ≤ v / 2 ^ 2112 ∧ v / 2 ^ 2112 < 2 ^ 32

theorem fitsTop_iff {v : Int} : FitsTop v ↔ -(2 ^ 32) * 2 ^ 2112 ≤ v ∧ v < 2 ^ 32 * 2 ^ 2112 := by
  have hw : (0 : Int) < 2 ^ 2112 := by positivity
  rw [FitsTop, Int.le_ediv_iff_mul_le hw, Int.ediv_lt_iff_lt_mul hw]

/-- Above carried chunks, chunk 66 is the value divided by its weight and rounded down. -/
theorem Small.CarriedBelow.value_ediv (h : a.CarriedBelow 66) : a.value / 2 ^ 2112 = (a.get 66).toInt := by
  obtain ⟨hlow, hhigh⟩ := h.valueBelow_mem
  have hw : (2 : Int) ^ (32 * 66) ≠ 0 := by positivity
  rw [Small.value_eq_valueBelow, Small.valueBelow_succ, show 2112 = 32 * 66 by rfl, Int.add_mul_ediv_right _ _ hw,
    Int.ediv_eq_zero_of_lt hlow hhigh, zero_add]

/-- A normalized accumulator has a value that fits. -/
theorem Small.Normalized.fitsTop {u : Nat} (h : a.Normalized u) : FitsTop a.value := by
  obtain ⟨hu, habove, hbelow, hlow, hhigh, -⟩ := h
  have hcarried : a.CarriedBelow u := fun j hj => carryOf_eq_zero_iff.mpr (hbelow j hj)
  obtain ⟨hlow', hhigh'⟩ := hcarried.valueBelow_mem
  have hvalue : a.value = a.valueBelow u + (a.get u).toInt * 2 ^ (32 * u) := by
    rw [Small.value_eq_valueBelow, ← Small.valueBelow_succ]
    exact Small.valueBelow_of_zero_above (fun j hj hj67 => habove j hj67 hj) (by omega)
  have hpow : (2 : Int) ^ (32 * u) ≤ 2 ^ 2112 := pow_le_pow_right₀ (by decide) (by omega)
  have hpos : (0 : Int) < 2 ^ (32 * u) := by positivity
  rw [fitsTop_iff, hvalue]
  generalize (2 : Int) ^ (32 * u) = w at *
  generalize (2 : Int) ^ 2112 = t at *
  constructor <;> nlinarith

/-! ### The outcome of a propagation -/

/-- What a propagation of a may leave as r: the value and the NaN field kept; or, where the value does not fit, a carry
out of chunk 66 dropped, the chunks carried and the overflow in NaN (R159). -/
inductive CarryOutcome (a r : Small) : Prop where
  | kept (value : r.value = a.value) (nan : r.nan = a.nan)
  | overflowed (big : ¬ FitsTop a.value) (carried : r.CarriedBelow 67) (nan : r.nan = overflowNaN)
      (value : ∃ k : Int, r.value = a.value - k * 2 ^ (32 * 67))

theorem CarryOutcome.of_same {a b r : Small} (h : CarryOutcome b r) (hvalue : b.value = a.value)
    (hnan : b.nan = a.nan) : CarryOutcome a r := by
  cases h with
  | kept v n => exact .kept (v.trans hvalue) (n.trans hnan)
  | overflowed big carried n v => exact .overflowed (hvalue ▸ big) carried n (hvalue ▸ v)

theorem CarryOutcome.refill {r : Small} (h : CarryOutcome a r) : CarryOutcome a r.refill := by
  cases h with
  | kept v n => exact .kept v n
  | overflowed big carried n v => exact .overflowed big carried n v

/-- A carry out of chunk 66 that is neither 0 nor -1 is an overflow (R159). -/
theorem carryOutcome_giveCarry_top (hlow : a.CarriedBelow 66) (hc : carryOf (a.get 66) ≠ 0#64)
    (hneg : carryOf (a.get 66) ≠ minusOne) : CarryOutcome a (a.giveCarry 66) := by
  obtain ⟨hnan, hvalue⟩ := a.giveCarry_top
  refine .overflowed ?_ (hlow.giveCarry (by decide)) hnan ⟨_, hvalue⟩
  rw [ne_eq, carryOf_eq_zero_iff] at hc
  rw [ne_eq, carryOf_eq_minusOne_iff] at hneg
  rw [FitsTop, hlow.value_ediv]
  omega

/-- Step 2 of R156 from chunk i: each turn keeps the value, or is the overflow. -/
theorem carryLoop_outcome (turns : Nat) {u : Nat} (hlow : a.CarriedBelow i) (hwrap : a.NoWrapAbove i) (hu : u ≤ 66) :
    CarryOutcome a (carryLoop turns a i u (topNonzero a i)).1 := by
  induction turns generalizing a i u with
  | zero => exact .kept rfl rfl
  | succ turns ih =>
    by_cases hend : u < i
    · rw [carryLoop_of_lt hend]
      exact .kept rfl rfl
    have hle : i ≤ u := by omega
    by_cases hc : carryOf (a.get i) = 0#64
    · rw [carryLoop_of_no_carry hle hc]
      exact ih (hlow.succ hc) hwrap.succ hu
    by_cases htop : i = u ∧ carryOf (a.get i) = minusOne
    · obtain ⟨rfl, hneg⟩ := htop
      rw [carryLoop_of_negative_top hneg]
      exact .kept rfl rfl
    have hnot : i = u → carryOf (a.get i) ≠ minusOne := fun hiu hneg => htop ⟨hiu, hneg⟩
    rw [carryLoop_of_carry hle hu hc hnot]
    by_cases hi : i < 66
    · exact (ih (hlow.giveCarry (by omega)) hwrap.giveCarry (by omega)).of_same (hwrap.giveCarry_value hi)
        (Small.giveCarry_nan hi)
    · obtain rfl : i = 66 := by omega
      rw [carryLoop_of_lt (by omega)]
      exact carryOutcome_giveCarry_top hlow hc (hnot (by omega))

/-- The loop passes chunks that give no carry without a write. -/
theorem carryLoop_skip {k u turns : Nat} (h : a.CarriedBelow k) (hk : k ≤ u) :
    carryLoop (turns + k) a 0 u none = carryLoop turns a k u (topNonzero a k) := by
  induction k generalizing turns with
  | zero => rfl
  | succ k ih =>
    rw [show turns + (k + 1) = (turns + 1) + k by omega, ih (h.mono k.le_succ) (by omega),
      carryLoop_of_no_carry (by omega) (h k k.lt_succ_self)]

/-- Step 3 of R156 keeps the value: a top chunk of -1 goes, and the chunk below it loses the same. -/
theorem Small.CarriedTo.absorbTop_value {k : Nat} (h : a.CarriedTo k) (hk : k < 67) :
    (absorbTop a k).1.value = a.value := by
  induction k generalizing a with
  | zero => rfl
  | succ n ih =>
    by_cases hone : a.get (n + 1) = minusOne
    · have hcn : carryOf (a.get n) = 0#64 := h.1 n n.lt_succ_self
      have hone' : minusOne.toInt = -1 := by decide
      have hdown : minusTwoPow32.toInt = -(2 ^ 32) := by decide
      rw [absorbTop_of_minusOne hone, ih (h.absorbAt (by omega)) (by omega), Small.absorbAt, Small.value_set _ hk,
        Small.get_addAt_other _ (by omega), hone, Small.value_addAt _ (by omega), hone', hdown, two_pow_mul_succ]
      · simp
      · rw [toInt_add_minusTwoPow32 hcn, hdown, sub_eq_add_neg]
    · rw [absorbTop_of_normal_top fun h1 => absurd h1 hone]

theorem Small.CarriedBelow.ne_minusOne (h : a.CarriedBelow 67) (hi : i < 67) : a.get i ≠ minusOne := by
  intro hone
  have hc := h i hi
  rw [hone] at hc
  exact absurd hc (by decide)

/-- The outcome of a propagation whose carries, from some chunk up, are taken without a wrap, and below it there are
none. -/
theorem carryPropagate_outcome
    (h : ∀ u, topNonzero a 67 = some u → ∃ k ≤ u, a.CarriedBelow k ∧ a.NoWrapAbove k) :
    CarryOutcome a (carryPropagate a).1 := by
  unfold carryPropagate
  split
  case h_1 => exact .kept rfl rfl
  case h_2 u hsome =>
    obtain ⟨k, hk, hlow, hwrap⟩ := h u hsome
    obtain ⟨hu, -, habove⟩ := topNonzero_eq_some_iff.mp hsome
    have hzero : ∀ j, u < j → a.get j = 0#64 := fun j hj =>
      if h : j < 67 then habove j hj h else Small.get_of_ge a (by omega)
    have hskip : carryLoop 68 a 0 u none = carryLoop (68 - k) a k u (topNonzero a k) := by
      rw [← carryLoop_skip hlow hk, Nat.sub_add_cancel (by omega)]
    have hloop := carryLoop_leavesCarried (68 - k) hlow hzero (by omega) (by omega) (by omega)
    have houtcome := carryLoop_outcome (68 - k) hlow hwrap (u := u) (by omega)
    rw [← hskip] at hloop houtcome
    split
    case h_1 b hb =>
      rw [hb] at houtcome
      exact houtcome.refill
    case h_2 b uix hb =>
      rw [hb] at hloop houtcome
      have hcarried := hloop.carried uix rfl
      obtain ⟨htop, -, -⟩ := topNonzero_eq_some_iff.mp hloop.top
      refine CarryOutcome.refill ?_
      cases houtcome with
      | kept hvalue hnan =>
        exact .kept ((hcarried.absorbTop_value htop).trans hvalue) ((absorbTop_frame b uix).2.1.trans hnan)
      | overflowed big carried hnan hvalue =>
        have hsame : absorbTop b uix = (b, uix) := absorbTop_of_normal_top fun hone =>
          absurd hone (carried.ne_minusOne htop)
        simp only [hsame]
        exact .overflowed big carried hnan hvalue

theorem Small.NoWrap.carryOutcome (h : a.NoWrap) : CarryOutcome a (carryPropagate a).1 :=
  carryPropagate_outcome fun u _ => ⟨0, u.zero_le, fun j hj => absurd hj j.not_lt_zero, h.noWrapAbove 0⟩

/-! ### When the value is kept -/

/-- What a propagation leaves always fits. -/
theorem fitsTop_carryPropagate (a : Small) : FitsTop (carryPropagate a).1.value := (carryPropagate_normalized a).1.fitsTop

/-- A value that fits is kept, with the NaN field. -/
theorem CarryOutcome.kept_of_fitsTop (h : CarryOutcome a (carryPropagate a).1) (hfits : FitsTop a.value) :
    (carryPropagate a).1.value = a.value ∧ (carryPropagate a).1.nan = a.nan := by
  cases h with
  | kept hvalue hnan => exact ⟨hvalue, hnan⟩
  | overflowed big => exact absurd hfits big

theorem CarryOutcome.kept_of_nan_ne {r : Small} (h : CarryOutcome a r) (hnan : r.nan ≠ overflowNaN) :
    r.value = a.value ∧ r.nan = a.nan := by
  cases h with
  | kept hvalue hnan => exact ⟨hvalue, hnan⟩
  | overflowed _ _ hover => exact absurd hover hnan

/-- A value that does not fit leaves its digits and the overflow (R159). -/
theorem CarryOutcome.overflow_of_not_fitsTop (h : CarryOutcome a (carryPropagate a).1) (hbig : ¬ FitsTop a.value) :
    (carryPropagate a).1.nan = overflowNaN ∧
      ∀ i < 67, (carryPropagate a).1.get i = BitVec.ofInt 64 (a.value / 2 ^ (32 * i) % 2 ^ 32) := by
  cases h with
  | kept hvalue => exact absurd (hvalue ▸ fitsTop_carryPropagate a) hbig
  | overflowed _ carried hnan hvalue =>
    obtain ⟨k, hk⟩ := hvalue
    refine ⟨hnan, fun i hi => ?_⟩
    have hw : (2 : Int) ^ (32 * i) ≠ 0 := by positivity
    have hsplit : a.value - k * 2 ^ (32 * 67) = a.value + (-k * 2 ^ (32 * (66 - i)) * 2 ^ 32) * 2 ^ (32 * i) := by
      have hpow : (2 : Int) ^ (32 * 67) = 2 ^ (32 * (66 - i)) * 2 ^ 32 * 2 ^ (32 * i) := by
        rw [← pow_add, ← pow_add]
        congr 1
        omega
      rw [hpow]
      ring
    have hdigit := carried.get_toInt_eq_digit hi
    rw [hk, hsplit, Int.add_mul_ediv_right _ _ hw, Int.add_mul_emod_self_right] at hdigit
    rw [← hdigit, BitVec.ofInt_toInt]

/-- Carriable chunks have a value that fits: below chunk 66 they add less than half of what it can hold (R156). -/
theorem Small.Carriable.fitsTop (h : a.Carriable) : FitsTop a.value := by
  obtain ⟨hwrap, htop⟩ := h
  have hbelow : ∀ n ≤ 66, |a.valueBelow n| ≤ 2 ^ 31 * 2 ^ (32 * n) := by
    intro n hn
    induction n with
    | zero => simp [Small.valueBelow]
    | succ n ih =>
      have hn' := hwrap n (by omega)
      have hw : (0 : Int) < 2 ^ (32 * n) := by positivity
      have hadd := abs_add_le (a.valueBelow n) ((a.get n).toInt * 2 ^ (32 * n))
      rw [abs_mul, abs_of_pos hw] at hadd
      rw [Small.valueBelow_succ, two_pow_mul_succ]
      nlinarith [ih (by omega)]
  have h66 := hbelow 66 le_rfl
  rw [fitsTop_iff, Small.value_eq_valueBelow, Small.valueBelow_succ]
  rw [abs_le] at h66
  rw [abs_lt] at htop
  have hw : (0 : Int) < 2 ^ (32 * 66) := by positivity
  rw [show 2112 = 32 * 66 by rfl]
  generalize (2 : Int) ^ (32 * 66) = w at *
  constructor <;> nlinarith

theorem Small.Carriable.carryPropagate_kept (h : a.Carriable) :
    (carryPropagate a).1.value = a.value ∧ (carryPropagate a).1.nan = a.nan :=
  h.noWrap.carryOutcome.kept_of_fitsTop h.fitsTop

theorem Small.Roomy.carryPropagate_kept (h : a.Roomy) (hnan : (carryPropagate a).1.nan ≠ overflowNaN) :
    (carryPropagate a).1.value = a.value ∧ (carryPropagate a).1.nan = a.nan :=
  h.noWrap.carryOutcome.kept_of_nan_ne hnan

/-- Rounding with both flags clear propagates first (R200). -/
theorem roundSmall_of_clear (hnan : a.nan = 0#64) (hinf : a.inf = 0#64) : roundSmall a = ((carryPropagate a).1,
    if (carryPropagate a).1.nan = 0#64 then rne64 (carryPropagate a).1.value else (carryPropagate a).1.nan) := by
  by_cases hp : (carryPropagate a).1.nan = 0#64 <;> simp [roundSmall, hnan, hinf, hp]

/-- Zero is no overflow (R159). -/
theorem ne_overflowNaN_of_eq_zero {x : Word} (h : x = 0#64) : x ≠ overflowNaN := by
  rw [h]
  decide

end

end Sys2Proof.Machine

namespace Sys2Proof

open Machine

/-- Settles O29: the two outcomes of a propagation, the overflow excluded by the NaN field or by the value. -/
theorem propagationKeepsTheValue : Obligations.PropagationKeepsTheValue := by
  unfold Obligations.PropagationKeepsTheValue
  exact fun a => ⟨fun hroomy hnan => hroomy.carryPropagate_kept hnan, fun h => h.carryPropagate_kept⟩

/-- Settles O31: a propagation overflows where the value does not fit; alone, a chunk 66 is the whole value. -/
theorem carryOutOfTheTopChunk : Obligations.CarryOutOfTheTopChunk := by
  unfold Obligations.CarryOutOfTheTopChunk
  refine ⟨fun a hwrap => ⟨fun hlow hhigh => ?fits, fun hbig => ?overflow⟩, fun a i hzero hbig hi => ?alone⟩
  case fits => exact (hwrap.carryOutcome.kept_of_fitsTop ⟨hlow, hhigh⟩).symm
  case overflow =>
    have hnot : ¬ FitsTop a.value := fun ⟨hlow, hhigh⟩ => hbig.elim hlow.not_gt hhigh.not_ge
    obtain ⟨hnan, hdigits⟩ := hwrap.carryOutcome.overflow_of_not_fitsTop hnot
    exact ⟨hnan, carryPropagate_inf a, hdigits⟩
  case alone =>
    have hcarried : a.CarriedBelow 66 := fun j hj => by
      rw [hzero j hj]
      decide
    have hnot : ¬ FitsTop a.value := by rwa [FitsTop, hcarried.value_ediv]
    have hne : a.get 66 ≠ 0#64 := by
      intro h0
      rw [h0] at hbig
      exact hbig (by decide)
    have houtcome : CarryOutcome a (carryPropagate a).1 := by
      refine carryPropagate_outcome fun u hu => ⟨66, ?_, hcarried, fun j hj hj67 => by omega⟩
      rw [topNonzero_succ_of_ne hne, Option.some_inj] at hu
      exact hu.le
    obtain ⟨hnan, hdigits⟩ := houtcome.overflow_of_not_fitsTop hnot
    refine ⟨hnan, carryPropagate_inf a, ?_⟩
    have hvalue : a.value = (a.get 66).toInt * 2 ^ (32 * 66) := by
      rw [Small.value_eq_valueBelow, Small.valueBelow_succ,
        Small.valueBelow_of_zero_above (m := 0) (fun j _ hj => hzero j hj) (Nat.zero_le _)]
      rw [Small.valueBelow, Finset.sum_range_zero, zero_add]
    rw [hdigits i hi, hvalue]
    split
    case isTrue h66 =>
      subst h66
      rw [Int.mul_ediv_cancel _ (by positivity), ofInt_emod]
      rfl
    case isFalse h66 =>
      have hpow : (2 : Int) ^ (32 * 66) = 2 ^ (32 * (65 - i)) * 2 ^ 32 * 2 ^ (32 * i) := by
        rw [← pow_add, ← pow_add]
        congr 1
        omega
      rw [hpow, ← mul_assoc, Int.mul_ediv_cancel _ (by positivity), ← mul_assoc, Int.mul_emod_left]
      rfl

/-- Settles O28: the normalized form and the index are those of `carryPropagate`, the value that of its outcome. -/
theorem sPropagateNormalizes : Obligations.SPropagateNormalizes := by
  unfold Obligations.SPropagateNormalizes
  intro s
  obtain ⟨hnorm, hzero⟩ := carryPropagate_normalized s.small
  obtain ⟨hinf, hadds, hnan⟩ := carryPropagate_frame s.small
  exact ⟨_, _, exec_sPropagate s, ⟨rfl, rfl, rfl⟩, rfl, rfl, State.complete_output .., hnorm, hzero, hadds, hinf, hnan,
    fun hroomy hne => (hroomy.carryPropagate_kept hne).1⟩

/-- Settles O26: the cases of rounding, and the outcome of its propagation. -/
theorem sRoundAnswers : Obligations.SRoundAnswers := by
  unfold Obligations.SRoundAnswers
  intro s
  refine ⟨_, _, exec_sRound s, ⟨rfl, rfl, rfl⟩, State.complete_output .., ?inf, ?nanSet, ?infSet, ?clear⟩
  case inf =>
    obtain h | h := roundSmall_fst s.small <;> simp [h]
  case nanSet =>
    intro h
    simp [roundSmall_of_nan h]
  case infSet =>
    intro hn hi
    simp [roundSmall_of_inf hn hi]
  case clear =>
    intro hn hi
    rw [roundSmall_of_clear hn hi]
    refine ⟨rfl, carryPropagate_adds _, fun hne => if_neg hne, fun h0 => if_pos h0, fun hroomy h0 => ?roomy,
      fun hcarriable => ?carriable⟩
    case roomy =>
      obtain ⟨hvalue, -⟩ := hroomy.carryPropagate_kept (ne_overflowNaN_of_eq_zero h0)
      exact ⟨hvalue, by rw [← hvalue]; exact if_pos h0⟩
    case carriable =>
      obtain ⟨hvalue, hnan⟩ := hcarriable.carryPropagate_kept
      have h0 : (carryPropagate s.small).1.nan = 0#64 := hnan.trans hn
      exact ⟨h0, hvalue, by rw [← hvalue]; exact if_pos h0⟩

end Sys2Proof
end

section
/-! SUPPORT. Adding to a small accumulator (R150 to R152): the parts of a magnitude added at chunks, the room that every
add and merge keeps, and the settlements of the statements about the adding commands of S. -/

namespace Sys2Proof.Machine

/-! ### A signed amount at one chunk -/

/-- A signed amount is the word or its negation. -/
theorem signedWord_toNat (neg : Bool) (d : Word) : signedWord neg d.toNat = if neg then -d else d := by
  cases neg <;> simp [signedWord, BitVec.ofInt_neg]

theorem signedWord_toInt (neg : Bool) {n : Nat} (h : n < 2 ^ 63) : (signedWord neg n).toInt = signOf neg * n := by
  have hval : (if neg then -(n : Int) else (n : Int)) = signOf neg * n := by cases neg <;> simp [signOf]
  rw [signedWord, hval, BitVec.toInt_ofInt, Int.bmod_eq_of_le] <;> cases neg <;> simp [signOf] <;> omega

@[simp] theorem signedWord_zero (neg : Bool) : signedWord neg 0 = 0#64 := by cases neg <;> rfl

section
variable {a b : Small} {i j : Nat} {d : Word} {neg : Bool}

theorem Small.get_accumulate_same (a : Small) (neg : Bool) (hi : i < 67) (d : Word) :
    (a.accumulate neg i d).get i = a.get i + signedWord neg d.toNat := by
  rw [Small.get_accumulate, if_pos ⟨rfl, hi⟩, signedWord_toNat]
  cases neg
  · rfl
  · simp [BitVec.sub_eq_add_neg]

@[simp] theorem Small.get_accumulate_other (a : Small) (neg : Bool) (h : i ≠ j) (d : Word) :
    (a.accumulate neg i d).get j = a.get j := by
  rw [Small.get_accumulate, if_neg fun h' => h h'.1]

@[simp] theorem Small.accumulate_zero (a : Small) (neg : Bool) (i : Nat) : a.accumulate neg i 0#64 = a := by
  refine Small.ext_get (fun j _ => ?_) (by simp) (by simp) (by simp)
  rw [Small.get_accumulate]
  cases neg <;> simp

/-- The chunk has room for an amount, so that adding or subtracting it does not wrap (R151). -/
def Small.RoomAt (a : Small) (i : Nat) (d : Word) : Prop := |(a.get i).toInt| + d.toNat < 2 ^ 63

theorem Small.RoomAt.toInt_accumulate (h : a.RoomAt i d) (neg : Bool) (hi : i < 67) :
    ((a.accumulate neg i d).get i).toInt = (a.get i).toInt + signOf neg * d.toNat := by
  have hd : d.toNat < 2 ^ 63 := by
    have := abs_nonneg (a.get i).toInt
    rw [Small.RoomAt] at h
    omega
  have hs := signedWord_toInt neg hd
  have habs : |signOf neg * (d.toNat : Int)| = d.toNat := by rw [abs_signOf_mul, Nat.abs_cast]
  have hsum := abs_add_le (a.get i).toInt (signOf neg * d.toNat)
  rw [habs] at hsum
  have hlt : |(a.get i).toInt + signOf neg * d.toNat| < 2 ^ 63 := hsum.trans_lt h
  rw [abs_lt] at hlt
  rw [Small.get_accumulate_same _ _ hi, toInt_add_of_range] <;> rw [hs] <;> omega

/-- An amount added or subtracted with room changes the value by exactly itself (R14, R19). -/
theorem Small.RoomAt.value_accumulate (h : a.RoomAt i d) (neg : Bool) (hi : i < 67) :
    (a.accumulate neg i d).value = a.value + signOf neg * d.toNat * 2 ^ (32 * i) := by
  have hset : a.accumulate neg i d = a.set i ((a.accumulate neg i d).get i) := by
    refine Small.ext_get (fun j _ => ?_) (by simp) (by simp) (by simp)
    by_cases hij : i = j
    · subst hij
      rw [Small.get_set_same _ hi]
    · rw [Small.get_set_other _ hij, Small.get_accumulate_other _ _ hij]
  rw [hset, Small.value_set _ hi, h.toInt_accumulate neg hi]
  ring

end

/-! ### The two parts of a mantissa -/

/-- The two chunk writes of R150: a magnitude m 2^e in its bits of chunk e / 32 and of the next. -/
def Small.addParts (a : Small) (neg : Bool) (m e : Nat) : Small :=
  (a.accumulate neg (e / 32) (lowPart m e)).accumulate neg (e / 32 + 1) (highPart m e)

theorem addFinite_eq_addParts (a : Small) (d : Decomposed) : addFinite a d = a.addParts d.neg d.mant d.exp := rfl

section
variable {u : Word} {m e : Nat}

theorem lowPart_toNat (m e : Nat) : (lowPart m e).toNat = m * 2 ^ (e % 32) % 2 ^ 32 := by
  have hlt : m * 2 ^ (e % 32) % 2 ^ 32 < 2 ^ 32 := Nat.mod_lt _ (by decide)
  rw [lowPart, lowExp, BitVec.toNat_ofNat, Nat.mod_eq_of_lt]
  omega

/-- The part above bit 31 of the shifted mantissa (R150). -/
theorem div_two_pow_sub (m : Nat) {k n : Nat} (h : k ≤ n) : m / 2 ^ (n - k) = m * 2 ^ k / 2 ^ n := by
  rw [show 2 ^ n = 2 ^ (n - k) * 2 ^ k by rw [← pow_add, Nat.sub_add_cancel h],
    Nat.mul_div_mul_right _ _ (Nat.two_pow_pos k)]

/-- A 53-bit mantissa shifted by at most 31 has at most 52 bits above bit 31 (R151). -/
theorem highPart_lt (hm : m < 2 ^ 53) (e : Nat) : m * 2 ^ (e % 32) / 2 ^ 32 < 2 ^ 52 := by
  have hpow : 2 ^ (e % 32) ≤ 2 ^ 31 := Nat.pow_le_pow_right (by decide) (by omega)
  rw [Nat.div_lt_iff_lt_mul (by decide)]
  calc m * 2 ^ (e % 32) ≤ m * 2 ^ 31 := Nat.mul_le_mul_left _ hpow
    _ < 2 ^ 53 * 2 ^ 31 := Nat.mul_lt_mul_of_pos_right hm (by decide)
    _ = 2 ^ 52 * 2 ^ 32 := by decide

theorem highPart_toNat (hm : m < 2 ^ 53) (e : Nat) : (highPart m e).toNat = m * 2 ^ (e % 32) / 2 ^ 32 := by
  have hlt := highPart_lt hm e
  rw [highPart, lowExp, BitVec.toNat_ofNat, div_two_pow_sub m (by omega), Nat.mod_eq_of_lt (by omega)]

/-- The two parts at their weights are the magnitude (R150). -/
theorem parts_eq_magnitude (m e : Nat) :
    m * 2 ^ (e % 32) % 2 ^ 32 * 2 ^ (32 * (e / 32)) + m * 2 ^ (e % 32) / 2 ^ 32 * 2 ^ (32 * (e / 32 + 1)) =
      m * 2 ^ e := by
  have he : 2 ^ e = 2 ^ (e % 32) * 2 ^ (32 * (e / 32)) := by
    rw [← pow_add]
    congr 1
    omega
  have hnext : 2 ^ (32 * (e / 32 + 1)) = 2 ^ 32 * 2 ^ (32 * (e / 32)) := by
    rw [← pow_add]
    congr 1
    omega
  calc m * 2 ^ (e % 32) % 2 ^ 32 * 2 ^ (32 * (e / 32)) + m * 2 ^ (e % 32) / 2 ^ 32 * 2 ^ (32 * (e / 32 + 1))
      = (m * 2 ^ (e % 32) % 2 ^ 32 + 2 ^ 32 * (m * 2 ^ (e % 32) / 2 ^ 32)) * 2 ^ (32 * (e / 32)) := by
        rw [hnext]
        ring
    _ = m * 2 ^ (e % 32) * 2 ^ (32 * (e / 32)) := by rw [Nat.mod_add_div]
    _ = m * 2 ^ e := by rw [he, Nat.mul_assoc]

theorem effMant_lt (u : Word) : effMant u < 2 ^ 53 := by
  have := (frac u).isLt
  unfold effMant
  split <;> omega

theorem bexp_lt_of_isFinite (h : isFinite u = true) : (bexp u).toNat < 0x7FF := by
  have hlt := (bexp u).isLt
  have hne : (bexp u).toNat ≠ 0x7FF := fun h0 => isFinite_iff.mp h (BitVec.eq_of_toNat_eq h0)
  omega

theorem effExp_lt (h : isFinite u = true) : effExp u < 0x7FF := by
  have := bexp_lt_of_isFinite h
  unfold effExp
  split <;> omega

/-- A finite pattern is added by its parts; the parts of a zero are zeros (R120, R150). -/
theorem addNoCarry_of_isFinite (a : Small) (h : isFinite u = true) :
    addNoCarry a u = a.addParts (signBit u) (effMant u) (effExp u) := by
  have hlt := bexp_lt_of_isFinite h
  unfold addNoCarry decompose effMant effExp
  dsimp only
  by_cases h0 : (bexp u).toNat = 0
  · by_cases hf : (frac u).toNat = 0
    · simp [h0, hf, Small.addParts, lowPart, highPart]
    · simp [h0, hf, addFinite_eq_addParts]
  · simp [h0, Nat.pos_of_ne_zero h0, hlt, addFinite_eq_addParts]

/-- An infinity or a NaN goes to the handler (R126, R150). -/
theorem addNoCarry_of_not_isFinite (a : Small) (h : isFinite u = false) : addNoCarry a u = addInfNaN a u := by
  have hexp : bexp u = 0x7FF#11 := by simpa [isFinite] using h
  simp [addNoCarry, decompose, hexp]

@[simp] theorem Small.addParts_inf (a : Small) (neg : Bool) (m e : Nat) : (a.addParts neg m e).inf = a.inf := by
  simp [Small.addParts]

@[simp] theorem Small.addParts_nan (a : Small) (neg : Bool) (m e : Nat) : (a.addParts neg m e).nan = a.nan := by
  simp [Small.addParts]

/-- The chunks after the two writes of R150. -/
theorem Small.addParts_get (a : Small) (neg : Bool) (hm : m < 2 ^ 53) (he : e < 0x7FF) :
    (a.addParts neg m e).get (e / 32) = a.get (e / 32) + signedWord neg (m * 2 ^ (e % 32) % 2 ^ 32) ∧
    (a.addParts neg m e).get (e / 32 + 1) = a.get (e / 32 + 1) + signedWord neg (m * 2 ^ (e % 32) / 2 ^ 32) ∧
    ∀ j, j ≠ e / 32 → j ≠ e / 32 + 1 → (a.addParts neg m e).get j = a.get j := by
  rw [← lowPart_toNat, ← highPart_toNat hm]
  refine ⟨?_, ?_, fun j hj hj' => ?_⟩
  · rw [Small.addParts, Small.get_accumulate_other _ _ (by omega), Small.get_accumulate_same _ _ (by omega)]
  · rw [Small.addParts, Small.get_accumulate_same _ _ (by omega), Small.get_accumulate_other _ _ (by omega)]
  · rw [Small.addParts, Small.get_accumulate_other _ _ (by omega), Small.get_accumulate_other _ _ (by omega)]

end

/-! ### Room for one add -/

/-- No chunk of b is further from zero than that of a by 2^52 or more (R151). -/
def Small.MovedLess (a b : Small) : Prop := ∀ j < 67, |(b.get j).toInt| < |(a.get j).toInt| + 2 ^ 52

/-- There is room for one add more: at least one is left on the counter (R151). -/
def Small.RoomForOne (a : Small) : Prop := a.Roomy ∧ a.adds ≠ 0#32

section
variable {a b : Small}

theorem adds_toInt_ne_zero {n : BitVec 32} (h : n ≠ 0#32) : n.toInt ≠ 0 :=
  fun h0 => h (BitVec.eq_of_toInt_eq h0)

theorem toInt_adds_sub_one {n : BitVec 32} (hlow : 0 ≤ n.toInt) (h : n ≠ 0#32) :
    (n - 1#32).toInt = n.toInt - 1 := by
  have hne := adds_toInt_ne_zero h
  have hlt := BitVec.toInt_lt (x := n)
  have hone : (1#32).toInt = 1 := by decide
  rw [BitVec.toInt_sub, hone, Int.bmod_eq_of_le (by omega) (by omega)]

/-- One add takes at most 2^52 of the room of each chunk, and one from the counter (R151, R152). -/
theorem Small.RoomForOne.countDown (h : a.RoomForOne) (hmoved : a.MovedLess b) (hadds : b.adds = a.adds) :
    b.countDown.Roomy := by
  obtain ⟨⟨hbound, hlow, hhigh⟩, hne⟩ := h
  have hone := toInt_adds_sub_one hlow hne
  have hne0 := adds_toInt_ne_zero hne
  refine ⟨fun j hj => ?_, ?_, ?_⟩
  · have hb := hbound j hj
    have hm := hmoved j hj
    rw [Small.countDown_get, Small.countDown_adds, hadds, hone]
    omega
  · rw [Small.countDown_adds, hadds, hone]
    omega
  · rw [Small.countDown_adds, hadds, hone]
    omega

/-- An amount below 2^52 has room at every chunk while an add is left (R151). -/
theorem Small.RoomForOne.roomAt (h : a.RoomForOne) {d : Word} (hd : d.toNat < 2 ^ 52) {i : Nat} (hi : i < 67) :
    a.RoomAt i d := by
  obtain ⟨⟨hbound, hlow, -⟩, hne⟩ := h
  have hb := hbound i hi
  have hne0 := adds_toInt_ne_zero hne
  rw [Small.RoomAt]
  omega

/-- An accumulator whose chunks differ by amounts below 2^52 has moved less than one add may (R151). -/
theorem Small.RoomForOne.movedLess (h : a.RoomForOne) {neg : Bool}
    (hb : ∀ j < 67, ∃ n < 2 ^ 52, b.get j = a.get j + signedWord neg n) : a.MovedLess b := by
  intro j hj
  obtain ⟨n, hn, hget⟩ := hb j hj
  obtain ⟨⟨hbound, hlow, -⟩, hne⟩ := h
  have hbj := hbound j hj
  have hne0 := adds_toInt_ne_zero hne
  have hs := signedWord_toInt neg (n := n) (by omega)
  have habs : |signOf neg * (n : Int)| = n := by rw [abs_signOf_mul, Nat.abs_cast]
  have hsum := abs_add_le (a.get j).toInt (signOf neg * n)
  have hrange : |(a.get j).toInt + signOf neg * n| < 2 ^ 63 := by omega
  rw [abs_lt] at hrange
  rw [hget, toInt_add_of_range (by rw [hs]; omega) (by rw [hs]; omega), hs]
  omega

theorem Small.Normalized.abs_get_le {u : Nat} (h : a.Normalized u) {i : Nat} (hi : i < 67) :
    |(a.get i).toInt| ≤ 2 ^ 32 := by
  obtain ⟨-, habove, hbelow, hlow, hhigh, -⟩ := h
  rw [abs_le]
  obtain hlt | rfl | hgt := lt_trichotomy i u
  · have := hbelow i hlt
    omega
  · omega
  · rw [habove i hi hgt]
    decide

/-- A propagation leaves room for 2046 adds, whatever the chunks were (R151, R156). -/
theorem carryPropagate_roomForOne (a : Small) : (carryPropagate a).1.RoomForOne := by
  have hadds : (2046#32).toInt = 2046 := by decide
  refine ⟨⟨fun i hi => ?_, ?_, ?_⟩, ?_⟩
  · have := (carryPropagate_normalized a).1.abs_get_le hi
    rw [carryPropagate_adds, hadds]
    omega
  all_goals
    rw [carryPropagate_adds]
    decide

theorem Small.Roomy.ensureRoom (h : a.Roomy) : (ensureRoom a).RoomForOne := by
  unfold Machine.ensureRoom
  split
  · exact carryPropagate_roomForOne a
  · rename_i hne
    exact ⟨h, hne⟩

/-- The opening check keeps the value and the NaN field where no overflow shows in it (R152). -/
theorem Small.Roomy.ensureRoom_kept (h : a.Roomy) (hnan : (Machine.ensureRoom a).nan = 0#64) :
    (Machine.ensureRoom a).value = a.value := by
  unfold Machine.ensureRoom at *
  split at hnan
  · rename_i h0
    rw [if_pos h0]
    exact (h.carryPropagate_kept (ne_overflowNaN_of_eq_zero hnan)).1
  · rename_i h0
    rw [if_neg h0]

/-- An add, a merge or a transfer with no add left is one after a propagation (R152, R166, R236). -/
theorem ensureRoom_carryPropagate (h : a.adds = 0#32) : ensureRoom (carryPropagate a).1 = ensureRoom a := by
  rw [ensureRoom_of_room (carryPropagate_roomForOne a).2, ensureRoom, if_pos h]

/-- The counter after one add (R152, R166, R242). -/
theorem addsAfterOne_eq (n : BitVec 32) : (if n = 0#32 then 2046#32 else n) - 1#32 = addsAfterOne n := by
  unfold addsAfterOne
  split <;> rfl

/-! ### Adding one pattern -/

section
variable {m e : Nat}

/-- The parts of a mantissa have room at their chunks, and add exactly its magnitude (R150, R151). -/
theorem Small.RoomForOne.addParts (h : a.RoomForOne) (neg : Bool) (hm : m < 2 ^ 53) (he : e < 0x7FF) :
    a.MovedLess (a.addParts neg m e) ∧ (a.addParts neg m e).value = a.value + signOf neg * (m * 2 ^ e : Nat) := by
  have hlow : (lowPart m e).toNat < 2 ^ 52 := by
    have : m * 2 ^ (e % 32) % 2 ^ 32 < 2 ^ 32 := Nat.mod_lt _ (by decide)
    rw [lowPart_toNat]
    omega
  have hhigh : (highPart m e).toNat < 2 ^ 52 := highPart_toNat hm e ▸ highPart_lt hm e
  have hi : e / 32 < 67 := by omega
  have hi' : e / 32 + 1 < 67 := by omega
  have hroom := h.roomAt hlow hi
  have hroom' : (a.accumulate neg (e / 32) (lowPart m e)).RoomAt (e / 32 + 1) (highPart m e) := by
    have := h.roomAt hhigh hi'
    rwa [Small.RoomAt, Small.get_accumulate_other _ _ (by omega)]
  obtain ⟨hget, hget', hother⟩ := a.addParts_get neg hm he
  refine ⟨h.movedLess (neg := neg) fun j _ => ?_, ?_⟩
  · by_cases hj : j = e / 32
    · exact ⟨_, lowPart_toNat m e ▸ hlow, hj ▸ hget⟩
    by_cases hj' : j = e / 32 + 1
    · exact ⟨_, highPart_lt hm e, hj' ▸ hget'⟩
    · exact ⟨0, by decide, by rw [hother j hj hj', signedWord_zero, BitVec.add_zero]⟩
  · rw [Small.addParts, hroom'.value_accumulate neg hi', hroom.value_accumulate neg hi, lowPart_toNat,
      highPart_toNat hm, ← parts_eq_magnitude m e]
    push_cast
    ring

end

/-- One add with room moves every chunk by less than 2^52, whatever the pattern (R151). -/
theorem Small.RoomForOne.addNoCarry_movedLess (h : a.RoomForOne) (u : Word) : a.MovedLess (addNoCarry a u) := by
  cases hu : isFinite u with
  | true =>
    rw [addNoCarry_of_isFinite a hu]
    exact (h.addParts _ (effMant_lt u) (effExp_lt hu)).1
  | false =>
    rw [addNoCarry_of_not_isFinite a hu]
    intro j _
    rw [addInfNaN_get]
    omega

/-- A finite pattern added with room changes the value by exactly its own (R150). -/
theorem Small.RoomForOne.addNoCarry_value (h : a.RoomForOne) {u : Word} (hu : isFinite u = true) :
    (addNoCarry a u).value = a.value + unitsOf u := by
  rw [addNoCarry_of_isFinite a hu, (h.addParts _ (effMant_lt u) (effExp_lt hu)).2, unitsOf_eq, finiteMagnitude_eq hu]

/-- An add keeps the room for the adds left (R151, R174). -/
theorem Small.Roomy.smallAddOne (h : a.Roomy) (u : Word) : (smallAddOne a u).Roomy :=
  h.ensureRoom.countDown (h.ensureRoom.addNoCarry_movedLess u) (addNoCarry_adds _ u)

theorem smallAddOne_flags_of_isFinite (a : Small) {u : Word} (hu : isFinite u = true) :
    (smallAddOne a u).inf = a.inf ∧ (smallAddOne a u).nan = (ensureRoom a).nan := by
  rw [Machine.smallAddOne, addNoCarry_of_isFinite _ hu]
  simp

/-- A finite pattern changes the value by exactly its own, unless a propagation overflows (R174). -/
theorem Small.Roomy.smallAddOne_value (h : a.Roomy) {u : Word} (hu : isFinite u = true)
    (hnan : (Machine.smallAddOne a u).nan = 0#64) : (Machine.smallAddOne a u).value = a.value + unitsOf u := by
  rw [(smallAddOne_flags_of_isFinite a hu).2] at hnan
  rw [Machine.smallAddOne, Small.countDown_value, h.ensureRoom.addNoCarry_value hu, h.ensureRoom_kept hnan]

/-- A clear flag after an operation that clears none was clear before (R49). -/
theorem Small.FlagsKept.nan_eq_zero (h : a.FlagsKept b) (hnan : b.nan = 0#64) : a.nan = 0#64 := by
  by_contra hne
  exact h.2 hne hnan

/-- Finite patterns added one by one change the value by exactly their sum, unless a propagation overflows (R165,
R174). -/
theorem Small.Roomy.smallAddAll (h : a.Roomy) {us : List Word} (hus : ∀ u ∈ us, isFinite u = true) :
    (smallAddAll a us).Roomy ∧ (smallAddAll a us).inf = a.inf ∧
      ((smallAddAll a us).nan = 0#64 → (smallAddAll a us).value = a.value + (us.map unitsOf).sum) := by
  induction us generalizing a with
  | nil => exact ⟨h, rfl, fun _ => by simp⟩
  | cons u us ih =>
    have hu : isFinite u = true := hus u (by simp)
    obtain ⟨hroomy, hinf, hvalue⟩ := ih (h.smallAddOne u) fun v hv => hus v (by simp [hv])
    refine ⟨hroomy, hinf.trans (smallAddOne_flags_of_isFinite a hu).1, fun hnan => ?_⟩
    have hfirst := h.smallAddOne_value hu ((smallAddAll_flagsKept _ us).nan_eq_zero hnan)
    rw [smallAddAll_cons] at hnan ⊢
    rw [hvalue hnan, hfirst, List.map_cons, List.sum_cons, add_assoc]

/-! ### Merging -/

@[simp] theorem mergeFlag_zero (a : Small) : mergeFlag a 0#64 = a := if_neg (by simp)

/-- A merge of an image with clear flags, chunk by chunk (R166). -/
theorem smallAddOther_of_clear (a : Small) {x : Small} (hinf : x.inf = 0#64) (hnan : x.nan = 0#64) :
    smallAddOther a x =
      Small.countDown { ensureRoom a with chunk := Vector.zipWith (· + ·) (ensureRoom a).chunk x.chunk } := by
  simp [smallAddOther, hinf, hnan]

/-- A merge of chunks below 2^52 keeps the room for the adds left, and adds exactly the image's value unless a
propagation overflows (R166, R304). -/
theorem Small.Roomy.smallAddOther (h : a.Roomy) {x : Small} (hx : ∀ i < 67, |(x.get i).toInt| < 2 ^ 52)
    (hinf : x.inf = 0#64) (hnan : x.nan = 0#64) :
    (smallAddOther a x).Roomy ∧
      ((smallAddOther a x).nan = 0#64 → (smallAddOther a x).value = a.value + x.value) := by
  obtain ⟨⟨hbound, hlow, hhigh⟩, hne⟩ := h.ensureRoom
  have hget (i : Nat) (hi : i < 67) :
      ((Machine.smallAddOther a x).get i).toInt = ((Machine.ensureRoom a).get i).toInt + (x.get i).toInt := by
    have hb := hbound i hi
    have hd := hx i hi
    have hne0 := adds_toInt_ne_zero hne
    rw [abs_le] at hb
    rw [abs_lt] at hd
    rw [smallAddOther_get a x hi, toInt_add_of_range] <;> omega
  constructor
  · rw [smallAddOther_of_clear a hinf hnan]
    refine h.ensureRoom.countDown (fun j hj => ?_) rfl
    have hsum := hget j hj
    rw [smallAddOther_of_clear a hinf hnan, Small.countDown_get] at hsum
    have habs := abs_add_le ((Machine.ensureRoom a).get j).toInt (x.get j).toInt
    have hd := hx j hj
    rw [hsum]
    omega
  · intro h0
    rw [smallAddOther_of_clear a hinf hnan] at h0
    rw [← h.ensureRoom_kept h0, Small.value_eq_sum, Small.value_eq_sum, Small.value_eq_sum, ← Finset.sum_add_distrib]
    refine Finset.sum_congr rfl fun i hi => ?_
    rw [hget i (Finset.mem_range.mp hi), add_mul]

end

/-! ### The commands of S -/

section
variable {s t : State}

theorem small_of_exec_sAdd1 {x : Word} (h : exec (.sAdd1 x) s = .next t) : t.small = smallAddOne s.small x := by
  cases h
  rfl

theorem small_and_output_of_exec_sAddv {v : List Word} (h : exec (.sAddv v) s = .next t) :
    t.small = smallAddAll s.small v ∧ t.output = s.output ++ [0x03#64] := by
  cases h
  exact ⟨rfl, State.complete_output ..⟩

end

/-- The fields of the image an image operand stands for (R74). -/
theorem imageRecv_get (x : Image) {i : Nat} (h : i < 67) : (imageRecv x).get i = x.chunk[i] :=
  Small.get_eq (imageRecv x) h

/-- A merge with adds left: the chunks, and the flags that are not zero passed to the handler, Inf before NaN (R166). -/
theorem smallAddOther_of_room {a : Small} (h : a.adds ≠ 0#32) (x : Image) :
    (∀ i (hi : i < 67), (smallAddOther a (imageRecv x)).get i = a.get i + x.chunk[i]) ∧
    ∃ b c : Small, (b = if x.inf = 0#64 then a else addInfNaN a x.inf) ∧
      (c = if x.nan = 0#64 then b else addInfNaN b x.nan) ∧
      (smallAddOther a (imageRecv x)).inf = c.inf ∧ (smallAddOther a (imageRecv x)).nan = c.nan := by
  have hmerge (b : Small) (v : Word) : mergeFlag b v = if v = 0#64 then b else addInfNaN b v := ite_not ..
  refine ⟨fun i hi => ?_, _, _, rfl, rfl, ?_, ?_⟩
  · rw [smallAddOther_get _ _ hi, ensureRoom_of_room h, imageRecv_get x hi]
  all_goals
    rw [← hmerge, ← hmerge, smallAddOther, ensureRoom_of_room h]
    rfl

/-- The counter after a merge (R166). -/
theorem smallAddOther_addsAfterOne (a x : Small) : (smallAddOther a x).adds = addsAfterOne a.adds := by
  rw [smallAddOther_adds, addsAfterOne_eq]

/-- A merge with no add left is a merge after a propagation (R166). -/
theorem smallAddOther_carryPropagate {a : Small} (h : a.adds = 0#32) (x : Small) :
    smallAddOther (carryPropagate a).1 x = smallAddOther a x := by
  rw [smallAddOther, ensureRoom_carryPropagate h, smallAddOther]

/-- An add with no add left is an add after a propagation (R152). -/
theorem smallAddOne_carryPropagate {a : Small} (h : a.adds = 0#32) (u : Word) :
    smallAddOne (carryPropagate a).1 u = smallAddOne a u := by
  rw [smallAddOne, ensureRoom_carryPropagate h, smallAddOne]

theorem imageRecv_abs_get_lt {x : Image} (h : ∀ i (hi : i < 67), |x.chunk[i].toInt| < 2 ^ 52) (i : Nat) (hi : i < 67) :
    |((imageRecv x).get i).toInt| < 2 ^ 52 := by
  rw [imageRecv_get x hi]
  exact h i hi

end Sys2Proof.Machine

namespace Sys2Proof

open Machine

/-- Settles O32: with adds left the opening check does nothing, and a finite pattern is added by its two parts. -/
theorem sAdd1AddsTwoParts : Obligations.SAdd1AddsTwoParts := by
  unfold Obligations.SAdd1AddsTwoParts
  intro x s
  refine ⟨_, exec_sAdd1 x s, ⟨rfl, rfl, rfl⟩, State.complete_output .., ?counter, fun hadds hx => ?finite⟩
  case counter => exact (smallAddOne_adds _ _).trans (addsAfterOne_eq _)
  case finite =>
    obtain ⟨hinf, hnan⟩ := smallAddOne_flags_of_isFinite s.small hx
    rw [ensureRoom_of_room hadds] at hnan
    refine ⟨hinf, hnan, ?_⟩
    simp only [State.complete_small, State.setSmall_small, smallAddOne, Small.countDown_get, ensureRoom_of_room hadds,
      addNoCarry_of_isFinite _ hx]
    exact s.small.addParts_get (signBit x) (effMant_lt x) (effExp_lt hx)

/-- Settles O33: with adds left an infinity or a NaN is the handler's, whose two paths are written out. -/
theorem sAdd1OfSpecials : Obligations.SAdd1OfSpecials := by
  unfold Obligations.SAdd1OfSpecials
  intro x s hx hadds
  have hsmall : smallAddOne s.small x = (addInfNaN s.small x).countDown := by
    rw [smallAddOne, ensureRoom_of_room hadds, addNoCarry_of_not_isFinite _ hx]
  refine ⟨_, exec_sAdd1 x s, ⟨rfl, rfl, rfl⟩, State.complete_output .., ?_⟩
  simp only [State.complete_small, State.setSmall_small, hsmall, Small.countDown_chunk, Small.countDown_adds,
    Small.countDown_inf, Small.countDown_nan, addInfNaN_chunk, addInfNaN_adds, true_and]
  refine ⟨fun hinf => ?infinity, fun hnan => ?nan⟩
  case infinity =>
    rw [addInfNaN_eq_of_isInf _ hinf]
    refine ⟨rfl, ?_⟩
    by_cases h0 : s.small.inf = 0#64
    · simp [infAfter, h0]
    · by_cases hx : s.small.inf = x <;> simp [infAfter, h0, hx]
  case nan =>
    rw [addInfNaN_eq_of_isNaN _ hnan]
    exact ⟨rfl, rfl⟩

/-- Settles O36: a merge with adds left field by field, with none left through a propagation; adds and pad are not in the
chunks and flags it reads. -/
theorem sAddaccMergesAnImage : Obligations.SAddaccMergesAnImage := by
  unfold Obligations.SAddaccMergesAnImage
  intro x s
  refine ⟨_, exec_sAddacc x s, ⟨rfl, rfl, rfl⟩, State.complete_output .., smallAddOther_addsAfterOne _ _,
    fun hadds => smallAddOther_of_room hadds x, fun hadds => ?noRoom, fun n pad u hu => ?unread⟩
  case noRoom => exact ⟨_, _, exec_sPropagate s, exec_sAddacc x _, (smallAddOther_carryPropagate hadds _).symm⟩
  case unread =>
    cases hu
    rfl

/-- Settles O40: an add keeps the room, and a finite pattern added with room adds exactly its value. -/
theorem sAdd1IsExact : Obligations.SAdd1IsExact := by
  unfold Obligations.SAdd1IsExact
  intro x s t hroomy h
  rw [small_of_exec_sAdd1 h]
  exact ⟨hroomy.smallAddOne x, fun hx hnan => hroomy.smallAddOne_value hx hnan⟩

/-- Settles O41: the sum is exact from reset, the flags stay clear, and rounding answers its nearest binary64. -/
theorem sSumIsCorrectlyRounded : Obligations.SSumIsCorrectlyRounded := by
  unfold Obligations.SSumIsCorrectlyRounded
  intro v t u hv hadd hround hnan
  obtain ⟨htsmall, htout⟩ := small_and_output_of_exec_sAddv hadd
  obtain ⟨husmall, huout⟩ := small_and_output_of_exec_sRound hround
  obtain ⟨hroomy, hinf, hvalue⟩ := Small.reset_roomy.smallAddAll hv
  rw [State.reset_small] at htsmall
  rw [← htsmall] at hroomy hinf hvalue
  have htnan : t.small.nan = 0#64 := by
    rw [husmall] at hnan
    exact (roundSmall_flagsKept t.small).nan_eq_zero hnan
  rw [roundSmall_of_clear htnan hinf] at husmall huout
  rw [husmall] at hnan
  obtain ⟨hkept, -⟩ := hroomy.carryPropagate_kept (ne_overflowNaN_of_eq_zero hnan)
  rw [huout, htout, if_pos hnan, hkept, hvalue htnan, Small.reset_value, zero_add]
  rfl

/-- Settles O34: with no add left the opening check is a propagation, after which there are adds left. -/
theorem sAdd1PropagatesFirst : Obligations.SAdd1PropagatesFirst := by
  unfold Obligations.SAdd1PropagatesFirst
  intro x s hadds
  refine ⟨_, _, _, exec_sAdd1 x s, exec_sPropagate s, exec_sAdd1 x _, (smallAddOne_carryPropagate hadds x).symm, ?_⟩
  rw [State.complete_small, State.setSmall_small, smallAddOne_adds, if_pos hadds]
  rfl

/-- Settles O35: the vector commands are one fold over the elements, the squares or the products. -/
theorem sVectorCommandsAddInOrder : Obligations.SVectorCommandsAddInOrder := by
  unfold Obligations.SVectorCommandsAddInOrder
  refine ⟨fun v s => ?vector, fun v x s t p q ht hp hq => ?last, fun v s => ?squares, fun ab s => ?products⟩
  case vector =>
    refine ⟨_, exec_sAddv v s, ⟨rfl, rfl, rfl⟩, State.complete_output .., ?_⟩
    rintro rfl
    rfl
  case last =>
    rw [small_of_exec_sAdd1 hq, (small_and_output_of_exec_sAddv hp).1, (small_and_output_of_exec_sAddv ht).1,
      smallAddAll_append]
    rfl
  case squares =>
    exact ⟨_, _, exec_sSqnorm v s, ⟨rfl, rfl, rfl⟩, State.complete_output .., exec_sAddv _ s, rfl⟩
  case products =>
    exact ⟨_, _, exec_sDot ab s, ⟨rfl, rfl, rfl⟩, State.complete_output .., exec_sAddv _ s, rfl⟩

end Sys2Proof
end

section
/-! SUPPORT. The parity of chunk 0 (R38): a write that keeps it, that no operation of either accumulator changes it, and
the settlement of the statement about every command. -/

namespace Sys2Proof.Machine

/-! ### Bit 0 of a word -/

theorem getLsbD_zero_eq (w : Word) : w.getLsbD 0 = decide (w.toNat % 2 = 1) := by
  rw [BitVec.getLsbD, Nat.testBit_zero]

theorem getLsbD_zero_eq_false_iff {w : Word} : w.getLsbD 0 = false ↔ w.toNat % 2 = 0 := by
  rw [getLsbD_zero_eq, decide_eq_false_iff_not]
  omega

/-- Bit 0 of a sum with an even word. -/
theorem getLsbD_zero_add (c : Word) {d : Word} (hd : d.getLsbD 0 = false) : (c + d).getLsbD 0 = c.getLsbD 0 := by
  rw [getLsbD_zero_eq_false_iff] at hd
  rw [getLsbD_zero_eq, getLsbD_zero_eq, BitVec.toNat_add]
  congr 2
  omega

theorem getLsbD_zero_neg {d : Word} (hd : d.getLsbD 0 = false) : (-d).getLsbD 0 = false := by
  rw [getLsbD_zero_eq_false_iff] at hd ⊢
  rw [BitVec.toNat_neg]
  omega

theorem getLsbD_zero_and_lowMask (c : Word) : (c &&& lowMask).getLsbD 0 = c.getLsbD 0 := by
  rw [BitVec.getLsbD_and, show lowMask.getLsbD 0 = true by decide, Bool.and_true]

/-! ### Writes -/

/-- Bit 0 of chunk 0 (R38). -/
def Small.bottomBit (a : Small) : Bool := (a.get 0).getLsbD 0

section
variable (a : Small) {i : Nat} {v d : Word}

/-- A write keeps the bit if it writes another chunk, or a word with the bit that chunk 0 had. -/
theorem Small.bottomBit_set (h : i = 0 → v.getLsbD 0 = a.bottomBit) : (a.set i v).bottomBit = a.bottomBit := by
  rw [Small.bottomBit, Small.get_set]
  split
  · rename_i hi
    exact h hi.1
  · rfl

theorem Small.bottomBit_addAt (h : i = 0 → d.getLsbD 0 = false) : (a.addAt i d).bottomBit = a.bottomBit := by
  refine a.bottomBit_set fun hi => ?_
  rw [getLsbD_zero_add _ (h hi), hi, Small.bottomBit]

theorem Small.bottomBit_accumulate (neg : Bool) (h : i = 0 → d.getLsbD 0 = false) :
    (a.accumulate neg i d).bottomBit = a.bottomBit := by
  cases neg
  · exact a.bottomBit_addAt h
  · refine a.bottomBit_set fun hi => ?_
    rw [BitVec.sub_eq_add_neg, getLsbD_zero_add _ (getLsbD_zero_neg (h hi)), hi, Small.bottomBit]

@[simp] theorem addInfNaN_bottomBit (v : Word) : (addInfNaN a v).bottomBit = a.bottomBit := by
  simp [Small.bottomBit]

end

/-! ### Carry propagation -/

/-- A chunk that keeps its low half keeps the bit. -/
theorem Small.bottomBit_set_lowMask (a : Small) (i : Nat) :
    (a.set i (a.get i &&& lowMask)).bottomBit = a.bottomBit := by
  refine a.bottomBit_set fun hi => ?_
  rw [hi, getLsbD_zero_and_lowMask, Small.bottomBit]

theorem carryLoop_bottomBit (turns : Nat) (a : Small) (i u : Nat) (w : Option Nat) :
    (carryLoop turns a i u w).1.bottomBit = a.bottomBit := by
  induction turns generalizing a i u w with
  | zero => rfl
  | succ turns ih =>
    unfold carryLoop
    dsimp only
    split
    · rfl
    split
    · exact ih ..
    split
    · exact ih ..
    split
    · rfl
    split
    · rw [ih, chunkOverflow, addInfNaN_bottomBit, Small.bottomBit_set_lowMask]
    · rw [ih, Small.bottomBit_addAt _ (fun h => absurd h i.succ_ne_zero), Small.bottomBit_set_lowMask]

theorem absorbTop_bottomBit (a : Small) (n : Nat) : (absorbTop a n).1.bottomBit = a.bottomBit := by
  induction n generalizing a with
  | zero => rfl
  | succ n ih =>
    unfold absorbTop
    split
    · rw [ih, Small.bottomBit_set _ (fun h => absurd h n.succ_ne_zero), Small.bottomBit_addAt _ (fun _ => by decide)]
    · rfl

/-- Carry propagation leaves the parity of chunk 0 (R156). -/
theorem carryPropagate_bottomBit (a : Small) : (carryPropagate a).1.bottomBit = a.bottomBit := by
  unfold carryPropagate
  split
  case h_1 => rfl
  case h_2 u _ =>
    have hloop := carryLoop_bottomBit 68 a 0 u none
    split
    case h_1 b hb =>
      rw [hb] at hloop
      exact hloop
    case h_2 b uix hb =>
      rw [hb] at hloop
      exact (absorbTop_bottomBit b uix).trans hloop

theorem ensureRoom_bottomBit (a : Small) : (ensureRoom a).bottomBit = a.bottomBit := by
  unfold ensureRoom
  split
  · exact carryPropagate_bottomBit a
  · rfl

theorem roundSmall_bottomBit (a : Small) : (roundSmall a).1.bottomBit = a.bottomBit := by
  obtain h | h := roundSmall_fst a <;> rw [h]
  exact carryPropagate_bottomBit a

/-! ### Adding -/

/-- The low part of a mantissa is even where it is added to chunk 0: the exponent of a finite pattern is at least 1, so
the part is shifted (R38, R120, R150). -/
theorem lowPart_even (m : Nat) {e : Nat} (he : 1 ≤ e) (h : e / 32 = 0) : (lowPart m e).getLsbD 0 = false := by
  obtain ⟨k, hk⟩ : ∃ k, e % 32 = k + 1 := ⟨e % 32 - 1, by omega⟩
  rw [getLsbD_zero_eq_false_iff, lowPart_toNat, hk, pow_succ, ← mul_assoc]
  omega

theorem Small.bottomBit_addParts (a : Small) (neg : Bool) (m : Nat) {e : Nat} (he : 1 ≤ e) :
    (a.addParts neg m e).bottomBit = a.bottomBit := by
  rw [Small.addParts, Small.bottomBit_accumulate _ _ (fun h => absurd h (Nat.succ_ne_zero _)),
    Small.bottomBit_accumulate _ _ (lowPart_even m he)]

theorem one_le_effExp (u : Word) : 1 ≤ effExp u := by
  unfold effExp
  split <;> omega

theorem addNoCarry_bottomBit (a : Small) (u : Word) : (addNoCarry a u).bottomBit = a.bottomBit := by
  cases hu : isFinite u with
  | true => rw [addNoCarry_of_isFinite a hu, Small.bottomBit_addParts _ _ _ (one_le_effExp u)]
  | false => rw [addNoCarry_of_not_isFinite a hu, addInfNaN_bottomBit]

theorem smallAddOne_bottomBit (a : Small) (u : Word) : (smallAddOne a u).bottomBit = a.bottomBit :=
  (addNoCarry_bottomBit _ u).trans (ensureRoom_bottomBit a)

theorem smallAddAll_bottomBit (a : Small) (us : List Word) : (smallAddAll a us).bottomBit = a.bottomBit := by
  induction us generalizing a with
  | nil => rfl
  | cons u us ih => rw [smallAddAll_cons, ih, smallAddOne_bottomBit]

/-- A merge with an even image (R166). -/
theorem smallAddOther_bottomBit (a : Small) {x : Image} (hx : x.chunk[0].getLsbD 0 = false) :
    (smallAddOther a (imageRecv x)).bottomBit = a.bottomBit := by
  rw [Small.bottomBit, smallAddOther_get _ _ (by decide), imageRecv_get x (by decide), getLsbD_zero_add _ hx]
  exact ensureRoom_bottomBit a

/-! ### The large accumulator -/

/-- The low part of a bin's sum is even where it is added to chunk 0: it is shifted by at least 1 (R38, R238). -/
theorem condenseLow_even {ix : BinIndex} (b : Bin) (h : binHigh ix = 0) : (condenseLow ix b).getLsbD 0 = false := by
  have hlow : 0 < binLow ix := by
    unfold binHigh highExp at h
    unfold binLow lowExp
    split at h <;> rename_i h0
    · simp [h0]
    · rw [if_neg h0]
      omega
  simp [condenseLow, hlow]

theorem transferBin_bottomBit (a : Small) (ix : BinIndex) (b : Bin) : (transferBin a ix b).bottomBit = a.bottomBit := by
  have hdone : (transferBin a ix b).bottomBit = ((((ensureRoom a).accumulate (binNeg ix) (binHigh ix)
      (condenseLow ix b)).accumulate (binNeg ix) (binHigh ix + 1) (condenseMid ix b)).accumulate (binNeg ix)
      (binHigh ix + 2) (condenseHigh ix b)).bottomBit := rfl
  rw [hdone, Small.bottomBit_accumulate _ _ (fun h => absurd h (Nat.succ_ne_zero _)),
    Small.bottomBit_accumulate _ _ (fun h => absurd h (Nat.succ_ne_zero _)),
    Small.bottomBit_accumulate _ _ (condenseLow_even b), ensureRoom_bottomBit]

theorem condense_bottomBit (l : Large) (ix : BinIndex) : (condense l ix).sacc.bottomBit = l.sacc.bottomBit := by
  rw [condense_sacc]
  split
  · exact transferBin_bottomBit _ _ _
  · rfl

theorem largeAddOne_bottomBit (l : Large) (u : Word) : (largeAddOne l u).sacc.bottomBit = l.sacc.bottomBit := by
  obtain ⟨-, h⟩ | ⟨-, -, h⟩ | ⟨-, -, h⟩ := largeAddOne_cases l u <;> rw [h]
  · rfl
  · exact addInfNaN_bottomBit _ _
  · exact condense_bottomBit l _

theorem largeAddAll_bottomBit (l : Large) (us : List Word) : (largeAddAll l us).sacc.bottomBit = l.sacc.bottomBit := by
  induction us generalizing l with
  | nil => rfl
  | cons u us ih => rw [largeAddAll_cons, ih, largeAddOne_bottomBit]

theorem transferAll_bottomBit (l : Large) : (transferAll l).sacc.bottomBit = l.sacc.bottomBit :=
  transferAll_induction (P := fun m => m.sacc.bottomBit = l.sacc.bottomBit)
    (fun m ix h _ => (condense_bottomBit m ix).trans h) rfl

/-! ### Every command -/

theorem imageRecv_evenBottom {x : Image} (hx : x.chunk[0].getLsbD 0 = false) : (imageRecv x).EvenBottom := by
  rwa [Small.EvenBottom, imageRecv_get x (by decide)]

/-- Every command with an even image keeps chunk 0 of both small accumulators even (R38). -/
theorem exec_evenBottom {i : Instr} {s t : State} (hi : i.EvenImage) (h : exec i s = .next t)
    (hs : s.small.EvenBottom) (hl : s.large.sacc.EvenBottom) : t.small.EvenBottom ∧ t.large.sacc.EvenBottom := by
  have keep {a b : Small} (hb : b.bottomBit = a.bottomBit) (ha : a.EvenBottom) : b.EvenBottom := hb.trans ha
  cases i with
  | sLoad x =>
    cases hx : addsInRange x.adds with
    | true =>
      rw [exec_sLoad_of_range x s hx] at h
      cases h
      exact ⟨imageRecv_evenBottom hi, hl⟩
    | false =>
      rw [exec_sLoad_of_bad x s hx] at h
      cases h
      exact ⟨hs, hl⟩
  | sInit => cases h; exact ⟨by simp [Small.EvenBottom], hl⟩
  | lInit => cases h; exact ⟨hs, by simp [Small.EvenBottom]⟩
  | sAdd1 x => cases h; exact ⟨keep (smallAddOne_bottomBit _ _) hs, hl⟩
  | sAddv | sSqnorm | sDot => cases h; exact ⟨keep (smallAddAll_bottomBit _ _) hs, hl⟩
  | sAddacc x => cases h; exact ⟨keep (smallAddOther_bottomBit _ hi) hs, hl⟩
  | sRound => cases h; exact ⟨keep (roundSmall_bottomBit _) hs, hl⟩
  | sPropagate => cases h; exact ⟨keep (carryPropagate_bottomBit _) hs, hl⟩
  | sChunks | sStore | lChunks => cases h; exact ⟨hs, hl⟩
  | lAdd1 x => cases h; exact ⟨hs, keep (largeAddOne_bottomBit _ _) hl⟩
  | lAddv | lSqnorm | lDot => cases h; exact ⟨hs, keep (largeAddAll_bottomBit _ _) hl⟩
  | lAddsmall x => cases h; exact ⟨hs, keep (smallAddOther_bottomBit _ hi) hl⟩
  | lRound => cases h; exact ⟨hs, keep ((roundSmall_bottomBit _).trans (transferAll_bottomBit _)) hl⟩
  | lRoundToSmall => cases h; exact ⟨hs, keep (transferAll_bottomBit _) hl⟩

end Sys2Proof.Machine

namespace Sys2Proof

open Machine

/-- Settles O16: no command changes the parity of chunk 0 but by loading or merging an image. -/
theorem evenBottomChunkIsKept : Obligations.EvenBottomChunkIsKept := by
  unfold Obligations.EvenBottomChunkIsKept
  exact fun i s t hi h hs hl => exec_evenBottom hi h hs hl

end Sys2Proof
end

section
/-! SUPPORT. The invariant of the block (R34, R35, R40 to R43, R46, R234): what it says of one bin and of L.sacc, that
every operation of L keeps it, and the settlements of the statements about reset and about every step. -/

namespace Sys2Proof.Machine

/-! ### The counter and the NaN field -/

/-- What the invariant says of L.sacc: the counter in its range, the NaN field in its form (R34, R35). -/
structure SaccOk (a : Small) : Prop where
  addsRange : addsInRange a.adds = true
  nanForm : a.nan = 0#64 ∨ (signBit a.nan = false ∧ frac a.nan ≠ 0#52)

theorem addsInRange_addsAfterOne {n : BitVec 32} (h : addsInRange n = true) : addsInRange (addsAfterOne n) = true := by
  obtain ⟨hlow, hhigh⟩ := addsInRange_iff.mp h
  unfold addsAfterOne
  split
  · decide
  · rename_i hne
    have hone := toInt_adds_sub_one hlow hne
    have hne0 := adds_toInt_ne_zero hne
    rw [addsInRange_iff, hone]
    omega

section
variable {a : Small}

theorem SaccOk.roomy (h : SaccOk a) (hbound : a.Bounded) : a.Roomy := ⟨hbound, addsInRange_iff.mp h.addsRange⟩

theorem smallAddOne_addsInRange (h : addsInRange a.adds = true) (u : Word) :
    addsInRange (smallAddOne a u).adds = true := by
  rw [smallAddOne_adds, addsAfterOne_eq]
  exact addsInRange_addsAfterOne h

theorem smallAddAll_addsInRange (h : addsInRange a.adds = true) (us : List Word) :
    addsInRange (smallAddAll a us).adds = true := by
  induction us generalizing a with
  | nil => exact h
  | cons u us ih => exact ih (smallAddOne_addsInRange h u)

theorem smallAddOther_addsInRange (h : addsInRange a.adds = true) (x : Small) :
    addsInRange (smallAddOther a x).adds = true := by
  rw [smallAddOther_addsAfterOne]
  exact addsInRange_addsAfterOne h

theorem carryPropagate_addsInRange (a : Small) : addsInRange (carryPropagate a).1.adds = true := by
  rw [carryPropagate_adds]
  decide

theorem roundSmall_addsInRange (h : addsInRange a.adds = true) : addsInRange (roundSmall a).1.adds = true := by
  obtain hsame | hprop := roundSmall_fst a
  · rwa [hsame]
  · rw [hprop]
    exact carryPropagate_addsInRange a

/-- The overflow pattern has the form of the NaN field (R34, R159). -/
theorem nanForm_of_eq_or_overflow {x y : Word} (h : y = 0#64 ∨ (signBit y = false ∧ frac y ≠ 0#52))
    (hx : x = y ∨ x = overflowNaN) : x = 0#64 ∨ (signBit x = false ∧ frac x ≠ 0#52) := by
  obtain rfl | rfl := hx
  · exact h
  · exact .inr (by decide)

theorem SaccOk.addInfNaN (h : SaccOk a) (v : Word) : SaccOk (addInfNaN a v) := by
  obtain ⟨hadds, hnan⟩ := h
  refine ⟨by rwa [addInfNaN_adds], ?_⟩
  by_cases hv : v.toNat % 2 ^ 52 = 0
  · rwa [addInfNaN_eq_of_no_payload a hv]
  · rw [addInfNaN_eq_of_payload a hv]
    dsimp only
    split
    · right
      have hval := toNat_and_not_signMask v
      have hfrac := frac_toNat (v &&& ~~~signMask)
      refine ⟨?_, fun h0 => ?_⟩
      · rw [signBit_eq_decide, decide_eq_false_iff_not]
        omega
      · rw [h0, hval] at hfrac
        simp only [BitVec.toNat_ofNat] at hfrac
        omega
    · exact hnan

theorem SaccOk.mergeFlag (h : SaccOk a) (v : Word) : SaccOk (mergeFlag a v) := by
  unfold Machine.mergeFlag
  split
  · exact h.addInfNaN v
  · exact h

theorem SaccOk.ensureRoom (h : SaccOk a) : SaccOk (ensureRoom a) := by
  refine ⟨?_, nanForm_of_eq_or_overflow h.nanForm (ensureRoom_nan a)⟩
  rw [ensureRoom_adds]
  split
  · decide
  · exact h.addsRange

theorem SaccOk.smallAddOther (h : SaccOk a) (x : Small) : SaccOk (smallAddOther a x) :=
  ⟨smallAddOther_addsInRange h.addsRange x, ((h.ensureRoom.mergeFlag x.inf).mergeFlag x.nan).nanForm⟩

theorem SaccOk.roundSmall (h : SaccOk a) : SaccOk (roundSmall a).1 := by
  refine ⟨roundSmall_addsInRange h.addsRange, ?_⟩
  obtain hsame | hprop := roundSmall_fst a
  · rw [hsame]
    exact h.nanForm
  · rw [hprop]
    exact nanForm_of_eq_or_overflow h.nanForm (carryPropagate_frame a).2.2

theorem SaccOk.transferBin (h : SaccOk a) (ix : BinIndex) (b : Bin) : SaccOk (transferBin a ix b) := by
  obtain ⟨-, hnan, hadds⟩ := transferBin_frame a ix b
  refine ⟨?_, nanForm_of_eq_or_overflow h.nanForm hnan⟩
  rw [hadds, addsAfterOne_eq]
  exact addsInRange_addsAfterOne h.addsRange

theorem saccOk_reset : SaccOk Small.reset := ⟨by decide, .inl rfl⟩

end

/-! ### The fraction sum of a bin -/

/-- The fraction sum as a number: the exponent and sign parts taken out of the chunk, modulo 2^64 (R237). -/
theorem fractionSum_toNat (ix : BinIndex) (b : Bin) :
    (fractionSum ix b).toNat = (b.chunk.toNat + b.count.toNat * ix.toNat * 2 ^ 52) % 2 ^ 64 := by
  have hc : b.count.toNat < 2 ^ 16 := b.count.isLt
  have hi : ix.toNat < 2 ^ 12 := ix.isLt
  have hmul : b.count.toNat * ix.toNat < 2 ^ 16 * 2 ^ 12 := Nat.mul_lt_mul'' hc hi
  rw [fractionSum, BitVec.toNat_add, BitVec.toNat_shiftLeft, BitVec.toNat_mul, BitVec.toNat_setWidth,
    BitVec.toNat_setWidth, Nat.shiftLeft_eq]
  rw [Nat.mod_eq_of_lt (a := b.count.toNat) (by omega), Nat.mod_eq_of_lt (a := ix.toNat) (by omega),
    Nat.mod_eq_of_lt (a := b.count.toNat * ix.toNat) (by omega)]
  omega

/-- A pattern is its bin index and its fraction (R122). -/
theorem toNat_eq_binIndex_frac (u : Word) : u.toNat = (binIndex u).toNat * 2 ^ 52 + (frac u).toNat := by
  rw [binIndex_toNat, frac_toNat]
  omega

theorem Bin.take_count_toNat {b : Bin} (h : 1 ≤ b.count.toNat) (u : Word) :
    (b.take u).count.toNat = b.count.toNat - 1 := by
  have := b.count.isLt
  rw [Bin.take_count, BitVec.toNat_sub, BitVec.toNat_ofNat]
  omega

/-- A pattern taken by its bin adds its fraction to the fraction sum (R234, R237). -/
theorem fractionSum_take {b : Bin} (h : 1 ≤ b.count.toNat) (u : Word) :
    (fractionSum (binIndex u) (b.take u)).toNat =
      ((fractionSum (binIndex u) b).toNat + (frac u).toNat) % 2 ^ 64 := by
  obtain ⟨n, hn⟩ : ∃ n, b.count.toNat = n + 1 := ⟨b.count.toNat - 1, by omega⟩
  rw [fractionSum_toNat, fractionSum_toNat, Bin.take_count_toNat h, Bin.take_chunk, BitVec.toNat_add,
    toNat_eq_binIndex_frac u, hn, Nat.add_sub_cancel, Nat.add_mul, Nat.add_mul]
  omega

@[simp] theorem fractionSum_emptied (ix : BinIndex) : fractionSum ix Bin.emptied = 0#64 := by
  apply BitVec.eq_of_toNat_eq
  rw [fractionSum_toNat, Bin.emptied_chunk, Bin.emptied_count]
  simp only [BitVec.toNat_ofNat]
  omega

/-! ### One bin -/

/-- What the invariant says of the bin at an index (R40, R41, R43, R234). -/
structure BinOk (ix : BinIndex) (b : Bin) : Prop where
  countRange : -1 ≤ b.count.toInt ∧ b.count.toInt ≤ 4096
  idleChunk : b.live = false → b.chunk = 0#64
  specialIdle : binSpecial ix = true → b = Bin.unused
  fractions : b.live = true → ((fractionSum ix b).toNat : Int) ≤ (4096 - b.count.toInt) * (2 ^ 52 - 1)

section
variable {ix : BinIndex} {b : Bin} {u : Word}

theorem BinOk.take_count_toInt (h : BinOk ix b) (u : Word) : (b.take u).count.toInt = b.count.toInt - 1 := by
  obtain ⟨hlow, hhigh⟩ := h.countRange
  have hone : (1#16).toInt = 1 := by decide
  rw [Bin.take_count, BitVec.toInt_sub, hone, Int.bmod_eq_of_le (by omega) (by omega)]

/-- A bin has room for a value when and only when it has a positive count (R231). -/
theorem BinOk.live_take_iff (h : BinOk ix b) (u : Word) : (b.take u).live = true ↔ 0 < b.count.toInt := by
  rw [Bin.live_iff, h.take_count_toInt]
  omega

/-- A nonnegative count is the same number read without a sign. -/
theorem Bin.count_toNat (h : 0 ≤ b.count.toInt) : (b.count.toNat : Int) = b.count.toInt := by
  have hmsb : b.count.msb = false := by
    rw [BitVec.msb_eq_toInt]
    simpa using h
  rw [BitVec.toInt_eq_toNat_of_msb hmsb]

theorem Bin.live_eq_false_iff : b.live = false ↔ b.count.toInt < 0 := by
  rw [← Bool.not_eq_true, Bin.live_iff, not_le]

/-- In a bin with room the fraction sum takes one value more without a wrap (R234). -/
theorem BinOk.fractionSum_take (h : BinOk (binIndex u) b) (hcount : 0 < b.count.toInt) :
    (fractionSum (binIndex u) (b.take u)).toNat = (fractionSum (binIndex u) b).toNat + (frac u).toNat := by
  have hsum := h.fractions (Bin.live_iff.mpr hcount.le)
  have hnat := Bin.count_toNat hcount.le
  have hfrac := (frac u).isLt
  obtain ⟨-, hhigh⟩ := h.countRange
  rw [Machine.fractionSum_take (by omega) u, Nat.mod_eq_of_lt]
  omega

/-- A bin with room keeps its invariant when it takes a value. -/
theorem BinOk.take (h : BinOk (binIndex u) b) (hcount : 0 < b.count.toInt) : BinOk (binIndex u) (b.take u) := by
  have hone := h.take_count_toInt u
  have hlive : (b.take u).live = true := (h.live_take_iff u).mpr hcount
  obtain ⟨hlow, hhigh⟩ := h.countRange
  refine ⟨by omega, fun hidle => ?_, fun hspecial => ?_, fun _ => ?_⟩
  · rw [hlive] at hidle
    cases hidle
  · rw [h.specialIdle hspecial] at hcount
    exact absurd hcount (by decide)
  · have hsum := h.fractions (Bin.live_iff.mpr hcount.le)
    have hfrac := (frac u).isLt
    rw [h.fractionSum_take hcount, hone]
    push_cast
    omega

theorem binOk_emptied (h : binSpecial ix = false) : BinOk ix Bin.emptied where
  countRange := by decide
  idleChunk hidle := by cases hidle
  specialIdle hspecial := by rw [h] at hspecial; cases hspecial
  fractions _ := by
    rw [fractionSum_emptied]
    decide

theorem binOk_unused (ix : BinIndex) : BinOk ix Bin.unused where
  countRange := by decide
  idleChunk _ := rfl
  specialIdle _ := rfl
  fractions hlive := by cases hlive

/-- A live bin is not special (R43). -/
theorem BinOk.not_special (h : BinOk ix b) (hlive : b.live = true) : binSpecial ix = false := by
  by_contra hspecial
  rw [Bool.not_eq_false] at hspecial
  rw [h.specialIdle hspecial] at hlive
  cases hlive

end

/-! ### The invariant of L -/

/-- The bit-sets summarise one another: bit k of used_used is set where word k of used is not zero (R42). -/
def Large.Summary (l : Large) : Prop := ∀ k < 64, l.usedUsed.getLsbD k = (l.used[k]?.getD 0#64 != 0#64)

theorem Large.inv_iff {l : Large} : l.Inv ↔ binsWf l.bins = true ∧ (∀ ix, BinOk ix (l.bin ix)) ∧
    (∀ ix, l.usedBit ix = (l.bin ix).live) ∧ l.Summary ∧ SaccOk l.sacc := by
  constructor
  · intro h
    exact ⟨h.canonical, fun ix => ⟨h.countRange ix, h.idleChunk ix, h.specialIdle ix, h.fractions ix⟩, h.usedLive,
      h.summary, ⟨h.addsRange, h.nanForm⟩⟩
  · rintro ⟨hwf, hbins, hused, hsummary, hsacc⟩
    exact ⟨hwf, fun ix => (hbins ix).countRange, fun ix => (hbins ix).idleChunk, fun ix => (hbins ix).specialIdle, hused,
      hsummary, fun ix => (hbins ix).fractions, hsacc.addsRange, hsacc.nanForm⟩

section
variable {l : Large}

theorem Large.Inv.binOk (h : l.Inv) (ix : BinIndex) : BinOk ix (l.bin ix) := (Large.inv_iff.mp h).2.1 ix

theorem Large.Inv.saccOk (h : l.Inv) : SaccOk l.sacc := ⟨h.addsRange, h.nanForm⟩

/-- L.sacc may be replaced by any small accumulator of its form. -/
theorem Large.Inv.with_sacc (h : l.Inv) {a : Small} (ha : SaccOk a) : ({ l with sacc := a } : Large).Inv :=
  { h with addsRange := ha.addsRange, nanForm := ha.nanForm }

/-- Setting a used bit sets the bit of its word, which is then not zero (R243). -/
theorem Large.Summary.setUsed (h : l.Summary) (ix : BinIndex) : (l.setUsed ix).Summary := by
  intro k hk
  have hword := binIndex_word_lt ix
  have hmod : ix.toNat % 64 < 64 := Nat.mod_lt _ (by decide)
  unfold Large.setUsed
  simp only [Vector.getElem?_setIfInBounds, BitVec.getLsbD_or, BitVec.getLsbD_shiftLeft, hk, decide_true, Bool.true_and]
  by_cases hne : ix.toNat / 64 = k
  · have hbit : (l.used[k]?.getD 0#64 ||| 1#64 <<< (ix.toNat % 64)).getLsbD (ix.toNat % 64) = true := by
      simp [hmod]
    have hnonzero : (l.used[k]?.getD 0#64 ||| 1#64 <<< (ix.toNat % 64)) ≠ 0#64 := by
      intro h0
      rw [h0] at hbit
      simp at hbit
    rw [if_pos hne, if_pos hword, hne]
    simp [hnonzero]
  · have hbit : (decide (k < ix.toNat / 64) || !(1#64).getLsbD (k - ix.toNat / 64)) = true := by
      by_cases hlt : k < ix.toNat / 64
      · simp [hlt]
      · have : k - ix.toNat / 64 ≠ 0 := by omega
        simp [BitVec.getLsbD_one, this]
    rw [if_neg hne, h k hk]
    cases hb : decide (k < ix.toNat / 64) <;> simp_all

theorem condense_summary (h : l.Summary) (ix : BinIndex) : (condense l ix).Summary := by
  have hsame : (condense l ix).used = (l.setUsed ix).used ∧ (condense l ix).usedUsed = (l.setUsed ix).usedUsed := by
    unfold condense
    dsimp only
    split <;> exact ⟨rfl, rfl⟩
  intro k hk
  rw [hsame.1, hsame.2]
  exact h.setUsed ix k hk

/-- Condensing a bin that is not special keeps the invariant (R236, R243). -/
theorem Large.Inv.condense (h : l.Inv) {ix : BinIndex} (hix : binSpecial ix = false) : (condense l ix).Inv := by
  obtain ⟨hwf, hbins, hused, hsummary, hsacc⟩ := Large.inv_iff.mp h
  refine Large.inv_iff.mpr ⟨condense_wf hwf ix, fun jx => ?_, fun jx => ?_, condense_summary hsummary ix, ?_⟩
  · rw [condense_bin hwf]
    split
    · rename_i heq
      exact heq ▸ binOk_emptied hix
    · exact hbins jx
  · rw [condense_usedBit, condense_bin hwf]
    by_cases heq : ix = jx <;> simp [heq, hused jx]
  · rw [condense_sacc]
    split
    · exact hsacc.transferBin ix _
    · exact hsacc

/-- A bin with room that takes a value keeps the invariant (R231). -/
theorem Large.Inv.take (h : l.Inv) {u : Word} (hcount : 0 < (l.bin (binIndex u)).count.toInt) :
    (l.setBin (binIndex u) ((l.bin (binIndex u)).take u)).Inv := by
  obtain ⟨hwf, hbins, hused, hsummary, hsacc⟩ := Large.inv_iff.mp h
  refine Large.inv_iff.mpr ⟨binsWf_set hwf _ _, fun jx => ?_, fun jx => ?_, hsummary, hsacc⟩
  · rw [Large.bin_setBin hwf]
    split
    · rename_i heq
      exact heq ▸ (hbins _).take hcount
    · exact hbins jx
  · rw [Large.setBin_usedBit, Large.bin_setBin hwf, hused]
    split
    · rename_i heq
      rw [← heq, ((hbins _).live_take_iff u).mpr hcount, Bin.live_iff.mpr hcount.le]
    · rfl

/-- What adding a value to L does under the invariant: a special value goes to the handler; a bin with room takes the
value; and any other bin is condensed first (R231 to R233). -/
theorem Large.Inv.largeAddOne_cases (h : l.Inv) (u : Word) :
    (binSpecial (binIndex u) = true ∧ largeAddOne l u = { l with sacc := addInfNaN l.sacc u }) ∨
    (binSpecial (binIndex u) = false ∧ 0 < (l.bin (binIndex u)).count.toInt ∧
      largeAddOne l u = l.setBin (binIndex u) ((l.bin (binIndex u)).take u)) ∨
    (binSpecial (binIndex u) = false ∧ (l.bin (binIndex u)).count.toInt ≤ 0 ∧
      (Machine.condense l (binIndex u)).bin (binIndex u) = Bin.emptied ∧
      largeAddOne l u = (Machine.condense l (binIndex u)).setBin (binIndex u) (Bin.emptied.take u)) := by
  have hbin := h.binOk (binIndex u)
  have hemptied : (Machine.condense l (binIndex u)).bin (binIndex u) = Bin.emptied := by
    rw [condense_bin h.canonical, if_pos rfl]
  obtain ⟨hlive, heq⟩ | ⟨-, hspecial, heq⟩ | ⟨hlive, hspecial, heq⟩ := Machine.largeAddOne_cases l u
  · have hcount := (hbin.live_take_iff u).mp hlive
    exact .inr (.inl ⟨hbin.not_special (Bin.live_iff.mpr hcount.le), hcount, heq⟩)
  · exact .inl ⟨hspecial, heq⟩
  · have hcount : ¬ 0 < (l.bin (binIndex u)).count.toInt := fun hcount => by
      rw [(hbin.live_take_iff u).mpr hcount] at hlive
      cases hlive
    exact .inr (.inr ⟨hspecial, not_lt.mp hcount, hemptied, by rw [heq, hemptied]⟩)

theorem Large.Inv.largeAddOne (h : l.Inv) (u : Word) : (largeAddOne l u).Inv := by
  obtain ⟨-, heq⟩ | ⟨-, hcount, heq⟩ | ⟨hspecial, -, hemptied, heq⟩ := h.largeAddOne_cases u
  · rw [heq]
    exact h.with_sacc (h.saccOk.addInfNaN u)
  · rw [heq]
    exact h.take hcount
  · have hcount : 0 < ((Machine.condense l (binIndex u)).bin (binIndex u)).count.toInt := by
      rw [hemptied]
      decide
    have htake := (h.condense hspecial).take hcount
    rwa [hemptied, ← heq] at htake

theorem Large.Inv.largeAddAll (h : l.Inv) (us : List Word) : (largeAddAll l us).Inv := by
  induction us generalizing l with
  | nil => exact h
  | cons u us ih => exact ih (h.largeAddOne u)

/-- A used bin is live, so it is not special (R42, R43). -/
theorem Large.Inv.not_special_of_used (h : l.Inv) {ix : BinIndex} (hused : l.usedBit ix = true) :
    binSpecial ix = false := (h.binOk ix).not_special (h.usedLive ix ▸ hused)

theorem Large.Inv.transferAll (h : l.Inv) : (transferAll l).Inv :=
  transferAll_induction (fun _ _ hm hused => hm.condense (hm.not_special_of_used hused)) h

theorem large_reset_inv : Large.reset.Inv := by
  refine Large.inv_iff.mpr ⟨rfl, fun ix => ?_, fun ix => ?_, fun k hk => ?_, saccOk_reset⟩
  · rw [Large.reset_bin]
    exact binOk_unused ix
  · rw [Large.usedBit, Large.reset_used_getElem? (binIndex_word_lt ix), Large.reset_bin]
    simp
  · rw [Large.reset_usedUsed, Large.reset_used_getElem? hk]
    simp

end

/-! ### Every command -/

/-- What the invariant says of the two units (R35). -/
def State.UnitsOk (s : State) : Prop := addsInRange s.small.adds = true ∧ s.large.Inv

/-- Every command keeps the invariant of the units: a bad image is rejected, so that S is loaded with a counter in range
(R173). -/
theorem exec_unitsOk {i : Instr} {s t : State} (hs : s.UnitsOk) (h : exec i s = .next t) : t.UnitsOk := by
  obtain ⟨hsmall, hlarge⟩ := hs
  cases i with
  | sLoad x =>
    cases hx : addsInRange x.adds with
    | true => rw [exec_sLoad_of_range x s hx] at h; cases h; exact ⟨hx, hlarge⟩
    | false => rw [exec_sLoad_of_bad x s hx] at h; cases h; exact ⟨hsmall, hlarge⟩
  | sInit => cases h; exact ⟨saccOk_reset.addsRange, hlarge⟩
  | sAdd1 x => cases h; exact ⟨smallAddOne_addsInRange hsmall _, hlarge⟩
  | sAddv | sSqnorm | sDot => cases h; exact ⟨smallAddAll_addsInRange hsmall _, hlarge⟩
  | sAddacc x => cases h; exact ⟨smallAddOther_addsInRange hsmall _, hlarge⟩
  | sRound => cases h; exact ⟨roundSmall_addsInRange hsmall, hlarge⟩
  | sPropagate => cases h; exact ⟨carryPropagate_addsInRange _, hlarge⟩
  | sChunks | sStore | lChunks => cases h; exact ⟨hsmall, hlarge⟩
  | lInit => cases h; exact ⟨hsmall, large_reset_inv⟩
  | lAdd1 x => cases h; exact ⟨hsmall, hlarge.largeAddOne x⟩
  | lAddv | lSqnorm | lDot => cases h; exact ⟨hsmall, hlarge.largeAddAll _⟩
  | lAddsmall x => cases h; exact ⟨hsmall, hlarge.with_sacc (hlarge.saccOk.smallAddOther _)⟩
  | lRound => cases h; exact ⟨hsmall, hlarge.transferAll.with_sacc hlarge.transferAll.saccOk.roundSmall⟩
  | lRoundToSmall => cases h; exact ⟨hsmall, hlarge.transferAll⟩

/-- Every step keeps the invariant: a command or an illegal word leaves no pending word, and a held block the words that
are no whole command (R46, R96). -/
theorem step_inv {s t : State} (hs : s.Inv) (h : step s = .next t) : t.Inv := by
  obtain ⟨i, rest, -, hexec⟩ | ⟨w, rest, -, rfl⟩ | ⟨hfetch, rfl⟩ := step_cases h
  · obtain ⟨hsmall, hlarge⟩ := exec_unitsOk (s := s.consume rest) ⟨hs.addsRange, hs.large⟩ hexec
    obtain ⟨hpending, -⟩ := exec_streams hexec
    rw [State.consume_pending] at hpending
    exact ⟨hsmall, hlarge, by rw [hpending]; rfl⟩
  · exact ⟨hs.addsRange, hs.large, rfl⟩
  · exact ⟨hs.addsRange, hs.large, hfetch⟩

end Sys2Proof.Machine

namespace Sys2Proof

open Machine

/-- Settles O15: the three kinds of step, a command by the operations of its unit. -/
theorem stepKeepsTheInvariant : Obligations.StepKeepsTheInvariant := by
  unfold Obligations.StepKeepsTheInvariant
  exact fun s t hs h => step_inv hs h

/-- Settles O14: no bin is in use at reset, and both small accumulators have all their adds left. -/
theorem resetMeetsTheInvariant : Obligations.ResetMeetsTheInvariant := by
  unfold Obligations.ResetMeetsTheInvariant
  exact ⟨saccOk_reset.addsRange, large_reset_inv, rfl⟩

end Sys2Proof
end

section
/-! SUPPORT. Condensing a bin into L.sacc (R236 to R243): the sum of a bin in three parts, exactly added; the exact value of
L (R44); and the settlements of the statements about condense and L_ADD1. -/

namespace Sys2Proof.Machine

/-! ### Three parts of a magnitude -/

/-- The three chunk writes of R241. -/
def Small.addThree (a : Small) (neg : Bool) (h : Nat) (c d e : Word) : Small :=
  ((a.accumulate neg h c).accumulate neg (h + 1) d).accumulate neg (h + 2) e

theorem transferBin_eq_addThree (a : Small) (ix : BinIndex) (b : Bin) : transferBin a ix b =
    ((ensureRoom a).addThree (binNeg ix) (binHigh ix) (condenseLow ix b) (condenseMid ix b)
      (condenseHigh ix b)).countDown := rfl

section
variable {a : Small} {neg : Bool} {h : Nat} {c d e : Word}

/-- The chunks after the three writes. -/
theorem Small.addThree_get (a : Small) (neg : Bool) (hh : h + 2 < 67) (c d e : Word) :
    (a.addThree neg h c d e).get h = a.get h + signedWord neg c.toNat ∧
    (a.addThree neg h c d e).get (h + 1) = a.get (h + 1) + signedWord neg d.toNat ∧
    (a.addThree neg h c d e).get (h + 2) = a.get (h + 2) + signedWord neg e.toNat ∧
    ∀ j, j ≠ h → j ≠ h + 1 → j ≠ h + 2 → (a.addThree neg h c d e).get j = a.get j := by
  unfold Small.addThree
  refine ⟨?_, ?_, ?_, fun j h0 h1 h2 => ?_⟩
  · rw [Small.get_accumulate_other _ _ (by omega), Small.get_accumulate_other _ _ (by omega),
      Small.get_accumulate_same _ _ (by omega)]
  · rw [Small.get_accumulate_other _ _ (by omega), Small.get_accumulate_same _ _ (by omega),
      Small.get_accumulate_other _ _ (by omega)]
  · rw [Small.get_accumulate_same _ _ (by omega), Small.get_accumulate_other _ _ (by omega),
      Small.get_accumulate_other _ _ (by omega)]
  · rw [Small.get_accumulate_other _ _ h2.symm, Small.get_accumulate_other _ _ h1.symm,
      Small.get_accumulate_other _ _ h0.symm]

@[simp] theorem Small.addThree_zero (a : Small) (neg : Bool) (h : Nat) : a.addThree neg h 0#64 0#64 0#64 = a := by
  simp [Small.addThree]

/-- Three amounts below 2^52 have room at three chunks, and add exactly what they weigh (R151, R241). -/
theorem Small.RoomForOne.addThree (hroom : a.RoomForOne) (neg : Bool) (hh : h + 2 < 67) (hc : c.toNat < 2 ^ 52)
    (hd : d.toNat < 2 ^ 52) (he : e.toNat < 2 ^ 52) : a.MovedLess (a.addThree neg h c d e) ∧
      (a.addThree neg h c d e).value =
        a.value + signOf neg * (c.toNat + 2 ^ 32 * d.toNat + 2 ^ 64 * e.toNat : Nat) * 2 ^ (32 * h) := by
  have h0 : a.RoomAt h c := hroom.roomAt hc (by omega)
  have h1 : (a.accumulate neg h c).RoomAt (h + 1) d := by
    rw [Small.RoomAt, Small.get_accumulate_other _ _ (by omega)]
    exact hroom.roomAt hd (by omega)
  have h2 : ((a.accumulate neg h c).accumulate neg (h + 1) d).RoomAt (h + 2) e := by
    rw [Small.RoomAt, Small.get_accumulate_other _ _ (by omega), Small.get_accumulate_other _ _ (by omega)]
    exact hroom.roomAt he (by omega)
  obtain ⟨hget0, hget1, hget2, hother⟩ := a.addThree_get neg hh c d e
  refine ⟨hroom.movedLess (neg := neg) fun j _ => ?_, ?_⟩
  · by_cases hj0 : j = h
    · exact ⟨_, hc, hj0 ▸ hget0⟩
    by_cases hj1 : j = h + 1
    · exact ⟨_, hd, hj1 ▸ hget1⟩
    by_cases hj2 : j = h + 2
    · exact ⟨_, he, hj2 ▸ hget2⟩
    · exact ⟨0, by decide, by rw [hother j hj0 hj1 hj2, signedWord_zero, BitVec.add_zero]⟩
  · rw [Small.addThree, h2.value_accumulate neg hh, h1.value_accumulate neg (by omega),
      h0.value_accumulate neg (by omega), two_pow_mul_succ (h + 1), two_pow_mul_succ h]
    push_cast
    ring

end

/-! ### The sum of a bin -/

/-- The sum of a bin's magnitudes at the weight of its lowest chunk: the fraction sum and the implicit ones, shifted by the
exponent within the chunk (R237 to R240). -/
def binSum (ix : BinIndex) (b : Bin) : Nat :=
  ((fractionSum ix b).toNat + (if binExp ix = 0 then 0 else (4096 - b.count.toNat) * 2 ^ 52)) * 2 ^ binLow ix

section
variable {ix : BinIndex} {b : Bin}

theorem binLow_lt (ix : BinIndex) : binLow ix < 32 := by
  unfold binLow lowExp
  split <;> omega

theorem binHigh_lt (ix : BinIndex) : binHigh ix + 2 < 67 := by
  unfold binHigh highExp binExp
  split <;> omega

/-- Bits 31 to 0 of the sum: the implicit ones are above them (R239). -/
theorem condenseLow_toNat (ix : BinIndex) (b : Bin) : (condenseLow ix b).toNat = binSum ix b % 2 ^ 32 := by
  have hmask (w : Word) : (w &&& lowMask).toNat = w.toNat % 2 ^ 32 := Nat.and_two_pow_sub_one_eq_mod w.toNat 32
  have hones : (if binExp ix = 0 then 0 else (4096 - b.count.toNat) * 2 ^ 52) * 2 ^ binLow ix =
      2 ^ 32 * ((if binExp ix = 0 then 0 else (4096 - b.count.toNat) * 2 ^ 20) * 2 ^ binLow ix) := by
    split <;> ring
  rw [condenseLow, hmask, BitVec.toNat_shiftLeft, Nat.shiftLeft_eq, binSum, add_mul, hones, Nat.add_mul_mod_self_left]
  omega

/-- Bits 95 to 32 of the sum, which a word holds (R239, R240). -/
theorem BinOk.condenseWide_toNat (h : BinOk ix b) (hlive : b.live = true) :
    (condenseWide ix b).toNat = binSum ix b / 2 ^ 32 := by
  have hcount := Bin.live_iff.mp hlive
  have hnat := Bin.count_toNat hcount
  obtain ⟨-, hhigh⟩ := h.countRange
  have hlow := binLow_lt ix
  have hfs := (fractionSum ix b).isLt
  have hshift : (fractionSum ix b >>> (32 - binLow ix)).toNat = (fractionSum ix b).toNat * 2 ^ binLow ix / 2 ^ 32 := by
    rw [BitVec.toNat_ushiftRight, Nat.shiftRight_eq_div_pow, div_two_pow_sub _ hlow.le]
  have hpow : 2 ^ binLow ix ≤ 2 ^ 31 := Nat.pow_le_pow_right (by decide) (by omega)
  unfold condenseWide binSum
  dsimp only
  by_cases h0 : binExp ix = 0
  · simp [h0, hshift]
  · have hheld : (4096 - b.count.toNat) * 2 ^ 20 * 2 ^ binLow ix ≤ 2 ^ 63 :=
      calc (4096 - b.count.toNat) * 2 ^ 20 * 2 ^ binLow ix ≤ 2 ^ 32 * 2 ^ 31 := Nat.mul_le_mul (by omega) hpow
        _ = 2 ^ 63 := by decide
    have hones : ((4096#64 - b.count.setWidth 64) <<< (20 + binLow ix)).toNat =
        (4096 - b.count.toNat) * 2 ^ 20 * 2 ^ binLow ix := by
      have hsub : (4096#64 - b.count.setWidth 64).toNat = 4096 - b.count.toNat := by
        rw [BitVec.toNat_sub, BitVec.toNat_setWidth, BitVec.toNat_ofNat]
        omega
      rw [BitVec.toNat_shiftLeft, hsub, Nat.shiftLeft_eq, pow_add, ← mul_assoc, Nat.mod_eq_of_lt (by omega)]
    have hfrac : (fractionSum ix b).toNat * 2 ^ binLow ix / 2 ^ 32 < 2 ^ 63 := by
      rw [Nat.div_lt_iff_lt_mul (by decide)]
      calc (fractionSum ix b).toNat * 2 ^ binLow ix ≤ (fractionSum ix b).toNat * 2 ^ 31 := Nat.mul_le_mul_left _ hpow
        _ < 2 ^ 63 * 2 ^ 32 := by omega
    have hsplit : ((fractionSum ix b).toNat + (4096 - b.count.toNat) * 2 ^ 52) * 2 ^ binLow ix =
        (fractionSum ix b).toNat * 2 ^ binLow ix + 2 ^ 32 * ((4096 - b.count.toNat) * 2 ^ 20 * 2 ^ binLow ix) := by
      ring
    rw [if_pos h0, if_neg h0, hsplit, Nat.add_mul_div_left _ _ (by decide), BitVec.toNat_add, hshift, hones,
      Nat.mod_eq_of_lt (by omega)]

theorem BinOk.condenseMid_toNat (h : BinOk ix b) (hlive : b.live = true) :
    (condenseMid ix b).toNat = binSum ix b / 2 ^ 32 % 2 ^ 32 := by
  rw [← h.condenseWide_toNat hlive]
  exact Nat.and_two_pow_sub_one_eq_mod _ 32

theorem BinOk.condenseHigh_toNat (h : BinOk ix b) (hlive : b.live = true) :
    (condenseHigh ix b).toNat = binSum ix b / 2 ^ 64 := by
  rw [condenseHigh, BitVec.toNat_ushiftRight, Nat.shiftRight_eq_div_pow, h.condenseWide_toNat hlive,
    Nat.div_div_eq_div_mul, ← pow_add]

/-- The sum at its weight is the exact sum of the magnitudes (R237, R240). -/
theorem binMagnitude_eq (hcount : 0 ≤ b.count.toInt) (hhigh : b.count.toInt ≤ 4096) :
    binMagnitude ix b = binSum ix b * 2 ^ (32 * binHigh ix) := by
  have hnat := Bin.count_toNat hcount
  have hheld : ((4096 - b.count.toNat : Nat) : Int) = 4096 - b.count.toInt := by omega
  unfold binMagnitude binSum binLow binHigh lowExp highExp
  by_cases h0 : binExp ix = 0
  · simp only [if_pos h0]
    push_cast
    ring
  · have hexp : (2 : Int) ^ binExp ix = 2 ^ (binExp ix % 32) * 2 ^ (32 * (binExp ix / 32)) := by
      rw [← pow_add]
      congr 1
      omega
    simp only [if_neg h0]
    rw [hexp]
    push_cast [hheld]
    ring

/-- The exact value of a live bin is its signed sum (R241). -/
theorem BinOk.binValue_eq (h : BinOk ix b) (hlive : b.live = true) :
    binValue ix b = signOf (binNeg ix) * binSum ix b * 2 ^ (32 * binHigh ix) := by
  have hmag := binMagnitude_eq (ix := ix) (Bin.live_iff.mp hlive) h.countRange.2
  rw [binValue, if_pos hlive, hmag]
  cases binNeg ix <;> simp [signOf]

theorem binValue_of_idle (h : b.live = false) : binValue ix b = 0 := by
  simp [binValue, h]

@[simp] theorem binSum_emptied (ix : BinIndex) : binSum ix Bin.emptied = 0 := by
  simp [binSum]

theorem binValue_emptied (ix : BinIndex) (h : binSpecial ix = false) : binValue ix Bin.emptied = 0 := by
  rw [(binOk_emptied h).binValue_eq Bin.emptied_live, binSum_emptied]
  simp

/-! ### The transfer into L.sacc -/

/-- A transfer with room moves exactly the value of the bin (R241, R242). -/
theorem Small.RoomForOne.addThree_bin {a : Small} (hroom : a.RoomForOne) (h : BinOk ix b) (hlive : b.live = true) :
    a.MovedLess (a.addThree (binNeg ix) (binHigh ix) (condenseLow ix b) (condenseMid ix b) (condenseHigh ix b)) ∧
    (a.addThree (binNeg ix) (binHigh ix) (condenseLow ix b) (condenseMid ix b) (condenseHigh ix b)).value =
      a.value + binValue ix b := by
  have hlow := condenseLow_toNat ix b
  have hmid := h.condenseMid_toNat hlive
  have hhigh := h.condenseHigh_toNat hlive
  have hwide := (condenseWide ix b).isLt
  rw [h.condenseWide_toNat hlive] at hwide
  have hparts : (condenseLow ix b).toNat + 2 ^ 32 * (condenseMid ix b).toNat + 2 ^ 64 * (condenseHigh ix b).toNat =
      binSum ix b := by omega
  obtain ⟨hmoved, hvalue⟩ := hroom.addThree (c := condenseLow ix b) (d := condenseMid ix b) (e := condenseHigh ix b)
    (binNeg ix) (binHigh_lt ix) (by omega) (by omega) (by omega)
  exact ⟨hmoved, by rw [hvalue, hparts, h.binValue_eq hlive]⟩

theorem Small.addThree_nan (a : Small) (neg : Bool) (h : Nat) (c d e : Word) : (a.addThree neg h c d e).nan = a.nan := by
  simp [Small.addThree]

theorem Small.addThree_adds (a : Small) (neg : Bool) (h : Nat) (c d e : Word) :
    (a.addThree neg h c d e).adds = a.adds := by
  simp [Small.addThree]

/-- A transfer keeps the room for the adds left, and adds exactly the value of the bin unless a propagation overflows
(R242, R255). -/
theorem Small.Roomy.transferBin {a : Small} (ha : a.Roomy) (h : BinOk ix b) (hlive : b.live = true) :
    (transferBin a ix b).Roomy ∧
      ((transferBin a ix b).nan = 0#64 → (transferBin a ix b).value = a.value + binValue ix b) := by
  obtain ⟨hmoved, hvalue⟩ := ha.ensureRoom.addThree_bin h hlive
  rw [transferBin_eq_addThree]
  refine ⟨ha.ensureRoom.countDown hmoved (Small.addThree_adds ..), fun hnan => ?_⟩
  rw [Small.countDown_nan, Small.addThree_nan] at hnan
  rw [Small.countDown_value, hvalue, ha.ensureRoom_kept hnan]

end

/-! ### The exact value of L -/

/-- The exact sum of the values in the bins (R44). -/
def Large.binsValue (l : Large) : Int := ∑ ix : BinIndex, binValue ix (l.bin ix)

/-- val(L) as a sum over the indices (R44). -/
theorem Large.value_eq (l : Large) : l.value = l.sacc.value + l.binsValue := by
  have hlist (n : Nat) (f : Nat → Int) : ((List.range n).map f).sum = ∑ i ∈ Finset.range n, f i := rfl
  rw [Large.value, hlist, Large.binsValue]
  refine congrArg (l.sacc.value + ·) ?_
  refine Finset.sum_nbij' (BitVec.ofNat 12) BitVec.toNat (by simp) ?number ?inverse (by simp) (by simp)
  case number =>
    intro ix _
    exact Finset.mem_range.mpr ix.isLt
  case inverse =>
    intro n hn
    have hlt : n < 4096 := Finset.mem_range.mp hn
    simpa using Nat.mod_eq_of_lt hlt

/-- A change of one bin changes the sum by the change of its value. -/
theorem Large.binsValue_of_one {l m : Large} (ix : BinIndex) (h : ∀ jx, ix ≠ jx → m.bin jx = l.bin jx) :
    m.binsValue = l.binsValue + (binValue ix (m.bin ix) - binValue ix (l.bin ix)) := by
  have hix : ix ∈ (Finset.univ : Finset BinIndex) := Finset.mem_univ ix
  have hrest : ∑ jx ∈ Finset.univ.erase ix, binValue jx (m.bin jx) =
      ∑ jx ∈ Finset.univ.erase ix, binValue jx (l.bin jx) :=
    Finset.sum_congr rfl fun jx hjx => by rw [h jx (Finset.ne_of_mem_erase hjx).symm]
  rw [Large.binsValue, Large.binsValue, ← Finset.add_sum_erase _ _ hix, ← Finset.add_sum_erase _ _ hix, hrest]
  ring

section
variable {l : Large} {ix : BinIndex} {u : Word}

theorem Large.Inv.roomy (h : l.Inv) (hbound : l.sacc.Bounded) : l.sacc.Roomy := h.saccOk.roomy hbound

/-- Condense keeps the room of L.sacc, and val(L) unless a propagation overflows (R242, R255). -/
theorem Large.Inv.condense_value (h : l.Inv) (hroomy : l.sacc.Roomy) (hix : binSpecial ix = false) :
    (Machine.condense l ix).sacc.Roomy ∧
      ((Machine.condense l ix).sacc.nan = 0#64 → (Machine.condense l ix).value = l.value) := by
  have hbins := Large.binsValue_of_one (l := l) (m := Machine.condense l ix) ix fun jx hjx => by
    rw [condense_bin h.canonical, if_neg hjx]
  rw [condense_bin h.canonical, if_pos rfl, binValue_emptied ix hix] at hbins
  rw [Large.value_eq, Large.value_eq, hbins, condense_sacc]
  cases hlive : (l.bin ix).live with
  | true =>
    obtain ⟨hkept, hvalue⟩ := hroomy.transferBin (h.binOk ix) hlive
    rw [if_pos rfl]
    exact ⟨hkept, fun hnan => by rw [hvalue hnan]; ring⟩
  | false =>
    rw [if_neg (by decide), binValue_of_idle hlive]
    exact ⟨hroomy, fun _ => by ring⟩

/-- The value of a bin with room grows by exactly the pattern it takes (R231, R234, R240). -/
theorem BinOk.binValue_take {b : Bin} (h : BinOk (binIndex u) b) (hcount : 0 < b.count.toInt) (hu : isFinite u = true) :
    binValue (binIndex u) (b.take u) = binValue (binIndex u) b + unitsOf u := by
  have hone := h.take_count_toInt u
  have hlive : b.live = true := Bin.live_iff.mpr hcount.le
  have hmag : binMagnitude (binIndex u) (b.take u) = binMagnitude (binIndex u) b + finiteMagnitude u := by
    rw [finiteMagnitude_eq hu]
    unfold binMagnitude effMant effExp
    rw [h.fractionSum_take hcount, hone, binExp_binIndex]
    split <;> push_cast <;> ring
  rw [binValue, binValue, if_pos hlive, if_pos ((h.live_take_iff u).mpr hcount), hmag, binNeg_binIndex, unitsOf]
  split <;> ring

/-- A bin with room that takes a finite pattern changes val(L) by exactly it (R231). -/
theorem Large.Inv.take_value (h : l.Inv) (hcount : 0 < (l.bin (binIndex u)).count.toInt) (hu : isFinite u = true) :
    (l.setBin (binIndex u) ((l.bin (binIndex u)).take u)).value = l.value + unitsOf u := by
  have hbins := Large.binsValue_of_one (l := l) (m := l.setBin (binIndex u) ((l.bin (binIndex u)).take u)) (binIndex u)
    fun jx hjx => Large.bin_setBin_other l hjx _
  rw [Large.bin_setBin h.canonical, if_pos rfl, (h.binOk _).binValue_take hcount hu] at hbins
  rw [Large.value_eq, Large.value_eq, hbins, Large.setBin_sacc]
  ring

/-- The bin of a finite pattern is not special (R43, R122). -/
theorem binSpecial_binIndex (u : Word) : binSpecial (binIndex u) = !isFinite u := by
  rw [binSpecial, binExp_binIndex, isFinite, bne, Bool.not_not]
  rw [Bool.eq_iff_iff, beq_iff_eq, beq_iff_eq, ← BitVec.toNat_inj]
  rfl

/-- Adding a finite pattern to L keeps the room of L.sacc and changes val(L) by exactly the pattern, unless a propagation
overflows (R234, R255). -/
theorem Large.Inv.largeAddOne_value (h : l.Inv) (hroomy : l.sacc.Roomy) (hu : isFinite u = true) :
    (Machine.largeAddOne l u).sacc.Roomy ∧
      ((Machine.largeAddOne l u).sacc.nan = 0#64 → (Machine.largeAddOne l u).value = l.value + unitsOf u) := by
  obtain ⟨hspecial, -⟩ | ⟨-, hcount, heq⟩ | ⟨hspecial, -, hemptied, heq⟩ := h.largeAddOne_cases u
  · rw [binSpecial_binIndex, hu] at hspecial
    cases hspecial
  · rw [heq]
    exact ⟨hroomy, fun _ => h.take_value hcount hu⟩
  · obtain ⟨hkept, hvalue⟩ := h.condense_value hroomy hspecial
    have hcount : 0 < ((Machine.condense l (binIndex u)).bin (binIndex u)).count.toInt := by
      rw [hemptied]
      decide
    have htake := (h.condense hspecial).take_value hcount hu
    rw [hemptied, ← heq] at htake
    have hsacc : (Machine.largeAddOne l u).sacc = (Machine.condense l (binIndex u)).sacc := by rw [heq]; rfl
    rw [htake, hsacc]
    exact ⟨hkept, fun hnan => by rw [hvalue hnan]⟩

end

/-! ### The commands -/

section
variable {s t : State}

theorem large_of_exec_lAdd1 {x : Word} (h : exec (.lAdd1 x) s = .next t) : t.large = largeAddOne s.large x := by
  cases h
  rfl

theorem large_of_exec_lAddsmall {x : Image} (h : exec (.lAddsmall x) s = .next t) :
    t.large = { s.large with sacc := smallAddOther s.large.sacc (imageRecv x) } := by
  cases h
  rfl

theorem small_of_exec_sAddacc {x : Image} (h : exec (.sAddacc x) s = .next t) :
    t.small = smallAddOther s.small (imageRecv x) := by
  cases h
  rfl

end

end Sys2Proof.Machine

namespace Sys2Proof

open Machine

/-- Settles O45: with adds left the opening check does nothing, and the three words written are the parts of the sum. -/
theorem condenseAddsThreeChunks : Obligations.CondenseAddsThreeChunks := by
  unfold Obligations.CondenseAddsThreeChunks
  intro l ix hinv hix hlive hadds
  have hbin := hinv.binOk ix
  have hsacc : (condense l ix).sacc = (l.sacc.addThree (binNeg ix) (binHigh ix) (condenseLow ix (l.bin ix))
      (condenseMid ix (l.bin ix)) (condenseHigh ix (l.bin ix))).countDown := by
    rw [condense_sacc, if_pos hlive, transferBin_eq_addThree, ensureRoom_of_room hadds]
  have hget := l.sacc.addThree_get (binNeg ix) (binHigh_lt ix) (condenseLow ix (l.bin ix))
    (condenseMid ix (l.bin ix)) (condenseHigh ix (l.bin ix))
  rw [condenseLow_toNat, hbin.condenseMid_toNat hlive, hbin.condenseHigh_toNat hlive] at hget
  rw [hsacc]
  refine ⟨hget, by simp [Small.addThree], by simp [Small.addThree], by simp [Small.addThree], ?emptied, ?used,
    fun jx hjx => ⟨?otherBin, ?otherUsed⟩⟩
  case emptied => exact (condense_bin hinv.canonical ix ix).trans (if_pos rfl)
  case used => simp [condense_usedBit]
  case otherBin => rw [condense_bin hinv.canonical, if_neg hjx.symm]
  case otherUsed => simp [condense_usedBit, hjx.symm]

/-- Settles O46: a transfer adds exactly the value of the bin, which is then empty. -/
theorem condenseKeepsTheValue : Obligations.CondenseKeepsTheValue := by
  unfold Obligations.CondenseKeepsTheValue
  intro l ix hinv hbound hix
  obtain ⟨hroomy, hvalue⟩ := hinv.condense_value (hinv.roomy hbound) hix
  exact ⟨hroomy.1, hvalue⟩

/-- Settles O47: a bin with room takes the pattern exactly, and one without is condensed first. -/
theorem lAdd1IsExact : Obligations.LAdd1IsExact := by
  unfold Obligations.LAdd1IsExact
  intro x s t hinv hbound hx h
  rw [large_of_exec_lAdd1 h]
  obtain ⟨hroomy, hvalue⟩ := hinv.largeAddOne_value (hinv.roomy hbound) hx
  exact ⟨hroomy.1, hvalue⟩

/-- Settles O42: a merge is exact chunk by chunk, and L.sacc is one part of val(L). -/
theorem smallMergeIsExact : Obligations.SmallMergeIsExact := by
  unfold Obligations.SmallMergeIsExact
  intro x s t hx hinf hnan
  have hchunks := imageRecv_abs_get_lt hx
  refine ⟨fun hroomy h => ?small, fun hroomy h => ?large⟩
  case small =>
    rw [small_of_exec_sAddacc h]
    exact hroomy.smallAddOther hchunks hinf hnan
  case large =>
    obtain ⟨hkept, hvalue⟩ := hroomy.smallAddOther hchunks hinf hnan
    rw [large_of_exec_lAddsmall h]
    refine ⟨hkept, fun h0 => ?_⟩
    have hbins : ({ s.large with sacc := smallAddOther s.large.sacc (imageRecv x) } : Large).binsValue =
      s.large.binsValue := rfl
    rw [Large.value_eq, Large.value_eq, hbins, hvalue h0]
    ring

/-- Settles O43: the three things an add can do under the invariant, by the class of the value and the count of its bin. -/
theorem lAdd1FillsItsBin : Obligations.LAdd1FillsItsBin := by
  unfold Obligations.LAdd1FillsItsBin
  intro x s
  refine ⟨_, exec_lAdd1 x s, ⟨rfl, rfl, rfl⟩, State.complete_output .., fun hinv => ?_⟩
  simp only [State.complete_large, State.setLarge_large]
  have hbin := hinv.binOk (binIndex x)
  have hfull : Bin.emptied.take x = { chunk := x, count := 4095#16 } := by simp [Bin.take, Bin.emptied]
  refine ⟨fun hx => ?special, fun hx => ?finite⟩
  case special =>
    obtain ⟨-, heq⟩ | ⟨hspecial, -⟩ | ⟨hspecial, -⟩ := hinv.largeAddOne_cases x
    · exact heq
    all_goals
      rw [binSpecial_binIndex, hx] at hspecial
      cases hspecial
  case finite =>
    obtain ⟨hspecial, -⟩ | ⟨-, hcount, heq⟩ | ⟨-, hcount, -, heq⟩ := hinv.largeAddOne_cases x
    · rw [binSpecial_binIndex, hx] at hspecial
      cases hspecial
    · rw [heq]
      refine ⟨fun jx hjx => ⟨Large.bin_setBin_other _ hjx.symm _, rfl⟩, ?_, fun _ => ⟨rfl, ?_⟩,
        fun hneg => by omega, fun h0 => by omega⟩
      · rw [Large.setBin_usedBit, hinv.usedLive, Bin.live_iff]
        exact hcount.le
      · rw [Large.bin_setBin hinv.canonical, if_pos rfl]
        rfl
    · have hwf := condense_wf hinv.canonical (binIndex x)
      rw [heq]
      refine ⟨fun jx hjx => ?_, ?_, fun hpos => by omega, fun hneg => ⟨?_, ?_⟩, fun h0 => ⟨rfl, ?_, ?_⟩⟩
      · rw [Large.bin_setBin_other _ hjx.symm, condense_bin hinv.canonical, if_neg hjx.symm, Large.setBin_usedBit]
        simp [condense_usedBit, hjx.symm]
      · simp [condense_usedBit]
      · have hidle : (s.large.bin (binIndex x)).live = false := Bin.live_eq_false_iff.mpr hneg
        simp [hidle]
      · rw [Large.bin_setBin hwf, if_pos rfl, hfull]
      · have hlive : (s.large.bin (binIndex x)).live = true := Bin.live_iff.mpr h0.ge
        obtain ⟨-, -, hadds⟩ := transferBin_frame s.large.sacc (binIndex x) (s.large.bin (binIndex x))
        rw [Large.setBin_sacc, condense_sacc, if_pos hlive, hadds, addsAfterOne_eq]
      · rw [Large.bin_setBin hwf, if_pos rfl, hfull]

/-- Settles O55: a merge into L.sacc field by field, which is all of L that changes. -/
theorem lAddsmallMergesAnImage : Obligations.LAddsmallMergesAnImage := by
  unfold Obligations.LAddsmallMergesAnImage
  intro x s
  refine ⟨_, exec_lAddsmall x s, ⟨rfl, rfl, rfl⟩, State.complete_output .., smallAddOther_addsAfterOne _ _, rfl,
    fun hadds => smallAddOther_of_room hadds x, fun hadds => ?noRoom, fun n pad u hu => ?unread⟩
  case noRoom =>
    refine ⟨_, exec_lAddsmall x _, ?_⟩
    simp only [State.complete_large, State.setLarge_large, smallAddOther_carryPropagate hadds]
  case unread =>
    cases hu
    rfl

end Sys2Proof
end

section
/-! SUPPORT. The scan of transfer_all (R244) as one ascending fold, what it leaves in the bins and in L.sacc, the commands
that run it (R252, R253), images carried from one block to another (R105), and the settlements of the statements about them. -/

namespace Sys2Proof.Machine

/-! ### The scan in order -/

/-- One index of the ascending scan: its bin is condensed if its used bit is set (R244). -/
def condenseIfUsed (l : Large) (n : Nat) : Large :=
  if l.usedBit (BitVec.ofNat 12 n) then condense l (BitVec.ofNat 12 n) else l

section
variable {l : Large}

theorem transferGroup_eq_foldl (k n : Nat) (hn : n ≤ 64) (l : Large) :
    transferGroup k n l = (List.range' (64 * k + (64 - n)) n).foldl condenseIfUsed l := by
  induction n generalizing l with
  | zero => rfl
  | succ n ih =>
    have hnext : 64 * k + (64 - (n + 1)) + 1 = 64 * k + (64 - n) := by omega
    rw [List.range'_succ, List.foldl_cons, hnext, ← ih (by omega), transferGroup, condenseIfUsed]
    split <;> rfl

/-- Indices whose used bits are clear are passed over. -/
theorem foldl_condenseIfUsed_of_unused {ns : List Nat} (h : ∀ n ∈ ns, l.usedBit (BitVec.ofNat 12 n) = false) :
    ns.foldl condenseIfUsed l = l := by
  induction ns with
  | nil => rfl
  | cons n ns ih =>
    have hn : condenseIfUsed l n = l := by simp [condenseIfUsed, h n (by simp)]
    rw [List.foldl_cons, hn, ih fun m hm => h m (by simp [hm])]

/-- A group whose word of the bit-set is zero holds no used bin (R42, R244). -/
theorem usedBit_of_group_zero {k n : Nat} (hk : k < 64) (hzero : l.used[k]?.getD 0#64 = 0#64) (hlow : 64 * k ≤ n)
    (hhigh : n < 64 * k + 64) : l.usedBit (BitVec.ofNat 12 n) = false := by
  have hnat : (BitVec.ofNat 12 n).toNat = n := by
    rw [BitVec.toNat_ofNat]
    omega
  have hgroup : n / 64 = k := by omega
  rw [Large.usedBit, hnat, hgroup, hzero]
  simp

theorem transferGroups_eq_foldl (n : Nat) (hn : n ≤ 64) (l : Large) :
    transferGroups n l = (List.range' (64 * (64 - n)) (64 * n)).foldl condenseIfUsed l := by
  induction n generalizing l with
  | zero => rfl
  | succ n ih =>
    have hsplit : List.range' (64 * (64 - (n + 1))) (64 * (n + 1)) =
        List.range' (64 * (64 - (n + 1))) 64 ++ List.range' (64 * (64 - n)) (64 * n) := by
      rw [show 64 * (64 - n) = 64 * (64 - (n + 1)) + 1 * 64 by omega, List.range'_append, show 64 + 64 * n = 64 * (n + 1) by omega]
    rw [hsplit, List.foldl_append, ← ih (by omega), transferGroups]
    split
    · rename_i hzero
      rw [foldl_condenseIfUsed_of_unused fun m hm => ?_]
      rw [List.mem_range'_1] at hm
      exact usedBit_of_group_zero (by omega) hzero hm.1 hm.2
    · rw [transferGroup_eq_foldl _ _ le_rfl, Nat.sub_self, Nat.add_zero]

/-- transfer_all is the ascending scan over all indices (R244). -/
theorem transferAll_eq_foldl (l : Large) : transferAll l = (List.range 4096).foldl condenseIfUsed l := by
  rw [transferAll, transferGroups_eq_foldl 64 le_rfl, List.range_eq_range']

/-! ### What the scan leaves -/

/-- One index of the scan empties its bin if it is used; no used bit changes (R243). -/
theorem condenseIfUsed_bin (hwf : binsWf l.bins = true) (n : Nat) :
    binsWf (condenseIfUsed l n).bins = true ∧ (∀ ix, (condenseIfUsed l n).usedBit ix = l.usedBit ix) ∧
    ∀ ix, (condenseIfUsed l n).bin ix =
      if BitVec.ofNat 12 n = ix ∧ l.usedBit ix = true then Bin.emptied else l.bin ix := by
  unfold condenseIfUsed
  split
  · rename_i hused
    refine ⟨condense_wf hwf _, fun ix => ?_, fun ix => ?_⟩
    · rw [condense_usedBit]
      by_cases hix : BitVec.ofNat 12 n = ix
      · simp [← hix, hused]
      · simp [hix]
    · rw [condense_bin hwf]
      by_cases hix : BitVec.ofNat 12 n = ix
      · rw [if_pos hix, if_pos ⟨hix, hix ▸ hused⟩]
      · rw [if_neg hix, if_neg fun h => hix h.1]
  · rename_i hused
    exact ⟨hwf, fun _ => rfl, fun ix => (if_neg fun ⟨hix, h⟩ => hused (hix ▸ h)).symm⟩

/-- The bins after the first n indices of the scan: those used are empty, all others as they were. -/
theorem foldl_condenseIfUsed_bin (hwf : binsWf l.bins = true) (n : Nat) (hn : n ≤ 4096) :
    binsWf ((List.range n).foldl condenseIfUsed l).bins = true ∧
    (∀ ix, ((List.range n).foldl condenseIfUsed l).usedBit ix = l.usedBit ix) ∧
    ∀ ix, ((List.range n).foldl condenseIfUsed l).bin ix =
      if ix.toNat < n ∧ l.usedBit ix = true then Bin.emptied else l.bin ix := by
  induction n with
  | zero => exact ⟨hwf, fun _ => rfl, fun _ => by simp⟩
  | succ n ih =>
    obtain ⟨hwf', hused, hbin⟩ := ih (by omega)
    rw [List.range_succ, List.foldl_append, List.foldl_cons, List.foldl_nil]
    obtain ⟨hwf'', hused', hbin'⟩ := condenseIfUsed_bin hwf' n
    refine ⟨hwf'', fun ix => (hused' ix).trans (hused ix), fun ix => ?_⟩
    have heq : BitVec.ofNat 12 n = ix ↔ ix.toNat = n := by
      rw [← BitVec.toNat_inj, BitVec.toNat_ofNat, Nat.mod_eq_of_lt (by omega), eq_comm]
    rw [hbin', hused, hbin]
    by_cases hu : l.usedBit ix = true
    · simp only [hu, and_true, heq, Nat.lt_succ_iff_lt_or_eq]
      by_cases hix : ix.toNat = n <;> simp [hix]
    · simp [hu]

/-- Every used bin is left empty and every other bin as it was (R243, R244). -/
theorem transferAll_bin (hwf : binsWf l.bins = true) (ix : BinIndex) :
    (transferAll l).bin ix = if l.usedBit ix = true then Bin.emptied else l.bin ix := by
  obtain ⟨-, -, hbin⟩ := foldl_condenseIfUsed_bin hwf 4096 le_rfl
  rw [transferAll_eq_foldl, hbin]
  simp [ix.isLt]

theorem condense_inf (l : Large) (ix : BinIndex) : (condense l ix).sacc.inf = l.sacc.inf := by
  rw [condense_sacc]
  split
  · exact (transferBin_frame _ _ _).1
  · rfl

theorem transferAll_inf (l : Large) : (transferAll l).sacc.inf = l.sacc.inf :=
  transferAll_induction (P := fun m => m.sacc.inf = l.sacc.inf) (fun m ix h _ => (condense_inf m ix).trans h) rfl

/-- Under the invariant no bin holds a value after the scan (R244). -/
theorem Large.Inv.transferAll_binsValue (h : l.Inv) : (Machine.transferAll l).binsValue = 0 := by
  refine Finset.sum_eq_zero fun ix _ => ?_
  rw [transferAll_bin h.canonical]
  split
  · rename_i hused
    exact binValue_emptied ix (h.not_special_of_used hused)
  · rename_i hused
    exact binValue_of_idle (by rw [← h.usedLive]; simpa using hused)

/-- The scan keeps the room of L.sacc, and leaves val(L) in it unless a propagation overflows (R244, R255). -/
theorem Large.Inv.transferAll_value (h : l.Inv) (hroomy : l.sacc.Roomy) : (Machine.transferAll l).sacc.Roomy ∧
    ((Machine.transferAll l).sacc.nan = 0#64 → (Machine.transferAll l).sacc.value = l.value) := by
  obtain ⟨-, hkept, hvalue⟩ := transferAll_induction (l := l)
    (P := fun m => m.Inv ∧ m.sacc.Roomy ∧ (m.sacc.nan = 0#64 → m.value = l.value))
    (fun m ix ⟨hm, hmroomy, hmvalue⟩ hused => by
      have hix := hm.not_special_of_used hused
      obtain ⟨hkept, hvalue⟩ := hm.condense_value hmroomy hix
      exact ⟨hm.condense hix, hkept, fun hnan =>
        (hvalue hnan).trans (hmvalue ((condense_flagsKept m ix).nan_eq_zero hnan))⟩)
    ⟨h, hroomy, fun _ => rfl⟩
  refine ⟨hkept, fun hnan => ?_⟩
  rw [← hvalue hnan, Large.value_eq, h.transferAll_binsValue, add_zero]

end

/-! ### Rounding what the scan leaves -/

/-- What rounding answers, by the flags it leaves (R200). -/
theorem roundSmall_answers (a : Small) :
    ((roundSmall a).1.nan ≠ 0#64 → (roundSmall a).2 = (roundSmall a).1.nan) ∧
    ((roundSmall a).1.nan = 0#64 → (roundSmall a).1.inf ≠ 0#64 → (roundSmall a).2 = (roundSmall a).1.inf) ∧
    ((roundSmall a).1.nan = 0#64 → (roundSmall a).1.inf = 0#64 →
      (roundSmall a).2 = rne64 (roundSmall a).1.value ∧ (a.Roomy → (roundSmall a).2 = rne64 a.value)) := by
  obtain ⟨hn, h⟩ | ⟨hn, hi, h⟩ | ⟨hn, hi, hp, h⟩ | ⟨hn, hi, hp, h⟩ := roundSmall_cases a <;> rw [h]
  · exact ⟨fun _ => rfl, fun h0 => absurd h0 hn, fun h0 => absurd h0 hn⟩
  · exact ⟨fun hne => absurd hn hne, fun _ _ => rfl, fun _ h0 => absurd h0 hi⟩
  · exact ⟨fun _ => rfl, fun h0 => absurd h0 hp, fun h0 => absurd h0 hp⟩
  · refine ⟨fun hne => absurd hp hne, fun _ hne => ?_, fun _ _ => ⟨rfl, fun hroomy => ?_⟩⟩
    · rw [carryPropagate_inf, hi] at hne
      exact absurd rfl hne
    · rw [(hroomy.carryPropagate_kept (ne_overflowNaN_of_eq_zero hp)).1]

@[simp] theorem roundSmall_inf (a : Small) : (roundSmall a).1.inf = a.inf := by
  obtain h | h := roundSmall_fst a <;> rw [h]
  exact carryPropagate_inf a

/-- What L_ROUND leaves of L: every used bin condensed, and L.sacc rounded (R252). -/
def Large.rounded (l : Large) : Large := { transferAll l with sacc := (roundSmall (transferAll l).sacc).1 }

section
variable {s t : State}

/-- What L_ROUND leaves and answers (R252). -/
theorem large_and_output_of_exec_lRound (h : exec .lRound s = .next t) : t.large = s.large.rounded ∧
    t.output = s.output ++ [0x17#64, (roundSmall (transferAll s.large).sacc).2] := by
  cases h
  exact ⟨rfl, State.complete_output ..⟩

theorem large_and_output_of_exec_lAddv {v : List Word} (h : exec (.lAddv v) s = .next t) :
    t.large = largeAddAll s.large v ∧ t.output = s.output ++ [0x13#64] := by
  cases h
  exact ⟨rfl, State.complete_output ..⟩

end

/-! ### Sums on L -/

section
variable {l : Large}

theorem Large.Inv.largeAddOne_inf (h : l.Inv) {u : Word} (hu : isFinite u = true) :
    (Machine.largeAddOne l u).sacc.inf = l.sacc.inf := by
  obtain ⟨hspecial, -⟩ | ⟨-, -, heq⟩ | ⟨-, -, -, heq⟩ := h.largeAddOne_cases u
  · rw [binSpecial_binIndex, hu] at hspecial
    cases hspecial
  · rw [heq, Large.setBin_sacc]
  · rw [heq, Large.setBin_sacc, condense_inf]

/-- Finite patterns added one by one change val(L) by exactly their sum, unless a propagation overflows (R255). -/
theorem Large.Inv.largeAddAll_value (h : l.Inv) (hroomy : l.sacc.Roomy) {us : List Word}
    (hus : ∀ u ∈ us, isFinite u = true) : (Machine.largeAddAll l us).sacc.Roomy ∧
      (Machine.largeAddAll l us).sacc.inf = l.sacc.inf ∧
      ((Machine.largeAddAll l us).sacc.nan = 0#64 →
        (Machine.largeAddAll l us).value = l.value + (us.map unitsOf).sum) := by
  induction us generalizing l with
  | nil => exact ⟨hroomy, rfl, fun _ => by simp⟩
  | cons u us ih =>
    have hu : isFinite u = true := hus u (by simp)
    obtain ⟨hroomy', hfirst⟩ := h.largeAddOne_value hroomy hu
    obtain ⟨hkept, hinf, hvalue⟩ := ih (h.largeAddOne u) hroomy' fun v hv => hus v (by simp [hv])
    refine ⟨hkept, hinf.trans (h.largeAddOne_inf hu), fun hnan => ?_⟩
    rw [largeAddAll_cons] at hnan ⊢
    rw [hvalue hnan, hfirst ((largeAddAll_flagsKept _ us).nan_eq_zero hnan), List.map_cons, List.sum_cons, add_assoc]

theorem large_reset_value : Large.reset.value = 0 := by
  have hbins : Large.reset.binsValue = 0 := Finset.sum_eq_zero fun ix _ => by
    rw [Large.reset_bin, binValue_of_idle Bin.unused_live]
  rw [Large.value_eq, hbins, Large.reset_sacc, Small.reset_value, add_zero]

end

/-! ### Rounding L again -/

/-- The accumulators differ at most in the counter. -/
structure SameButCounter (a b : Small) : Prop where
  chunk : a.chunk = b.chunk
  inf : a.inf = b.inf
  nan : a.nan = b.nan

section
variable {a b : Small}

theorem SameButCounter.get (h : SameButCounter a b) (i : Nat) : a.get i = b.get i := by
  rw [Small.get, Small.get, h.chunk]

theorem SameButCounter.value (h : SameButCounter a b) : a.value = b.value := by
  rw [Small.value, Small.value, h.chunk]

theorem SameButCounter.normalized {u : Nat} (h : SameButCounter a b) (hb : b.Normalized u) : a.Normalized u := by
  unfold Small.Normalized at *
  simpa only [h.get] using hb

/-- Propagating what differs from a propagated accumulator in the counter alone changes the counter alone (R161). -/
theorem SameButCounter.carryPropagate (h : SameButCounter a (carryPropagate b).1) :
    SameButCounter (carryPropagate a).1 (carryPropagate b).1 := by
  obtain ⟨hnorm, hzero⟩ := carryPropagate_normalized b
  rw [carryPropagate_of_normalized (h.normalized hnorm) fun h0 => hzero (by rwa [← h.get])]
  exact ⟨h.chunk, h.inf, h.nan⟩

theorem SameButCounter.ensureRoom (h : SameButCounter a (Machine.carryPropagate b).1) :
    SameButCounter (ensureRoom a) (Machine.carryPropagate b).1 := by
  unfold Machine.ensureRoom
  split
  · exact h.carryPropagate
  · exact h

/-- An empty bin has nothing to transfer: only the opening check and the count are left (R242, R243). -/
theorem transferBin_emptied (a : Small) (ix : BinIndex) : transferBin a ix Bin.emptied = (ensureRoom a).countDown := by
  have hwide : condenseWide ix Bin.emptied = 0#64 := by simp [condenseWide]
  rw [transferBin_eq_addThree]
  simp [condenseLow, condenseMid, condenseHigh, hwide]

/-- The scan over bins that are all empty leaves a propagated L.sacc as it is but for the counter (R252). -/
theorem transferAll_of_emptied {l : Large} (hwf : binsWf l.bins = true)
    (hbins : ∀ ix, (l.bin ix).live = true → l.bin ix = Bin.emptied) (hsacc : l.sacc = (carryPropagate b).1) :
    SameButCounter (transferAll l).sacc (carryPropagate b).1 := by
  have hscan := transferAll_induction (l := l) (P := fun m => binsWf m.bins = true ∧
      (∀ ix, (m.bin ix).live = true → m.bin ix = Bin.emptied) ∧ SameButCounter m.sacc (carryPropagate b).1)
    (fun m ix ⟨hmwf, hmbins, hmsacc⟩ _ => by
      refine ⟨condense_wf hmwf ix, fun jx hlive => ?_, ?_⟩
      · rw [condense_bin hmwf] at hlive ⊢
        split at hlive
        · rename_i heq
          rw [if_pos heq]
        · rename_i heq
          rw [if_neg heq]
          exact hmbins jx hlive
      · rw [condense_sacc]
        split
        · rename_i hlive
          obtain ⟨hchunk, hinf, hnan⟩ := hmsacc.ensureRoom
          rw [hmbins ix hlive, transferBin_emptied]
          exact ⟨hchunk, hinf, hnan⟩
        · exact hmsacc)
    ⟨hwf, hbins, hsacc ▸ ⟨rfl, rfl, rfl⟩⟩
  exact hscan.2.2

end

/-- After the scan every live bin is empty (R244). -/
theorem Large.Inv.transferAll_live {l : Large} (h : l.Inv) (ix : BinIndex)
    (hlive : ((Machine.transferAll l).bin ix).live = true) : (Machine.transferAll l).bin ix = Bin.emptied := by
  rw [transferAll_bin h.canonical] at hlive ⊢
  split at hlive
  · rename_i hused
    rw [if_pos hused]
  · rename_i hused
    rw [h.usedLive] at hused
    exact absurd hlive hused

/-- Without a flag L_ROUND leaves L.sacc propagated and every live bin empty, so that a second scan changes the counter
alone and a second rounding answers the same (R252). -/
theorem Large.Inv.roundSmall_again {l : Large} (h : l.Inv) (hnan : l.rounded.sacc.nan = 0#64)
    (hinf : l.rounded.sacc.inf = 0#64) :
    (roundSmall (Machine.transferAll l.rounded).sacc).2 = (roundSmall (Machine.transferAll l).sacc).2 := by
  have hanswer := (roundSmall_answers (Machine.transferAll l).sacc).2.2 hnan hinf
  have hscannan := (roundSmall_flagsKept (Machine.transferAll l).sacc).nan_eq_zero hnan
  have hscaninf : (Machine.transferAll l).sacc.inf = 0#64 := (roundSmall_inf _).symm.trans hinf
  have hpropagated : l.rounded.sacc = (carryPropagate (Machine.transferAll l).sacc).1 := by
    rw [Large.rounded, roundSmall_of_clear hscannan hscaninf]
  have hscan := transferAll_of_emptied (l := l.rounded) (transferAll_wf h.canonical) h.transferAll_live hpropagated
  have hagain := hscan.carryPropagate
  rw [← hpropagated] at hscan hagain
  rw [roundSmall_of_clear (hscan.nan.trans hnan) (hscan.inf.trans hinf), hanswer.1]
  dsimp only
  rw [if_pos (hagain.nan.trans hnan), hagain.value]
  rfl

/-! ### Images carried to another block -/

/-- The image a command answers after its status word is that of the accumulator it sends (R73, R83). -/
theorem answeredImage_eq {s t : State} {w : Word} {a : Small} (h : t.output = s.output ++ w :: imageSend a) :
    answeredImage s t = a.image := by
  have hdrop : t.output.drop (s.output.length + 1) = imageSend a := by
    rw [h, ← List.drop_drop, List.drop_left, List.drop_one, List.tail_cons]
  rw [answeredImage, hdrop, imageSend, imageOfWords_toWords]

/-- A pseudo-command is its two commands, the second on the image that the first answered (R105). -/
theorem runPseudo_eq {p : Pseudo} {right right' here here' : State} {w : Word} {a : Small}
    (hquery : exec p.query right = .next right') (hout : right'.output = right.output ++ w :: imageSend a)
    (hdeliver : exec (p.deliver a.image) here = .next here') : runPseudo p right here = .next (right', here') := by
  simp only [runPseudo, hquery, answeredImage_eq hout, hdeliver]

end Sys2Proof.Machine

namespace Sys2Proof

open Machine

/-- Settles O48: each group is a part of the ascending scan, and a group passed over holds no used bin. -/
theorem transferAllScansInOrder : Obligations.TransferAllScansInOrder := by
  unfold Obligations.TransferAllScansInOrder
  exact transferAll_eq_foldl

/-- Settles O49: the scan leaves the bins empty and their values in L.sacc, which is then rounded. -/
theorem lRoundAnswers : Obligations.LRoundAnswers := by
  unfold Obligations.LRoundAnswers
  intro s
  obtain ⟨hnan, hinf, hvalue⟩ := roundSmall_answers (transferAll s.large).sacc
  refine ⟨_, _, exec_lRound s, ⟨rfl, rfl, rfl⟩, State.complete_output .., fun hinv ix => transferAll_bin hinv.canonical ix,
    hnan, hinf, fun h0 hi => ?clear⟩
  case clear =>
    obtain ⟨hanswer, hexact⟩ := hvalue h0 hi
    refine ⟨hanswer, fun hinv hbound => ?_⟩
    obtain ⟨hroomy, hmoved⟩ := hinv.transferAll_value (hinv.roomy hbound)
    rw [hexact hroomy, hmoved ((roundSmall_flagsKept _).nan_eq_zero h0)]

/-- Settles O50: the sum is exact from reset, the scan moves it into L.sacc, and rounding answers its nearest binary64. -/
theorem lSumIsCorrectlyRounded : Obligations.LSumIsCorrectlyRounded := by
  unfold Obligations.LSumIsCorrectlyRounded
  intro v t u hv hadd hround hnan
  obtain ⟨htlarge, htout⟩ := large_and_output_of_exec_lAddv hadd
  obtain ⟨hularge, huout⟩ := large_and_output_of_exec_lRound hround
  obtain ⟨hroomy, hinf, hvalue⟩ := large_reset_inv.largeAddAll_value Small.reset_roomy hv
  have hinv : t.large.Inv := htlarge ▸ large_reset_inv.largeAddAll v
  rw [State.reset_large] at htlarge
  rw [← htlarge] at hroomy hinf hvalue
  obtain ⟨hroomy', hmoved⟩ := hinv.transferAll_value hroomy
  rw [hularge] at hnan
  have hnan' := (roundSmall_flagsKept _).nan_eq_zero hnan
  have hinf' : (roundSmall (transferAll t.large).sacc).1.inf = 0#64 := by
    rw [roundSmall_inf, transferAll_inf, hinf, Large.reset_sacc, Small.reset_inf]
  obtain ⟨-, hexact⟩ := (roundSmall_answers (transferAll t.large).sacc).2.2 hnan hinf'
  rw [huout, htout, hexact hroomy', hmoved hnan', hvalue ((transferAll_flagsKept _).nan_eq_zero hnan'),
    large_reset_value, zero_add]
  rfl

/-- Settles O51: a NaN or an infinity answered stays in its field; without a flag the second scan changes the counter
alone. -/
theorem lRoundTwiceAnswersTheSame : Obligations.LRoundTwiceAnswersTheSame := by
  unfold Obligations.LRoundTwiceAnswersTheSame
  intro s t u hinv hst htu hflags
  obtain ⟨htlarge, htout⟩ := large_and_output_of_exec_lRound hst
  obtain ⟨hularge, huout⟩ := large_and_output_of_exec_lRound htu
  obtain ⟨hnan, hinf, -⟩ := roundSmall_answers (transferAll s.large).sacc
  have htsacc : t.large.sacc = (roundSmall (transferAll s.large).sacc).1 := by rw [htlarge]; rfl
  have husacc : u.large.sacc = (roundSmall (transferAll t.large).sacc).1 := by rw [hularge]; rfl
  rw [← htsacc] at hnan hinf
  refine ⟨_, htout, ?_⟩
  rw [huout]
  suffices hsame : (roundSmall (transferAll t.large).sacc).2 = (roundSmall (transferAll s.large).sacc).2 by rw [hsame]
  obtain ⟨hnan', hinf', -⟩ := roundSmall_answers (transferAll t.large).sacc
  rw [← husacc] at hnan' hinf'
  have huinf : u.large.sacc.inf = t.large.sacc.inf := by rw [husacc, roundSmall_inf, transferAll_inf]
  by_cases h0 : t.large.sacc.nan = 0#64 ∧ t.large.sacc.inf = 0#64
  case pos =>
    rw [htlarge] at h0 ⊢
    exact hinv.roundSmall_again h0.1 h0.2
  case neg =>
    have hkept : u.large.sacc.nan = t.large.sacc.nan := hflags.resolve_left h0
    by_cases hn : t.large.sacc.nan = 0#64
    · have hi : t.large.sacc.inf ≠ 0#64 := fun hi => h0 ⟨hn, hi⟩
      rw [hinf hn hi, hinf' (hkept.trans hn) (huinf ▸ hi), huinf]
    · rw [hnan hn, hnan' (hkept ▸ hn), hkept]

/-- Settles O52: the words of the image of L.sacc, field by field, and the bins the scan leaves. -/
theorem lRoundToSmallSendsSacc : Obligations.LRoundToSmallSendsSacc := by
  unfold Obligations.LRoundToSmallSendsSacc
  intro s
  refine ⟨_, imageSend (transferAll s.large).sacc, exec_lRoundToSmall s, ⟨rfl, rfl, rfl⟩, rfl,
    State.complete_output .., imageSend_length _, fun _ => imageSend_getElem?_chunk _, imageSend_getElem?_inf _,
    imageSend_getElem?_nan _, ?adds, fun hinv ix => transferAll_bin hinv.canonical ix⟩
  case adds =>
    rw [imageSend_getElem?_adds, BitVec.ofNat_toNat]
    rfl

/-- Settles O53: the image answered is that of the L.sacc that L_ROUND rounds, and its counter is in range. -/
theorem roundToSmallThenRoundIsRound : Obligations.RoundToSmallThenRoundIsRound := by
  unfold Obligations.RoundToSmallThenRoundIsRound
  intro s t h h' q u hinv hst hload hround hlround
  have himage : answeredImage s t = (transferAll s.large).sacc.image := by
    cases hst
    exact answeredImage_eq (State.complete_output ..)
  have hrange : addsInRange (transferAll s.large).sacc.image.adds = true := hinv.transferAll.addsRange
  rw [himage, exec_sLoad_of_range _ _ hrange] at hload
  obtain ⟨-, hqout⟩ := small_and_output_of_exec_sRound hround
  obtain ⟨-, huout⟩ := large_and_output_of_exec_lRound hlround
  have hsmall : h'.small = (transferAll s.large).sacc := by
    cases hload
    rfl
  rw [hsmall] at hqout
  exact ⟨_, hqout, huout⟩

/-- Settles O59: the image of the other S, whose counter S_LOAD accepts. -/
theorem sCopyMakesEqual : Obligations.SCopyMakesEqual := by
  unfold Obligations.SCopyMakesEqual
  intro right here hlow hhigh
  have hload := exec_sLoad_of_range right.small.image here (addsInRange_iff.mpr ⟨hlow, hhigh⟩)
  exact ⟨_, _, runPseudo_eq (exec_sStore right) (State.complete_output ..) hload, rfl, rfl, rfl, rfl⟩

/-- Settles O60: the image of the other's L.sacc after its scan, merged into L.sacc or into S. -/
theorem pseudoCommandsMergeSacc : Obligations.PseudoCommandsMergeSacc := by
  unfold Obligations.PseudoCommandsMergeSacc
  intro right here
  have hout := State.complete_output (right.setLarge (transferAll right.large)) 0x18#8
    (imageSend (transferAll right.large).sacc)
  exact ⟨⟨_, _, runPseudo_eq (exec_lRoundToSmall right) hout (exec_lAddsmall _ here), rfl, rfl, rfl, rfl⟩,
    ⟨_, _, runPseudo_eq (exec_lRoundToSmall right) hout (exec_sAddacc _ here), rfl, rfl, rfl, rfl⟩⟩

/-- Settles O44: the vector commands are one fold over the elements, the squares or the products. -/
theorem lVectorCommandsAddInOrder : Obligations.LVectorCommandsAddInOrder := by
  unfold Obligations.LVectorCommandsAddInOrder
  refine ⟨fun v s => ?vector, fun v x s t p q ht hp hq => ?last, fun v s => ?squares, fun ab s => ?products⟩
  case vector =>
    refine ⟨_, exec_lAddv v s, ⟨rfl, rfl, rfl⟩, State.complete_output .., ?_⟩
    rintro rfl
    rfl
  case last =>
    rw [large_of_exec_lAdd1 hq, (large_and_output_of_exec_lAddv hp).1, (large_and_output_of_exec_lAddv ht).1,
      largeAddAll_append]
    rfl
  case squares =>
    exact ⟨_, _, exec_lSqnorm v s, ⟨rfl, rfl, rfl⟩, State.complete_output .., exec_lAddv _ s, rfl⟩
  case products =>
    exact ⟨_, _, exec_lDot ab s, ⟨rfl, rfl, rfl⟩, State.complete_output .., exec_lAddv _ s, rfl⟩

end Sys2Proof
end

section
/-! SUPPORT. The assembler (R104): the operand words of a line by the shape of its command, the rows of the mnemonic map
(R92), decimal literals, and the settlements of the statements about assembled lines and literals. -/

namespace Sys2Proof.Machine

/-! ### Lines and the tables -/

/-- A line is its command word and its operand words (R104). -/
theorem assemble_eq_some_iff {m : String} {operands : AsmOperands} {ws : List Word} :
    assemble (.command m operands) = some ws ↔ ∃ c shape ops, mnemonicMap.lookup m = some c ∧
      opcodeMap.lookup c = some shape ∧ assembleOperands shape operands = some ops ∧ ws = c :: ops := by
  rw [assemble]
  cases hm : mnemonicMap.lookup m with
  | none => simp
  | some c =>
    cases hc : opcodeMap.lookup c with
    | none => simp [hc]
    | some shape => simp [hc, eq_comm]

/-- The shape of a row gives commands of one mnemonic, whose operands are those written (R92, R104). -/
def WrittenAs (m : String) : OperandShape → Prop
  | .none i => i.mnemonic = m ∧ ∀ o, i.operandsAre o ↔ o = .none
  | .pattern f => ∀ x, (f x).mnemonic = m ∧ ∀ o, (f x).operandsAre o ↔ ∃ l, o = .value l ∧ x = l.toWord
  | .vector f => ∀ v, (f v).mnemonic = m ∧ ∀ o, (f v).operandsAre o ↔ elementsAre v o
  | .pairs f => ∀ ab, (f ab).mnemonic = m ∧ ∀ o, (f ab).operandsAre o ↔ pairsAre ab o
  | .image f => ∀ x, (f x).mnemonic = m ∧ ∀ o, (f x).operandsAre o ↔ imageIs x o

/-- The rows of R92 with their mnemonics. -/
theorem writtenAs_of_mem_mnemonicMap : ∀ row ∈ mnemonicMap, ∃ shape, opcodeMap.lookup row.2 = some shape ∧
    WrittenAs row.1 shape := by
  simp only [mnemonicMap, List.forall_mem_cons, List.not_mem_nil, false_imp_iff, implies_true, and_true]
  exact ⟨⟨_, rfl, rfl, fun _ => .rfl⟩, ⟨_, rfl, fun _ => ⟨rfl, fun _ => .rfl⟩⟩, ⟨_, rfl, fun _ => ⟨rfl, fun _ => .rfl⟩⟩,
    ⟨_, rfl, fun _ => ⟨rfl, fun _ => .rfl⟩⟩, ⟨_, rfl, fun _ => ⟨rfl, fun _ => .rfl⟩⟩,
    ⟨_, rfl, fun _ => ⟨rfl, fun _ => .rfl⟩⟩, ⟨_, rfl, rfl, fun _ => .rfl⟩, ⟨_, rfl, rfl, fun _ => .rfl⟩,
    ⟨_, rfl, rfl, fun _ => .rfl⟩, ⟨_, rfl, rfl, fun _ => .rfl⟩, ⟨_, rfl, fun _ => ⟨rfl, fun _ => .rfl⟩⟩,
    ⟨_, rfl, rfl, fun _ => .rfl⟩, ⟨_, rfl, fun _ => ⟨rfl, fun _ => .rfl⟩⟩, ⟨_, rfl, fun _ => ⟨rfl, fun _ => .rfl⟩⟩,
    ⟨_, rfl, fun _ => ⟨rfl, fun _ => .rfl⟩⟩, ⟨_, rfl, fun _ => ⟨rfl, fun _ => .rfl⟩⟩,
    ⟨_, rfl, fun _ => ⟨rfl, fun _ => .rfl⟩⟩, ⟨_, rfl, rfl, fun _ => .rfl⟩, ⟨_, rfl, rfl, fun _ => .rfl⟩,
    ⟨_, rfl, rfl, fun _ => .rfl⟩⟩

theorem writtenAs_of_lookup {m : String} {c : Word} {shape : OperandShape} (hm : mnemonicMap.lookup m = some c)
    (hc : opcodeMap.lookup c = some shape) : WrittenAs m shape := by
  obtain ⟨l₁, l₂, hmap, -⟩ := List.lookup_eq_some_iff.mp hm
  obtain ⟨shape', hc', hwritten⟩ := writtenAs_of_mem_mnemonicMap (m, c) (by simp [hmap])
  rw [hc] at hc'
  cases hc'
  exact hwritten

/-! ### Images and pairs as written -/

/-- The last word of an image as a number: the counter and the pad (R72). -/
theorem toNat_pad_append_adds (pad adds : BitVec 32) :
    (pad ++ adds : BitVec (32 + 32)).toNat = adds.toNat + 2 ^ 32 * pad.toNat := by
  rw [BitVec.toNat_append, ← Nat.shiftLeft_add_eq_or_of_lt adds.isLt, Nat.shiftLeft_eq]
  ring

/-- An image is the one written when and only when its words are those written (R72, R104). -/
theorem imageIs_iff {x : Image} {t : ImageText} :
    imageIs x (.image t) ↔ t.chunks.length = 67 ∧ x.toWords = t.chunks ++ [t.inf, t.nan, t.adds] := by
  have hlast : x.adds.toNat + 2 ^ 32 * x.pad.toNat = t.adds.toNat ↔ x.pad ++ x.adds = t.adds := by
    rw [← toNat_pad_append_adds]
    exact BitVec.toNat_inj
  have hlen : x.chunk.toList.length = 67 := by simp
  simp only [imageIs, hlast, Image.toWords]
  constructor
  · rintro ⟨hchunks, hinf, hnan, hadds⟩
    exact ⟨by rw [← hchunks, hlen], by rw [hchunks, hinf, hnan, hadds]⟩
  · rintro ⟨hlen', hwords⟩
    obtain ⟨hchunks, htail⟩ := List.append_inj hwords (hlen.trans hlen'.symm)
    simp only [List.cons.injEq, and_true] at htail
    exact ⟨hchunks, htail⟩

/-- The pairs of two literal lists of one length are those of their zip (R102, R104). -/
theorem pairsAre_iff {ab : List (Word × Word)} {a b : List Literal} : pairsAre ab (.dot a b) ↔
    a.length = b.length ∧ ab = (a.zip b).map fun p => (p.1.toWord, p.2.toWord) := by
  have hzip : ((a.zip b).map fun p => (p.1.toWord, p.2.toWord)) = (a.map Literal.toWord).zip (b.map Literal.toWord) := by
    rw [List.zip_map]
    rfl
  rw [hzip, pairsAre]
  refine and_congr_right fun hlen => ?_
  have hlen' : (a.map Literal.toWord).length = (b.map Literal.toWord).length := by simpa using hlen
  constructor
  · rintro ⟨hfst, hsnd⟩
    exact List.zip_of_prod hfst hsnd
  · rintro rfl
    exact ⟨List.map_fst_zip hlen'.le, List.map_snd_zip hlen'.ge⟩

/-! ### The operand words of a line -/

/-- Assembled operand words are those of a command with the operands written (R104). -/
theorem exists_reads_of_assembleOperands {m : String} {shape : OperandShape} {operands : AsmOperands} {ops : List Word}
    (hrow : WrittenAs m shape) (h : assembleOperands shape operands = some ops) (hlen : ops.length < 2 ^ 64) :
    ∃ i, shape.Reads ops i ∧ i.mnemonic = m ∧ i.operandsAre operands := by
  cases shape with
  | none i =>
    cases operands <;> cases h
    exact ⟨i, .none i, hrow.1, (hrow.2 _).mpr rfl⟩
  | pattern f =>
    cases operands <;> cases h
    exact ⟨_, .pattern f _, (hrow _).1, ((hrow _).2 _).mpr ⟨_, rfl, rfl⟩⟩
  | vector f =>
    cases operands <;> cases h
    rename_i v
    have hreads := OperandShape.Reads.vector f (v.map Literal.toWord) (by simp at hlen ⊢; omega)
    rw [List.length_map] at hreads
    exact ⟨_, hreads, (hrow _).1, ((hrow _).2 _).mpr rfl⟩
  | pairs f =>
    cases operands with
    | dot a b =>
      rw [assembleOperands] at h
      split at h
      · rename_i heq
        cases h
        have hzip : ((a.zip b).map fun p => (p.1.toWord, p.2.toWord)).length = a.length := by simp [heq]
        have hreads := OperandShape.Reads.pairs f ((a.zip b).map fun p => (p.1.toWord, p.2.toWord))
          (by rw [hzip]; simp [heq] at hlen; omega)
        rw [hzip] at hreads
        exact ⟨_, hreads, (hrow _).1, ((hrow _).2 _).mpr (pairsAre_iff.mpr ⟨heq, rfl⟩)⟩
      · cases h
    | _ => cases h
  | image f =>
    cases operands with
    | image t =>
      rw [assembleOperands] at h
      split at h
      · rename_i hchunks
        cases h
        have hwords := toWords_imageOfWords (ws := t.chunks ++ [t.inf, t.nan, t.adds]) (by simp [hchunks])
        have hreads := OperandShape.Reads.image f (imageOfWords (t.chunks ++ [t.inf, t.nan, t.adds]))
        rw [hwords] at hreads
        exact ⟨_, hreads, (hrow _).1, ((hrow _).2 _).mpr (imageIs_iff.mpr ⟨hchunks, hwords⟩)⟩
      · cases h
    | _ => cases h

/-- The line that writes a command assembles to its words (R104). -/
theorem assemble_eq_encode {i : Instr} {operands : AsmOperands} (h : i.operandsAre operands) :
    assemble (.command i.mnemonic operands) = some (encode i) := by
  rw [assemble_eq_some_iff]
  cases i with
  | sInit | sRound | sPropagate | sChunks | sStore | lInit | lRound | lRoundToSmall | lChunks =>
    cases h
    exact ⟨_, _, _, rfl, rfl, rfl, rfl⟩
  | sAdd1 | lAdd1 =>
    obtain ⟨l, rfl, rfl⟩ := h
    exact ⟨_, _, _, rfl, rfl, rfl, rfl⟩
  | sAddv | sSqnorm | lAddv | lSqnorm =>
    cases operands <;> cases h
    refine ⟨_, _, _, rfl, rfl, rfl, ?_⟩
    rw [encode, List.length_map]
  | sDot ab | lDot ab =>
    cases operands with
    | dot a b =>
      obtain ⟨hlen, rfl⟩ := pairsAre_iff.mp h
      refine ⟨_, _, _, rfl, rfl, if_pos hlen, ?_⟩
      simp [encode, hlen]
    | _ => cases h
  | sAddacc x | sLoad x | lAddsmall x =>
    cases operands with
    | image t =>
      obtain ⟨hlen, hwords⟩ := imageIs_iff.mp h
      exact ⟨_, _, _, rfl, rfl, if_pos hlen, by rw [encode, hwords]⟩
    | _ => cases h

end Sys2Proof.Machine

namespace Sys2Proof

open Machine

/-- Settles O56: the row of the mnemonic reads the assembled operand words as one command, and the encoder writes them. -/
theorem assembledLineIsOneCommand : Obligations.AssembledLineIsOneCommand := by
  unfold Obligations.AssembledLineIsOneCommand
  refine ⟨fun m operands ws h hlen => ?assembled, fun i operands h => assemble_eq_encode h⟩
  case assembled =>
    obtain ⟨c, shape, ops, hm, hc, hops, rfl⟩ := assemble_eq_some_iff.mp h
    rw [List.length_cons] at hlen
    obtain ⟨i, hreads, hmnemonic, hoperands⟩ :=
      exists_reads_of_assembleOperands (writtenAs_of_lookup hm hc) hops (by omega)
    obtain ⟨hwf, hencode⟩ := encode_of_reads (mem_opcodeMap_of_lookup hc) hreads
    refine ⟨i, ?_, hencode, hmnemonic, hoperands⟩
    rw [← hencode, ← List.append_nil (encode i), decode_encode_append hwf]

/-- Settles O57: both forms of a decimal literal are the shared rounding of a ratio (entry 8). -/
theorem decimalLiteralIsCorrectlyRounded : Obligations.DecimalLiteralIsCorrectlyRounded := by
  unfold Obligations.DecimalLiteralIsCorrectlyRounded
  intro neg digits k
  constructor
  · have hround := roundRatio_correctlyRounded neg (digits * 10 ^ k * 2 ^ 1075) Nat.one_pos
    simp only [Nat.cast_mul, Nat.cast_pow, Nat.cast_ofNat, Nat.cast_one] at hround
    exact hround
  · have hround := roundRatio_correctlyRounded neg (digits * 2 ^ 1075) (Nat.pow_pos (n := k + 1) (show 0 < 10 by decide))
    simp only [Nat.cast_mul, Nat.cast_pow, Nat.cast_ofNat] at hround
    rw [show (-(k + 1 : Int)) = Int.negSucc k by rfl]
    exact hround

end Sys2Proof
end
